-- ==== Sys2Proof/Word.lean ====
section
/-! DEFINITION. The word types of the CCRU (spec/00_scope.md R8: every register is 32 bits, bit 0 the least
significant; spec/20_memory.md R45: a word as four bytes). -/

namespace Sys2Proof

/-- A register, a command word or the data of a bus transaction (R8). -/
abbrev Word := BitVec 32

/-- One byte lane of a word (R45). -/
abbrev Byte := BitVec 8

end Sys2Proof
end

