-- ==== Sys2Proof/Config.lean ====
section
/-! DEFINITION. What an instance of the CCRU fixes (spec/00_scope.md R6, spec/10_state.md R12): the configurable
parameters as one record, and the open parameter `encB` as a constant without a body. -/

namespace Sys2Proof

/-- The parameters of `00_scope.md` R6 marked *configurable*. They are "configuration of the hardware, fixed before reset
and never changed by any command" (R12). `numRegions` is at most 3 because ACFG has payload codes for the regions 0, 1, 2
only (R28, R77) (DEDUCED, log 4). `CCRU_BASE` is "never used by any rule" (R44) and has no field (log 8). -/
structure Config where
  /-- `MB_BASE`: the mailbox address a pass starts at. -/
  mbBase : Nat
  /-- `REGION_SIZE`, in bytes; "must be ≥ 72". -/
  regionSize : Nat
  /-- `NUM_REGIONS`: the number of regions under the per-region policy. -/
  numRegions : Fin 4
deriving DecidableEq, Repr

/-- The values R6 gives the configurable parameters, which every test vector of the spec uses. -/
def Config.standard : Config := { mbBase := 0x80, regionSize := 512, numRegions := 3 }

/-- `encB`, the Mode B filter encoding (R127): "a total function from (id, mk, ext), two 32-bit words and one bit, to a
pair of 32-bit words, fixed for a given CCRU instance, with no other input and no state". OPEN in the spec (R6, D34): it
has no body here, so that nothing can be proved of its values (log 6). -/
opaque Config.encB : (id mask : Word) → (ext : Bool) → Word × Word

end Sys2Proof
end

