-- ==== Sys2Proof/Syntax.lean ====
section
/-! DEFINITION. The commands of the CCRU, one constructor per row of spec/opcode_table.json (spec/30_encoding.md R54), and
the transactions of the host port that carry them (spec/20_memory.md R42, R43; spec/70_reset_and_hazards.md R160). -/

namespace Sys2Proof

/-- The fourteen commands of R54. A command has no operand field (R53, R56) but the modifier KEEPMAX of ALLOC_BEGIN. -/
inductive Instr where
  | nop
  | resolveClassic
  | resolveAuto
  | resolveFd
  | resolveCbt
  /-- `keepmax` is bit 8 of the word (R53, format C1). -/
  | allocBegin (keepmax : Bool)
  | allocNext
  | allocEnd
  | mapIndex
  | ordCmp
  | fltBegin
  | fltEnc
  | fltEnd
  | clr
deriving DecidableEq, Repr

/-- What can arrive at the CCRU from outside (R7, R42, R43, R160). Any address and any width can be presented; which are
legal is R46. Only a 4-byte write has data the CCRU looks at, so `data` is a word (log 3). -/
inductive HostEvent where
  /-- `MemRead(addr, n)`: a read of `n` bytes at byte offset `addr`. -/
  | read (addr n : Nat)
  /-- `MemWrite(addr, n, v)`: a write of `n` bytes at byte offset `addr`. -/
  | write (addr n : Nat) (data : Word)
  /-- the input `RESET` asserted and released (log 7). -/
  | reset
deriving DecidableEq, Repr

end Sys2Proof
end

