-- ==== Sys2Proof/WellFormed.lean ====
section
/-! DEFINITION. What the spec asks of a transaction and of an instance's parameters. `Instr` needs no check of its own:
a command has no field that could hold an illegal value (spec/30_encoding.md R53, R56), so every term of it is one of the
legal words of R54; an illegal word is refused by `decode` (R55). -/

namespace Sys2Proof

/-- Every term of `Instr` is a command of R54. -/
def Instr.wf : Instr → Bool
  | .nop | .resolveClassic | .resolveAuto | .resolveFd | .resolveCbt => true
  | .allocBegin _ | .allocNext | .allocEnd | .mapIndex => true
  | .ordCmp | .fltBegin | .fltEnc | .fltEnd | .clr => true

/-- R46: "The only legal access is 32 bits wide at an offset that is a multiple of 4 inside the window" (R42, R43:
`n = 4`, `addr mod 4 = 0`, `0 <= addr <= 0xFC`). -/
def accessLegal (addr n : Nat) : Bool :=
  decide (n = 4) && decide (addr % 4 = 0) && decide (addr ≤ 0xFC)

/-- The transactions that are not answered with a bus error (R46). -/
def HostEvent.wf : HostEvent → Bool
  | .read addr n => accessLegal addr n
  | .write addr n _ => accessLegal addr n
  | .reset => true

/-- The parameters an instance may have: `REGION_SIZE` "must be ≥ 72" (R6), and every mailbox address a pass can reach,
at most `MB_BASE + 65535` (R81 corner case a), fits the 32-bit registers AADDR and ACUR (R31, R34) (DEDUCED, log 5). -/
def Config.wf (c : Config) : Bool :=
  decide (72 ≤ c.regionSize) && decide (c.mbBase + 65535 < 2 ^ 32)

end Sys2Proof
end

