-- ==== Sys2Proof/Decode.lean ====
section
/-! DEFINITION. The decoder of command words, total on every word and rejecting by name, and the encoder beside it
(spec/30_encoding.md R53 to R55; the byte lanes of spec/20_memory.md R45). -/

namespace Sys2Proof

/-- Why a word is illegal (R55 names the three cases; the names are the model's, unobservable by the host). -/
inductive DecodeError where
  /-- "any word with a bit of 31:9 set" -/
  | reservedBitsSet
  /-- "any word with bit 8 set whose OPC is not 0x10" -/
  | modifierNotAllowed
  /-- "any OPC not in the table" -/
  | unassignedOpcode
  /-- fewer than the four bytes of a word (no bus transaction has this; only `decodeBytes` can) -/
  | truncated
deriving DecidableEq, Repr

/-- The command code of each row of R54, field OPC (bits 7:0). -/
def Instr.opc : Instr → BitVec 8
  | .nop => 0x00#8
  | .resolveClassic => 0x01#8
  | .resolveAuto => 0x02#8
  | .resolveFd => 0x03#8
  | .resolveCbt => 0x04#8
  | .allocBegin _ => 0x10#8
  | .allocNext => 0x11#8
  | .allocEnd => 0x12#8
  | .mapIndex => 0x13#8
  | .ordCmp => 0x20#8
  | .fltBegin => 0x30#8
  | .fltEnc => 0x31#8
  | .fltEnd => 0x32#8
  | .clr => 0x7F#8

/-- Bit 8 of a command word: KEEPMAX in format C1, 0 in format C0 (R53). -/
def Instr.modifier : Instr → Bool
  | .allocBegin keepmax => keepmax
  | .nop | .resolveClassic | .resolveAuto | .resolveFd | .resolveCbt => false
  | .allocNext | .allocEnd | .mapIndex => false
  | .ordCmp | .fltBegin | .fltEnc | .fltEnd | .clr => false

/-- The command with code `opc` and modifier bit `m`, if R54 has a row for it. -/
def decodeOpcode (opc : BitVec 8) (m : Bool) : Except DecodeError Instr :=
  if opc = 0x10#8 then .ok (.allocBegin m)
  else if m then .error .modifierNotAllowed
  else if opc = 0x00#8 then .ok .nop
  else if opc = 0x01#8 then .ok .resolveClassic
  else if opc = 0x02#8 then .ok .resolveAuto
  else if opc = 0x03#8 then .ok .resolveFd
  else if opc = 0x04#8 then .ok .resolveCbt
  else if opc = 0x11#8 then .ok .allocNext
  else if opc = 0x12#8 then .ok .allocEnd
  else if opc = 0x13#8 then .ok .mapIndex
  else if opc = 0x20#8 then .ok .ordCmp
  else if opc = 0x30#8 then .ok .fltBegin
  else if opc = 0x31#8 then .ok .fltEnc
  else if opc = 0x32#8 then .ok .fltEnd
  else if opc = 0x7F#8 then .ok .clr
  else .error .unassignedOpcode

/-- R54, R55: every 32-bit word is exactly one of the fourteen commands or illegal. -/
def decode (w : Word) : Except DecodeError Instr :=
  if w.extractLsb' 9 23 ≠ 0#23 then .error .reservedBitsSet
  else decodeOpcode (w.extractLsb' 0 8) (w.getLsbD 8)

/-- The word of a command (R53): `{0 (31:9), modifier (8), OPC (7:0)}`. -/
def encode (i : Instr) : Word :=
  0#23 ++ BitVec.ofBool i.modifier ++ i.opc

/-- A word as the bytes at `addr`, `addr + 1`, …: byte `addr + i` carries bits `8*i+7 : 8*i` (R45, log 13). -/
def wordBytes (w : Word) : List Byte :=
  [w.extractLsb' 0 8, w.extractLsb' 8 8, w.extractLsb' 16 8, w.extractLsb' 24 8]

/-- The word four bytes carry, in the lanes of R45; `none` where there are fewer than four. -/
def bytesWord : List Byte → Option Word
  | b0 :: b1 :: b2 :: b3 :: _ => some (b3 ++ b2 ++ b1 ++ b0)
  | _ => none

/-- The command in the first four bytes, and the bytes after it. -/
def decodeBytes (bytes : List Byte) : Except DecodeError (Instr × List Byte) :=
  match bytesWord bytes with
  | none => .error .truncated
  | some w =>
    match decode w with
    | .ok i => .ok (i, bytes.drop 4)
    | .error e => .error e

/-- The word an opcode-table row of `nbits` bits holding `w` stands for: every bit above `nbits` is 0. -/
def tableWord (nbits w : Nat) : Word := BitVec.ofNat 32 (w % 2 ^ nbits)

/-- The instruction the decoder reads from a row's word laid out in its byte lanes. -/
def decodeTableWord (nbits w : Nat) : Option Instr :=
  match decodeBytes (wordBytes (tableWord nbits w)) with
  | .ok (i, _) => some i
  | .error _ => none

/-- One row of R54: `match` and `mask` "over the whole 32-bit word (`word & mask == match`)". -/
structure OpcodeRow where
  mnemonic : String
  pattern : Word
  mask : Word
deriving DecidableEq, Repr

/-- The opcode map of R54, row by row. -/
def opcodeMap : List OpcodeRow :=
  [ { mnemonic := "NOP", pattern := 0x00000000#32, mask := 0xFFFFFFFF#32 },
    { mnemonic := "RESOLVE_CLASSIC", pattern := 0x00000001#32, mask := 0xFFFFFFFF#32 },
    { mnemonic := "RESOLVE_AUTO", pattern := 0x00000002#32, mask := 0xFFFFFFFF#32 },
    { mnemonic := "RESOLVE_FD", pattern := 0x00000003#32, mask := 0xFFFFFFFF#32 },
    { mnemonic := "RESOLVE_CBT", pattern := 0x00000004#32, mask := 0xFFFFFFFF#32 },
    { mnemonic := "ALLOC_BEGIN", pattern := 0x00000010#32, mask := 0xFFFFFEFF#32 },
    { mnemonic := "ALLOC_NEXT", pattern := 0x00000011#32, mask := 0xFFFFFFFF#32 },
    { mnemonic := "ALLOC_END", pattern := 0x00000012#32, mask := 0xFFFFFFFF#32 },
    { mnemonic := "MAP_INDEX", pattern := 0x00000013#32, mask := 0xFFFFFFFF#32 },
    { mnemonic := "ORD_CMP", pattern := 0x00000020#32, mask := 0xFFFFFFFF#32 },
    { mnemonic := "FLT_BEGIN", pattern := 0x00000030#32, mask := 0xFFFFFFFF#32 },
    { mnemonic := "FLT_ENC", pattern := 0x00000031#32, mask := 0xFFFFFFFF#32 },
    { mnemonic := "FLT_END", pattern := 0x00000032#32, mask := 0xFFFFFFFF#32 },
    { mnemonic := "CLR", pattern := 0x0000007F#32, mask := 0xFFFFFFFF#32 } ]

/-- `word & mask == match` (R54). -/
def OpcodeRow.matches (r : OpcodeRow) (w : Word) : Bool := w &&& r.mask == r.pattern

/-- A command's mnemonic in R54. -/
def Instr.mnemonic : Instr → String
  | .nop => "NOP"
  | .resolveClassic => "RESOLVE_CLASSIC"
  | .resolveAuto => "RESOLVE_AUTO"
  | .resolveFd => "RESOLVE_FD"
  | .resolveCbt => "RESOLVE_CBT"
  | .allocBegin _ => "ALLOC_BEGIN"
  | .allocNext => "ALLOC_NEXT"
  | .allocEnd => "ALLOC_END"
  | .mapIndex => "MAP_INDEX"
  | .ordCmp => "ORD_CMP"
  | .fltBegin => "FLT_BEGIN"
  | .fltEnc => "FLT_ENC"
  | .fltEnd => "FLT_END"
  | .clr => "CLR"

end Sys2Proof
end

