-- ==== Sys2Proof/Machine/State.lean ====
section
/-! DEFINITION. The state of the CCRU: the 37 registers of spec/10_state.md R11 ("There is no other state"), with three
fields of the model's own beside them (the instance's parameters, the host's input still to come, the port's answer), and
the reasons a step can stop. -/

namespace Sys2Proof.Machine

/-- The registers of R11, in the order of its table. -/
inductive Reg where
  | cmd | status | errCode | errValue | errLo | errHi | feat
  | clkHz | rate | segs | phys | xpresc | tctl | tqClock | tqUser | res0 | res1
  | acfg | alim | mapin | aaddr | aidx | astat | acur | amax | mapout
  | keyaTc | keyaId | keybTc | keybId | ord
  | fltcfg | fltId | fltMask | fltIdOut | fltMaskOut | fltCnt
deriving DecidableEq, Repr

/-- A reason a bus access fails. Closed. -/
inductive Fault where
  /-- Raised by `checkAccess` (Machine/Ops.lean) for an access that is not 32 bits wide, not aligned or outside the window
  (R46; V6 of spec/93_implementation_defined.md: "`fault` of the host transaction (bus error), no CCRU state change").
  `busCycle` answers it to the host in `reply` and the machine goes on; no step stops with it. Safe: a claim about the
  CCRU's registers cannot rest on it, since they do not change (log 3). -/
  | busError (addr n : Nat)
deriving DecidableEq, Repr

/-- A reason a command has no meaning. Closed. -/
inductive Refusal where
  /-- Raised by an arm of `exec` whose command has no meaning yet; no arm does. Safe: nothing is claimed of a step that
  stops. (The *refusal* of R146 is not this: it is a next state with STATUS.CMDERR set.) -/
  | notModelled (mnemonic : String)
deriving DecidableEq, Repr

/-- The port's answer to the latest transaction (the model's own field, log 2). -/
inductive Reply where
  /-- no transaction was answered: at reset, and after a step without input -/
  | idle
  /-- a legal write, completed (with the whole command where it was a write to CMD) -/
  | ack
  /-- a legal read and the 32 bits it returned (R42) -/
  | data (w : Word)
  /-- a bus error (R46): a read returns no data, a write changed nothing -/
  | fault (f : Fault)
deriving DecidableEq, Repr

/-- The machine. The first 37 fields are the registers of R11 under their names; `cfg`, `pending` and `reply` are the
model's own and no register. -/
structure State where
  /-- CMD (R14) -/
  cmd : Word
  /-- STATUS (R15) -/
  status : Word
  /-- ERR_CODE (R16) -/
  errCode : Word
  /-- ERR_VALUE (R17) -/
  errValue : Word
  /-- ERR_LO (R17) -/
  errLo : Word
  /-- ERR_HI (R17) -/
  errHi : Word
  /-- FEAT (R18) -/
  feat : Word
  /-- CLK_HZ (R19) -/
  clkHz : Word
  /-- RATE (R20) -/
  rate : Word
  /-- SEGS (R21) -/
  segs : Word
  /-- PHYS (R22) -/
  phys : Word
  /-- XPRESC (R23) -/
  xpresc : Word
  /-- TCTL (R24) -/
  tctl : Word
  /-- TQ_CLOCK (R25) -/
  tqClock : Word
  /-- TQ_USER (R25) -/
  tqUser : Word
  /-- RES0 (R26) -/
  res0 : Word
  /-- RES1 (R27) -/
  res1 : Word
  /-- ACFG (R28) -/
  acfg : Word
  /-- ALIM (R29) -/
  alim : Word
  /-- MAPIN (R30) -/
  mapin : Word
  /-- AADDR (R31) -/
  aaddr : Word
  /-- AIDX (R32) -/
  aidx : Word
  /-- ASTAT (R33) -/
  astat : Word
  /-- ACUR (R34) -/
  acur : Word
  /-- AMAX (R35) -/
  amax : Word
  /-- MAPOUT (R36) -/
  mapout : Word
  /-- KEYA_TC (R37) -/
  keyaTc : Word
  /-- KEYA_ID (R37) -/
  keyaId : Word
  /-- KEYB_TC (R37) -/
  keybTc : Word
  /-- KEYB_ID (R37) -/
  keybId : Word
  /-- ORD (R38) -/
  ord : Word
  /-- FLTCFG (R39) -/
  fltcfg : Word
  /-- FLT_ID (R39) -/
  fltId : Word
  /-- FLT_MASK (R39) -/
  fltMask : Word
  /-- FLT_ID_OUT (R40) -/
  fltIdOut : Word
  /-- FLT_MASK_OUT (R40) -/
  fltMaskOut : Word
  /-- FLT_CNT (R40) -/
  fltCnt : Word
  /-- the instance's parameters (R6, R12): no step and no RESET changes them (log 4) -/
  cfg : Config
  /-- the host's transactions and RESET events still to come, the next one first (R7, R13, R49; log 1) -/
  pending : List HostEvent
  /-- the port's answer to the latest transaction (log 2) -/
  reply : Reply
deriving DecidableEq, Repr

/-- R161: "Every register … resets to 0x00000000, with one exception: ASTAT resets to 0x00000003". The parameters have
the values of R6 (log 4), no transaction is waiting and none has been answered (log 1, log 2). -/
def State.reset : State :=
  { cmd := 0#32, status := 0#32, errCode := 0#32, errValue := 0#32, errLo := 0#32, errHi := 0#32, feat := 0#32,
    clkHz := 0#32, rate := 0#32, segs := 0#32, phys := 0#32, xpresc := 0#32, tctl := 0#32,
    tqClock := 0#32, tqUser := 0#32, res0 := 0#32, res1 := 0#32,
    acfg := 0#32, alim := 0#32, mapin := 0#32, aaddr := 0#32, aidx := 0#32, astat := 0x00000003#32, acur := 0#32,
    amax := 0#32, mapout := 0#32,
    keyaTc := 0#32, keyaId := 0#32, keybTc := 0#32, keybId := 0#32, ord := 0#32,
    fltcfg := 0#32, fltId := 0#32, fltMask := 0#32, fltIdOut := 0#32, fltMaskOut := 0#32, fltCnt := 0#32,
    cfg := Config.standard, pending := [], reply := .idle }

end Sys2Proof.Machine
end

