-- ==== Sys2Proof/Machine/Registers.lean ====
section
/-! DEFINITION. Reading and writing a register by name (`x[NAME]` and `x[NAME] <- v` of spec/00_scope.md R9), and the table
of spec/10_state.md R11: offsets, access, and the fields each register has. -/

namespace Sys2Proof.Machine

/-- `x[NAME]`: "read of CCRU register NAME (all 32 bits)" (R9). -/
def State.get (s : State) (r : Reg) : Word :=
  match r with
  | .cmd => s.cmd
  | .status => s.status
  | .errCode => s.errCode
  | .errValue => s.errValue
  | .errLo => s.errLo
  | .errHi => s.errHi
  | .feat => s.feat
  | .clkHz => s.clkHz
  | .rate => s.rate
  | .segs => s.segs
  | .phys => s.phys
  | .xpresc => s.xpresc
  | .tctl => s.tctl
  | .tqClock => s.tqClock
  | .tqUser => s.tqUser
  | .res0 => s.res0
  | .res1 => s.res1
  | .acfg => s.acfg
  | .alim => s.alim
  | .mapin => s.mapin
  | .aaddr => s.aaddr
  | .aidx => s.aidx
  | .astat => s.astat
  | .acur => s.acur
  | .amax => s.amax
  | .mapout => s.mapout
  | .keyaTc => s.keyaTc
  | .keyaId => s.keyaId
  | .keybTc => s.keybTc
  | .keybId => s.keybId
  | .ord => s.ord
  | .fltcfg => s.fltcfg
  | .fltId => s.fltId
  | .fltMask => s.fltMask
  | .fltIdOut => s.fltIdOut
  | .fltMaskOut => s.fltMaskOut
  | .fltCnt => s.fltCnt

/-- `x[NAME] <- v`: "write of the register … by the CCRU" (R9). -/
def State.set (s : State) (r : Reg) (v : Word) : State :=
  match r with
  | .cmd => { s with cmd := v }
  | .status => { s with status := v }
  | .errCode => { s with errCode := v }
  | .errValue => { s with errValue := v }
  | .errLo => { s with errLo := v }
  | .errHi => { s with errHi := v }
  | .feat => { s with feat := v }
  | .clkHz => { s with clkHz := v }
  | .rate => { s with rate := v }
  | .segs => { s with segs := v }
  | .phys => { s with phys := v }
  | .xpresc => { s with xpresc := v }
  | .tctl => { s with tctl := v }
  | .tqClock => { s with tqClock := v }
  | .tqUser => { s with tqUser := v }
  | .res0 => { s with res0 := v }
  | .res1 => { s with res1 := v }
  | .acfg => { s with acfg := v }
  | .alim => { s with alim := v }
  | .mapin => { s with mapin := v }
  | .aaddr => { s with aaddr := v }
  | .aidx => { s with aidx := v }
  | .astat => { s with astat := v }
  | .acur => { s with acur := v }
  | .amax => { s with amax := v }
  | .mapout => { s with mapout := v }
  | .keyaTc => { s with keyaTc := v }
  | .keyaId => { s with keyaId := v }
  | .keybTc => { s with keybTc := v }
  | .keybId => { s with keybId := v }
  | .ord => { s with ord := v }
  | .fltcfg => { s with fltcfg := v }
  | .fltId => { s with fltId := v }
  | .fltMask => { s with fltMask := v }
  | .fltIdOut => { s with fltIdOut := v }
  | .fltMaskOut => { s with fltMaskOut := v }
  | .fltCnt => { s with fltCnt := v }

/-- The byte offset of each register in the window (R11). -/
def Reg.offset (r : Reg) : Nat :=
  match r with
  | .cmd => 0x00
  | .status => 0x04
  | .errCode => 0x08
  | .errValue => 0x0C
  | .errLo => 0x10
  | .errHi => 0x14
  | .feat => 0x18
  | .clkHz => 0x20
  | .rate => 0x24
  | .segs => 0x28
  | .phys => 0x2C
  | .xpresc => 0x30
  | .tctl => 0x34
  | .tqClock => 0x38
  | .tqUser => 0x3C
  | .res0 => 0x40
  | .res1 => 0x44
  | .acfg => 0x50
  | .alim => 0x54
  | .mapin => 0x58
  | .aaddr => 0x60
  | .aidx => 0x64
  | .astat => 0x68
  | .acur => 0x6C
  | .amax => 0x70
  | .mapout => 0x74
  | .keyaTc => 0x80
  | .keyaId => 0x84
  | .keybTc => 0x88
  | .keybId => 0x8C
  | .ord => 0x90
  | .fltcfg => 0xA0
  | .fltId => 0xA4
  | .fltMask => 0xA8
  | .fltIdOut => 0xAC
  | .fltMaskOut => 0xB0
  | .fltCnt => 0xB4

/-- The register at a word offset of the window; `none` for a reserved offset (R11, R41). -/
def Reg.ofOffset (addr : Nat) : Option Reg :=
  match addr with
  | 0x00 => some .cmd
  | 0x04 => some .status
  | 0x08 => some .errCode
  | 0x0C => some .errValue
  | 0x10 => some .errLo
  | 0x14 => some .errHi
  | 0x18 => some .feat
  | 0x20 => some .clkHz
  | 0x24 => some .rate
  | 0x28 => some .segs
  | 0x2C => some .phys
  | 0x30 => some .xpresc
  | 0x34 => some .tctl
  | 0x38 => some .tqClock
  | 0x3C => some .tqUser
  | 0x40 => some .res0
  | 0x44 => some .res1
  | 0x50 => some .acfg
  | 0x54 => some .alim
  | 0x58 => some .mapin
  | 0x60 => some .aaddr
  | 0x64 => some .aidx
  | 0x68 => some .astat
  | 0x6C => some .acur
  | 0x70 => some .amax
  | 0x74 => some .mapout
  | 0x80 => some .keyaTc
  | 0x84 => some .keyaId
  | 0x88 => some .keybTc
  | 0x8C => some .keybId
  | 0x90 => some .ord
  | 0xA0 => some .fltcfg
  | 0xA4 => some .fltId
  | 0xA8 => some .fltMask
  | 0xAC => some .fltIdOut
  | 0xB0 => some .fltMaskOut
  | 0xB4 => some .fltCnt
  | _ => none

/-- The registers, in the order of R11's table. -/
def Reg.all : List Reg :=
  [.cmd, .status, .errCode, .errValue, .errLo, .errHi, .feat, .clkHz, .rate, .segs, .phys, .xpresc, .tctl, .tqClock, .tqUser, .res0, .res1, .acfg, .alim, .mapin, .aaddr, .aidx, .astat, .acur, .amax, .mapout, .keyaTc, .keyaId, .keybTc, .keybId, .ord, .fltcfg, .fltId, .fltMask, .fltIdOut, .fltMaskOut, .fltCnt]

/-- The bits of each register that belong to a field; the others are "reserved" (RW registers) or "zero" (RO registers)
in R14 to R40, and R41 says: "A reserved field inside an RW register ignores writes and reads 0. A 'zero' field of an RO
register always reads 0." CMD "returns the last word written", legal or not (R14). -/
def Reg.fields (r : Reg) : Word :=
  match r with
  | .cmd => 0xFFFFFFFF#32
  | .status => 0x00001F0F#32
  | .errCode => 0x00FF07FF#32
  | .errValue => 0xFFFFFFFF#32
  | .errLo => 0xFFFFFFFF#32
  | .errHi => 0xFFFFFFFF#32
  | .feat => 0x0000001F#32
  | .clkHz => 0xFFFFFFFF#32
  | .rate => 0xFFFFFFFF#32
  | .segs => 0xFFFFFFFF#32
  | .phys => 0xFFFFFFFF#32
  | .xpresc => 0xFFFFFFFF#32
  | .tctl => 0x000001FF#32
  | .tqClock => 0xFFFFFFFF#32
  | .tqUser => 0xFFFFFFFF#32
  | .res0 => 0x0701FFFF#32
  | .res1 => 0xFFFFFFFF#32
  | .acfg => 0x00FFFFFF#32
  | .alim => 0x00FFFFFF#32
  | .mapin => 0x0001FFFF#32
  | .aaddr => 0xFFFFFFFF#32
  | .aidx => 0x00FFFFFF#32
  | .astat => 0x0000FF07#32
  | .acur => 0xFFFFFFFF#32
  | .amax => 0x0000FFFF#32
  | .mapout => 0x80FFFFFF#32
  | .keyaTc => 0x0000FF01#32
  | .keyaId => 0xFFFFFFFF#32
  | .keybTc => 0x0000FF01#32
  | .keybId => 0xFFFFFFFF#32
  | .ord => 0x00000007#32
  | .fltcfg => 0x00000007#32
  | .fltId => 0xFFFFFFFF#32
  | .fltMask => 0xFFFFFFFF#32
  | .fltIdOut => 0xFFFFFFFF#32
  | .fltMaskOut => 0xFFFFFFFF#32
  | .fltCnt => 0x0000FFFF#32

/-- The access column of R11: may the host write the register? -/
def Reg.writable (r : Reg) : Bool :=
  match r with
  | .cmd | .feat | .clkHz | .rate | .segs | .phys | .xpresc | .tctl | .acfg | .alim | .mapin
  | .keyaTc | .keyaId | .keybTc | .keybId | .fltcfg | .fltId | .fltMask => true
  | .status | .errCode | .errValue | .errLo | .errHi | .tqClock | .tqUser | .res0 | .res1 | .aaddr | .aidx | .astat
  | .acur | .amax | .mapout | .ord | .fltIdOut | .fltMaskOut | .fltCnt => false

end Sys2Proof.Machine
end

