-- ==== Sys2Proof/Machine/Flags.lean ====
section
/-! DEFINITION. The flags of STATUS (spec/10_state.md R15), and how a command tests, sets and clears them. -/

namespace Sys2Proof.Machine

/-- The flags of R15. The five `w…` flags are the warnings `W_…`; each is one `Inconsistent` (spec/60_exceptions.md R141). -/
inductive StatusFlag where
  | valid | fatal | cmderr | avalid
  | wTqClassic | wTqFd | wTqCbt | wPrescFdCbt | wPrescFdCls
deriving DecidableEq, Repr

/-- The bit of STATUS each flag is (R15). -/
def StatusFlag.bit (f : StatusFlag) : Nat :=
  match f with
  | .valid => 0
  | .fatal => 1
  | .cmderr => 2
  | .avalid => 3
  | .wTqClassic => 8
  | .wTqFd => 9
  | .wTqCbt => 10
  | .wPrescFdCbt => 11
  | .wPrescFdCls => 12

/-- `x[STATUS].F` (R9). -/
def State.flag (s : State) (f : StatusFlag) : Bool := (s.get .status).getLsbD f.bit

/-- `x[STATUS].F <- 1`. -/
def State.setFlag (s : State) (f : StatusFlag) : State :=
  s.set .status (s.get .status ||| (1#32 <<< f.bit))

/-- `x[STATUS].F <- 0`. -/
def State.clearFlag (s : State) (f : StatusFlag) : State :=
  s.set .status (s.get .status &&& ~~~(1#32 <<< f.bit))

/-- `warn W_<NAME>` where its condition holds: "sets the sticky warning flag …; never stops the command" (R9, R145). -/
def State.warnIf (s : State) (cond : Bool) (f : StatusFlag) : State :=
  if cond then s.setFlag f else s

end Sys2Proof.Machine
end

