-- ==== Sys2Proof/Machine/Operands.lean ====
section
/-! DEFINITION. The fields of the registers as operands (spec/30_encoding.md R56: "each operand is the unsigned value of its
register field, with no sign extension, scaling or shifting"), and writing one field of a register (spec/00_scope.md R9:
"fields not named keep their value"). -/

namespace Sys2Proof.Machine

/-- `v[lo+len-1:lo]` (R8). -/
def field (w : Word) (lo len : Nat) : BitVec len := w.extractLsb' lo len

/-- `w` with the field of `len` bits at `lo` replaced by `v` and every other bit kept (R9). -/
def setField (w : Word) (lo : Nat) {len : Nat} (v : BitVec len) : Word :=
  (w &&& ~~~((BitVec.allOnes len).setWidth 32 <<< lo)) ||| (v.setWidth 32 <<< lo)

/-! ### FEAT (R18) -/

/-- FEAT.FD_EN -/
def State.fdEn (s : State) : Bool := (s.get .feat).getLsbD 0
/-- FEAT.CBT_EN -/
def State.cbtEn (s : State) : Bool := (s.get .feat).getLsbD 1
/-- FEAT.BRS_EN -/
def State.brsEn (s : State) : Bool := (s.get .feat).getLsbD 2
/-- FEAT.FIFO_EN -/
def State.fifoEn (s : State) : Bool := (s.get .feat).getLsbD 3
/-- FEAT.PER_REGION -/
def State.perRegion (s : State) : Bool := (s.get .feat).getLsbD 4

/-! ### Bit-timing operands (R19 to R24) -/

/-- CLK_HZ (R19) -/
def State.clock (s : State) : Nat := (s.get .clkHz).toNat
/-- RATE.BAUD_KHZ (R20) -/
def State.baud (s : State) : Nat := (field (s.get .rate) 0 16).toNat
/-- RATE.PRESC (R20) -/
def State.presc (s : State) : Nat := (field (s.get .rate) 16 16).toNat
/-- SEGS.PROP_SEG (R21) -/
def State.propSeg (s : State) : Nat := (field (s.get .segs) 0 8).toNat
/-- SEGS.SEG1 (R21) -/
def State.seg1 (s : State) : Nat := (field (s.get .segs) 8 8).toNat
/-- SEGS.SEG2 (R21) -/
def State.seg2 (s : State) : Nat := (field (s.get .segs) 16 8).toNat
/-- SEGS.SJW (R21) -/
def State.sjw (s : State) : Nat := (field (s.get .segs) 24 8).toNat
/-- PHYS.BUS_LEN_M (R22) -/
def State.busLen (s : State) : Nat := (field (s.get .phys) 0 16).toNat
/-- PHYS.XCVR_NS (R22) -/
def State.xcvrNs (s : State) : Nat := (field (s.get .phys) 16 16).toNat
/-- XPRESC.CLASSIC (R23) -/
def State.xprescClassic (s : State) : Nat := (field (s.get .xpresc) 0 16).toNat
/-- XPRESC.CBT (R23) -/
def State.xprescCbt (s : State) : Nat := (field (s.get .xpresc) 16 16).toNat
/-- TCTL.MBCNT (R24) -/
def State.mbCnt (s : State) : Nat := (field (s.get .tctl) 0 8).toNat
/-- TCTL.CLKSRC (R24) -/
def State.clkSrc (s : State) : Bool := (s.get .tctl).getLsbD 8

/-! ### Allocator operands and state (R28 to R35) -/

/-- ACFG.GPL (R28) -/
def State.gpl (s : State) : BitVec 2 := field (s.get .acfg) 0 2
/-- ACFG.RPL0 (R28) -/
def State.rpl0 (s : State) : BitVec 2 := field (s.get .acfg) 2 2
/-- ACFG.RPL1 (R28) -/
def State.rpl1 (s : State) : BitVec 2 := field (s.get .acfg) 4 2
/-- ACFG.RPL2 (R28) -/
def State.rpl2 (s : State) : BitVec 2 := field (s.get .acfg) 6 2
/-- ACFG.CTRL_ID (R28) -/
def State.ctrlId (s : State) : BitVec 8 := field (s.get .acfg) 8 8
/-- ACFG.FILTER_COUNT (R28) -/
def State.filterCount (s : State) : Nat := (field (s.get .acfg) 16 8).toNat
/-- ALIM.MEM_SIZE (R29) -/
def State.memSize (s : State) : Nat := (field (s.get .alim) 0 16).toNat
/-- ALIM.HW_MAX_MB (R29) -/
def State.hwMaxMb (s : State) : Nat := (field (s.get .alim) 16 8).toNat
/-- MAPIN.ADDR (R30) -/
def State.mapAddr (s : State) : Nat := (field (s.get .mapin) 0 17).toNat
/-- ACUR, the cursor (R34) -/
def State.cursor (s : State) : Nat := (s.get .acur).toNat
/-- AMAX.MAXMB (R35) -/
def State.maxMb (s : State) : Nat := (field (s.get .amax) 0 16).toNat
/-- ASTAT.FIRST (R33) -/
def State.first (s : State) : Bool := (s.get .astat).getLsbD 2

/-- The allocator state machine (R33, spec/42_mailbox_alloc.md R76). -/
inductive AState where
  | atRegionStart | withinRegion | regionExhausted | done
deriving DecidableEq, Repr

/-- The code of each allocator state in ASTAT (R33). -/
def AState.code (a : AState) : BitVec 2 :=
  match a with
  | .atRegionStart => 0#2
  | .withinRegion => 1#2
  | .regionExhausted => 2#2
  | .done => 3#2

/-- The allocator state a code of R33 stands for. -/
def AState.ofCode (c : BitVec 2) : AState :=
  if c = 0#2 then .atRegionStart
  else if c = 1#2 then .withinRegion
  else if c = 2#2 then .regionExhausted
  else .done

/-- Is a pass open: does the state take ALLOC_NEXT and ALLOC_END (R76)? -/
def AState.isOpen (a : AState) : Bool :=
  match a with
  | .atRegionStart | .withinRegion => true
  | .regionExhausted | .done => false

/-- ASTAT.A_STATE (R33) -/
def State.aState (s : State) : AState := AState.ofCode (field (s.get .astat) 0 2)

/-- `x[ASTAT].A_STATE <- a`, the other fields kept (R9). -/
def State.setAState (s : State) (a : AState) : State :=
  s.set .astat (setField (s.get .astat) 0 a.code)

/-! ### Ordering and filter operands (R37 to R40) -/

/-- An ordering key: "the triple the source sorts by" (R37, spec/43_order_filter.md R120). -/
structure Key where
  /-- TYPE: `false` RECEIVE (0), `true` TRANSMIT (1) -/
  transmit : Bool
  /-- CTRL -/
  ctrl : BitVec 8
  /-- MSGID -/
  msgId : Word
deriving DecidableEq, Repr

/-- The key a KEYx_TC and a KEYx_ID word hold (R37). -/
def Key.ofWords (tc id : Word) : Key :=
  { transmit := tc.getLsbD 0, ctrl := field tc 8 8, msgId := id }

/-- Key A (R37) -/
def State.keyA (s : State) : Key := Key.ofWords (s.get .keyaTc) (s.get .keyaId)
/-- Key B (R37) -/
def State.keyB (s : State) : Key := Key.ofWords (s.get .keybTc) (s.get .keybId)

/-- The acceptance modes (R39). -/
inductive AcceptMode where
  | modeA | modeB | modeC | modeD
deriving DecidableEq, Repr

/-- FLTCFG.MODE (R39): "0 = A, 1 = B, 2 = C, 3 = D". -/
def AcceptMode.ofCode (c : BitVec 2) : AcceptMode :=
  if c = 0#2 then .modeA
  else if c = 1#2 then .modeB
  else if c = 2#2 then .modeC
  else .modeD

/-- FLTCFG.MODE (R39) -/
def State.fltMode (s : State) : AcceptMode := AcceptMode.ofCode (field (s.get .fltcfg) 0 2)
/-- FLTCFG.EXT (R39) -/
def State.fltExt (s : State) : Bool := (s.get .fltcfg).getLsbD 2
/-- FLT_CNT.CNT (R40) -/
def State.fltCount (s : State) : Nat := (field (s.get .fltCnt) 0 16).toNat

end Sys2Proof.Machine
end

