-- ==== Sys2Proof/Machine/Ops.lean ====
section
/-! DEFINITION. The operations every command and every bus access is made of: the fatal error entry (the exception of this
hardware, spec/60_exceptions.md R140 to R143) and CLR's return from it (R148), refusal and blocking (R146, R147), reset
(spec/70_reset_and_hazards.md R160, R161), and the host's view of the register window (spec/20_memory.md R42, R43, R46). -/

namespace Sys2Proof.Machine

/-! ### Arithmetic (spec/00_scope.md R10) -/

/-- "n/d rounded to nearest, a tie rounds up" -/
def rdiv (n d : Nat) : Nat := (2 * n + d) / (2 * d)

/-- "the least integer k with 2*k >= p"; `/` on `Int` by a positive number is the floor division. -/
def ceil2 (p : Int) : Int := (p + 1) / 2

/-- `plen(code) = 8 << code`: the payload length in bytes of a payload code. -/
def plen (code : BitVec 2) : Nat := 8 * 2 ^ code.toNat

/-! ### The fatal error entry: taking an exception -/

/-- The error classes a command raises (R141). -/
inductive ErrClass where
  | outOfRange | capacityExceeded | countMismatch
deriving DecidableEq, Repr

/-- The code of a class in ERR_CODE.CLASS (R141). -/
def ErrClass.code (c : ErrClass) : BitVec 3 :=
  match c with
  | .outOfRange => 1#3
  | .capacityExceeded => 3#3
  | .countMismatch => 5#3

/-- The parameters and causes of R142. -/
inductive ErrParam where
  | pPresc | pBaud | pTqClock | pTseg1 | pTqUser | pMbcnt | pRatio | pProp | pSeg1 | pSeg2 | pSjw
  | pAProp | pAPhase | pASeg2 | pCbtSeg2
  | cMem | cCount | cRegion
  | fltCnt
deriving DecidableEq, Repr

/-- The code of a parameter in ERR_CODE.PARAM (R142). -/
def ErrParam.code (p : ErrParam) : BitVec 8 :=
  match p with
  | .pPresc => 1#8
  | .pBaud => 2#8
  | .pTqClock => 3#8
  | .pTseg1 => 4#8
  | .pTqUser => 5#8
  | .pMbcnt => 6#8
  | .pRatio => 7#8
  | .pProp => 8#8
  | .pSeg1 => 9#8
  | .pSeg2 => 10#8
  | .pSjw => 11#8
  | .pAProp => 12#8
  | .pAPhase => 13#8
  | .pASeg2 => 14#8
  | .pCbtSeg2 => 15#8
  | .cMem => 32#8
  | .cCount => 33#8
  | .cRegion => 34#8
  | .fltCnt => 48#8

/-- The word `{ CTRL = ctrl, CLASS = class, PARAM = param }`, "all other bits 0" (R143, R16). -/
def errCodeWord (cls : ErrClass) (param : ErrParam) (ctrl : BitVec 8) : Word :=
  0#8 ++ ctrl ++ 0#5 ++ cls.code ++ param.code

/-- `fatal_entry(class, param, ctrl, value, lo, hi)` (R143); `ERR_VALUE <- v mod 2^32`, for a negative `v` its
two's-complement word (R140). -/
def fatalEntry (s : State) (cls : ErrClass) (param : ErrParam) (ctrl : BitVec 8) (value : Int) (lo hi : Nat) : State :=
  ((((s.setFlag .fatal).set .errCode (errCodeWord cls param ctrl)).set .errValue (BitVec.ofInt 32 value)).set
    .errLo (BitVec.ofNat 32 lo)).set .errHi (BitVec.ofNat 32 hi)

/-- `raise OutOfRange(param, value, lo, hi)` (R143). -/
def raiseOutOfRange (s : State) (param : ErrParam) (value : Int) (lo hi : Nat) : State :=
  fatalEntry s .outOfRange param 0#8 value lo hi

/-- `raise CapacityExceeded(cause, requested, available)` (R143). -/
def raiseCapacityExceeded (s : State) (cause : ErrParam) (requested available : Nat) : State :=
  fatalEntry s .capacityExceeded cause s.ctrlId (requested : Int) 0 available

/-- `raise CountMismatch(counted, declared)` (R143). -/
def raiseCountMismatch (s : State) (counted declared : Nat) : State :=
  fatalEntry s .countMismatch .fltCnt s.ctrlId (counted : Int) declared declared

/-- The return from a fatal error, the effect of CLR (R148): STATUS and the ERR registers become 0. -/
def clearErrors (s : State) : State :=
  ((((s.set .status 0#32).set .errCode 0#32).set .errValue 0#32).set .errLo 0#32).set .errHi 0#32

/-! ### Refusal and blocking -/

/-- `refuse`: "sets `x[STATUS].CMDERR <- 1` (sticky) and changes nothing else" (R146). -/
def refuse (s : State) : State := s.setFlag .cmderr

/-- A command that is blocked by a fatal error: "While `x[STATUS].FATAL = 1`, every command except NOP and CLR is refused"
(R147); otherwise it has the effect `effect`. -/
def blocking (s : State) (effect : State → State) : Host.Outcome State Fault Refusal :=
  if s.flag .fatal then .next (refuse s) else .next (effect s)

/-! ### Reset -/

/-- RESET asserted and released: every register at its reset value (R160, R161); the parameters "are unaffected by reset"
(R161), and what the host will issue next is the host's (log 7). -/
def hardReset (s : State) : State :=
  { State.reset with cfg := s.cfg, pending := s.pending, reply := .idle }

/-! ### The register window -/

/-- The check every access passes first (R46): 32 bits wide, at a multiple of 4, inside the window; else a bus error. -/
def checkAccess (addr n : Nat) : Except Fault Unit :=
  if n = 4 ∧ addr % 4 = 0 ∧ addr ≤ 0xFC then .ok () else .error (.busError addr n)

/-- What a read of the word at a legal offset returns: the register there, "or 0 for a reserved offset" (R42, R41). -/
def windowWord (s : State) (addr : Nat) : Word :=
  match Reg.ofOffset addr with
  | some r => s.get r
  | none => 0#32

/-- `MemRead(addr, n)` (R42): the value, or a bus error. "A read changes no state". -/
def memRead (s : State) (addr n : Nat) : Except Fault Word :=
  match checkAccess addr n with
  | .ok _ => .ok (windowWord s addr)
  | .error f => .error f

/-- A register after the host wrote `v` to it: "it replaces the writable fields with the corresponding bits of `v`
(reserved fields ignore the write)" (R43). -/
def mergeFields (r : Reg) (old v : Word) : Word := (old &&& ~~~r.fields) ||| (v &&& r.fields)

/-- A host write of `v` at a legal offset, without the execution a write to CMD starts (R43): at an RW register its
writable fields are replaced; "at an RO register or reserved offset it does nothing". -/
def windowWrite (s : State) (addr : Nat) (v : Word) : State :=
  match Reg.ofOffset addr with
  | some r => if r.writable then s.set r (mergeFields r (s.get r) v) else s
  | none => s

end Sys2Proof.Machine
end

