-- ==== Sys2Proof/Machine/Alloc.lean ====
section
/-! DEFINITION. The mailbox allocator and index mapper (spec/42_mailbox_alloc.md): ALLOC_BEGIN, ALLOC_NEXT, ALLOC_END,
MAP_INDEX. Mailbox addresses are plain numbers (spec/20_memory.md R44), so the functions of R77 to R79 are over `Nat`. -/

namespace Sys2Proof.Machine

/-- `HDR_LEN` (R6): the bytes of a slot before its payload. -/
def hdrLen : Nat := 8

/-- What `place` reads: "FEAT, ACFG, ALIM and no allocator state" (R78), and the instance's parameters. -/
structure AllocEnv where
  cfg : Config
  fdEn : Bool
  perRegion : Bool
  gpl : BitVec 2
  rpl0 : BitVec 2
  rpl1 : BitVec 2
  rpl2 : BitVec 2
  memSize : Nat
  hwMaxMb : Nat
deriving DecidableEq, Repr

/-- The configuration the operand registers hold now: they "are read by every ALLOC_NEXT" (R81 corner case d, R164). -/
def State.allocEnv (s : State) : AllocEnv :=
  { cfg := s.cfg, fdEn := s.fdEn, perRegion := s.perRegion, gpl := s.gpl, rpl0 := s.rpl0, rpl1 := s.rpl1, rpl2 := s.rpl2,
    memSize := s.memSize, hwMaxMb := s.hwMaxMb }

/-! ### Region, payload and index (R77, R79) -/

/-- `off(a) = a - MB_BASE`, "for a mailbox address a >= MB_BASE"; below `MB_BASE` no rule uses it (log 12). -/
def off (e : AllocEnv) (a : Nat) : Nat := a - e.cfg.mbBase

/-- `region(a)` -/
def region (e : AllocEnv) (a : Nat) : Nat := off e a / e.cfg.regionSize

/-- `rstart(r)` -/
def rstart (e : AllocEnv) (r : Nat) : Nat := e.cfg.mbBase + r * e.cfg.regionSize

/-- `RPL<r>`, for a region `r` of the per-region policy (`r` in `0 .. NUM_REGIONS-1`, at most 2; for no other `r` does a
rule use it, since `region_ok` fails there). -/
def rplCode (e : AllocEnv) (r : Nat) : BitVec 2 :=
  if r = 0 then e.rpl0
  else if r = 1 then e.rpl1
  else e.rpl2

/-- `payload(r)`: "8 bytes default", the region's own code under the per-region policy, else the global one (R77). -/
def payload (e : AllocEnv) (r : Nat) : Nat :=
  if e.fdEn then
    if e.perRegion then plen (rplCode e r) else plen e.gpl
  else 8

/-- `need(r) = HDR_LEN + payload(r)` -/
def need (e : AllocEnv) (r : Nat) : Nat := hdrLen + payload e r

/-- `slots(r) = REGION_SIZE div need(r)` -/
def slots (e : AllocEnv) (r : Nat) : Nat := e.cfg.regionSize / need e r

/-- `region_ok(r)` -/
def regionOk (e : AllocEnv) (r : Nat) : Bool :=
  !(e.fdEn && e.perRegion && decide (e.cfg.numRegions.val ≤ r))

/-- `before(r) = sum of slots(q) for q = 0 .. r-1` (R79) -/
def before (e : AllocEnv) : (r : Nat) → Nat
  | 0 => 0
  | r + 1 => before e r + slots e r

/-- `index(c) = before(r) + (c - rstart(r)) div need(r)`, `r = region(c)` (R79) -/
def index (e : AllocEnv) (c : Nat) : Nat :=
  before e (region e c) + (c - rstart e (region e c)) / need e (region e c)

/-! ### Placement (R78, R80, R90) -/

/-- A slot `place` returns. -/
structure Slot where
  address : Nat
  index : Nat
  plen : Nat
  /-- the next cursor -/
  next : Nat
deriving DecidableEq, Repr

/-- A capacity cause and its record (R90). -/
structure CapacityFailure where
  cause : ErrParam
  requested : Nat
  available : Nat
deriving DecidableEq, Repr

/-- `fail C_REGION(requested = r + 1, available = NUM_REGIONS)` -/
def failRegion (e : AllocEnv) (r : Nat) : CapacityFailure :=
  { cause := .cRegion, requested := r + 1, available := e.cfg.numRegions.val }

/-- The part of `place` after the region of the slot is known: the slot would start at `c` in region `r`. -/
def placeAt (e : AllocEnv) (r c : Nat) : Except CapacityFailure Slot :=
  let n := need e r
  let stop := off e c + n
  if e.memSize < stop then .error { cause := .cMem, requested := stop, available := e.memSize }
  else if e.hwMaxMb < index e c + 1 then
    .error { cause := .cCount, requested := index e c + 1, available := e.hwMaxMb }
  else .ok { address := c, index := index e c, plen := n - hdrLen, next := c + n }

/-- `place(c)` (R78): where the slot would straddle its region's end, the unused tail is skipped and the payload is
"re-determined for the region the slot is in". -/
def place (e : AllocEnv) (c : Nat) : Except CapacityFailure Slot :=
  let r := region e c
  if regionOk e r then
    let rem := e.cfg.regionSize - off e c % e.cfg.regionSize
    if rem < need e r then
      if regionOk e (r + 1) then placeAt e (r + 1) (rstart e (r + 1))
      else .error (failRegion e (r + 1))
    else placeAt e r c
  else .error (failRegion e r)

/-- `extra + 1` placements one after another from the cursor `c`; the last of them, or the first failure (R80, R81). -/
def placeMany (e : AllocEnv) : (extra c : Nat) → Except CapacityFailure Slot
  | 0, c => place e c
  | k + 1, c =>
    match place e c with
    | .ok p => placeMany e k p.next
    | .error f => .error f

/-- The number of slots reserved for the RX FIFO: `floor(FILTER_COUNT / 4) + 6` at the first slot of a pass with FIFO_EN
set, else 0 (R80, R81). -/
def reservedSlots (s : State) : Nat :=
  if s.first && s.fifoEn then s.filterCount / 4 + 6 else 0

/-! ### ALLOC_BEGIN (R82) -/

/-- `{ FIRST_USER = 0, FIRST = 1, A_STATE = AT_REGION_START }` (R82): "word 0x00000004". -/
def astatOpened : Word := 0x00000004#32

/-- AADDR, AIDX and STATUS.AVALID cleared: no slot is reported (R81, R82). -/
def clearSlot (s : State) : State := ((s.set .aaddr 0#32).set .aidx 0#32).clearFlag .avalid

/-- The effect of R82. -/
def allocBegin (keepmax : Bool) (s : State) : State :=
  let t := clearSlot ((s.set .acur (BitVec.ofNat 32 s.cfg.mbBase)).set .astat astatOpened)
  if keepmax then t else t.set .amax 0#32

/-- ALLOC_BEGIN (R82); `keepmax` is `x[CMD].KEEPMAX`, decoded from the word in CMD (log 9). -/
def execAllocBegin (keepmax : Bool) (s : State) : Host.Outcome State Fault Refusal :=
  blocking s (allocBegin keepmax)

/-! ### ALLOC_NEXT (R81) -/

/-- A failing ALLOC_NEXT "assigns nothing and does not move the cursor" (R81). -/
def allocFail (s : State) (f : CapacityFailure) : State :=
  clearSlot ((raiseCapacityExceeded s f.cause f.requested f.available).setAState .regionExhausted)

/-- `{ PLEN = p.plen, IDX = p.index }` in the layout of R32. -/
def aidxWord (p : Slot) : Word := 0#8 ++ BitVec.ofNat 8 p.plen ++ BitVec.ofNat 16 p.index

/-- The allocator state after a slot is assigned (R76, R81). -/
def stateAfter (e : AllocEnv) (next : Nat) : AState :=
  if off e next % e.cfg.regionSize = 0 then .atRegionStart else .withinRegion

/-- ASTAT after a slot is assigned: FIRST_USER set by the first one of the pass, FIRST cleared, A_STATE as R81 says. -/
def astatAssigned (s : State) (p : Slot) : Word :=
  let w := s.get .astat
  let w := if s.first then setField w 8 (BitVec.ofNat 8 p.index) else w
  setField (setField w 2 0#1) 0 (stateAfter s.allocEnv p.next).code

/-- A slot assigned (R81, R85). -/
def allocAssign (s : State) (p : Slot) : State :=
  let t := ((s.set .aaddr (BitVec.ofNat 32 p.address)).set .aidx (aidxWord p)).setFlag .avalid
  let t := (t.set .acur (BitVec.ofNat 32 p.next)).set .astat (astatAssigned s p)
  t.set .amax (setField (s.get .amax) 0 (BitVec.ofNat 16 (max s.maxMb (p.index + 1))))

/-- The effect of R81. -/
def allocNext (s : State) : State :=
  if s.aState.isOpen then
    match placeMany s.allocEnv (reservedSlots s) s.cursor with
    | .ok p => allocAssign s p
    | .error f => allocFail s f
  else refuse s

/-- ALLOC_NEXT (R81). -/
def execAllocNext (s : State) : Host.Outcome State Fault Refusal :=
  blocking s allocNext

/-! ### ALLOC_END (R83) -/

/-- The effect of R83. -/
def allocEnd (s : State) : State :=
  if s.aState.isOpen then s.setAState .done else refuse s

/-- ALLOC_END (R83). -/
def execAllocEnd (s : State) : Host.Outcome State Fault Refusal :=
  blocking s allocEnd

/-! ### MAP_INDEX (R84) -/

/-- The word MAP_INDEX writes for the address `a`, in the layout of R36. -/
def mapoutWord (e : AllocEnv) (a : Nat) : Word :=
  if a < e.cfg.mbBase || !regionOk e (region e a) then 0#32
  else
    let r := region e a
    let n := need e r
    let o := off e a % e.cfg.regionSize
    BitVec.ofBool (decide (o % n = 0) && decide (o + n ≤ e.cfg.regionSize)) ++ 0#7 ++ BitVec.ofNat 8 (n - hdrLen) ++
      BitVec.ofNat 16 (before e r + o / n)

/-- The effect of R84. -/
def mapIndex (s : State) : State := s.set .mapout (mapoutWord s.allocEnv s.mapAddr)

/-- MAP_INDEX (R84). -/
def execMapIndex (s : State) : Host.Outcome State Fault Refusal :=
  blocking s mapIndex

end Sys2Proof.Machine
end

