-- ==== Sys2Proof/Machine/BitTiming.lean ====
section
/-! DEFINITION. The bit-timing resolver (spec/41_bit_timing.md): RESOLVE_CLASSIC, RESOLVE_AUTO, RESOLVE_FD, RESOLVE_CBT.
Each command is a `Resolution` (the quantities, warnings, checks and result of its rule) run by the one frame of R59. All
arithmetic is exact (spec/00_scope.md R9). -/

namespace Sys2Proof.Machine

/-! ### What the rules of the four commands are made of -/

/-- One check of a rule's list: whether it holds, and the record `OutOfRange(param, value, lo, hi)` it raises if not. -/
structure Check where
  holds : Bool
  param : ErrParam
  value : Int
  lo : Nat
  hi : Nat
deriving DecidableEq, Repr

/-- `lo <= value <= hi  else OutOfRange(param, value, lo, hi)` -/
def Check.within (param : ErrParam) (value : Int) (lo hi : Nat) : Check :=
  { holds := decide ((lo : Int) ≤ value ∧ value ≤ (hi : Int)), param := param, value := value, lo := lo, hi := hi }

/-- `value >= lo  else OutOfRange(param, value, lo, hi)`, where `hi` is only what the record reports. -/
def Check.atLeast (param : ErrParam) (value : Int) (lo hi : Nat) : Check :=
  { holds := decide ((lo : Int) ≤ value), param := param, value := value, lo := lo, hi := hi }

/-- "ERR_HI = 0xFFFFFFFF": a range with no upper bound (R17). -/
def noUpperBound : Nat := 0xFFFFFFFF

/-- The values a command ends with, before the minus-one mapping of R65. -/
structure TimingResult where
  kind : BitVec 3
  presc : Int
  prop : Int
  s1 : Int
  s2 : Int
  sjw : Int
deriving DecidableEq, Repr

/-- What a resolver command's rule computes from the operand registers (R59 step 2). -/
structure Resolution where
  tqClock : Int
  tqUser : Int
  /-- the command's warnings, each with its condition -/
  warnings : List (Bool × StatusFlag)
  /-- the command's checks, in the order its rule lists them -/
  checks : List Check
  result : TimingResult
deriving DecidableEq, Repr

/-- RES0 of R65: `{ KIND = kind, CLKSRC = x[TCTL].CLKSRC, PRESDIV = presc - 1 }` in the layout of R26. -/
def res0Word (t : TimingResult) (clkSrc : Bool) : Word :=
  0#5 ++ t.kind ++ 0#7 ++ BitVec.ofBool clkSrc ++ BitVec.ofInt 16 (t.presc - 1)

/-- RES1 of R65: `{ RJW = sjw - 1, PSEG2 = s2 - 1, PSEG1 = s1 - 1, PROPSEG = prop - 1 }` in the layout of R27. -/
def res1Word (t : TimingResult) : Word :=
  BitVec.ofInt 8 (t.sjw - 1) ++ BitVec.ofInt 8 (t.s2 - 1) ++ BitVec.ofInt 8 (t.s1 - 1) ++ BitVec.ofInt 8 (t.prop - 1)

/-- R59 step 4: every warning whose condition holds is recorded. -/
def recordWarnings (s : State) (ws : List (Bool × StatusFlag)) : State :=
  ws.foldl (fun s w => s.warnIf w.1 w.2) s

/-- R59 steps 1, 3 and 4: VALID, RES0 and RES1 cleared, the two counts written, the warnings recorded. -/
def resolveStart (s : State) (q : Resolution) : State :=
  recordWarnings
    (((((s.clearFlag .valid).set .res0 0#32).set .res1 0#32).set .tqClock (BitVec.ofInt 32 q.tqClock)).set
      .tqUser (BitVec.ofInt 32 q.tqUser))
    q.warnings

/-- R59 step 6: RES0 and RES1 written (R65), VALID set. -/
def resolveDeliver (s : State) (t : TimingResult) : State :=
  ((s.set .res0 (res0Word t s.clkSrc)).set .res1 (res1Word t)).setFlag .valid

/-- The first failing check in the order listed (R59 step 5, R144). -/
def firstFailure (checks : List Check) : Option Check := checks.find? (fun c => !c.holds)

/-- The frame of every resolver command (R59). -/
def resolveFrame (q : State → Resolution) (s : State) : State :=
  match firstFailure (q s).checks with
  | some c => raiseOutOfRange (resolveStart s (q s)) c.param c.value c.lo c.hi
  | none => resolveDeliver (resolveStart s (q s)) (q s).result

/-! ### The quantities of R60 to R62 -/

/-- `D = BAUD_KHZ * 1000 * PRESC` (R60) -/
def divisor (s : State) : Nat := s.baud * 1000 * s.presc

/-- `tq_clock` (R60): "one rounding to nearest, a tie going up"; 0 where `D = 0`. -/
def tqClockOf (s : State) : Nat := if divisor s = 0 then 0 else rdiv s.clock (divisor s)

/-- `tq_user = 1 + PROP_SEG + SEG1 + SEG2` (R61) -/
def tqUserOf (s : State) : Nat := 1 + s.propSeg + s.seg1 + s.seg2

/-- `ts1 = PROP_SEG + SEG1` (R61); for RESOLVE_CBT it is `cbtseg1` (R68). -/
def tseg1Of (s : State) : Nat := s.propSeg + s.seg1

/-- `ratio = tq_clock * PRESC` (R62) -/
def ratioOf (s : State) : Nat := tqClockOf s * s.presc

/-- `minratio(m)` (R62): "≥8 for ≤16 mailboxes, ≥8 for 17-32, ≥16 for 33-64". Above 64 the rule gives no row, and no
command reports the ratio there: the check MBCNT comes before it (R64, R66). -/
def minRatio (m : Nat) : Nat :=
  if m ≤ 16 then 8
  else if m ≤ 32 then 8
  else 16

/-- The condition of the TQ-mismatch warnings: `D > 0 and tq_clock != tq_user` (R64, R67, R68, R72). -/
def tqMismatch (s : State) : Bool := decide (0 < divisor s) && decide (tqClockOf s ≠ tqUserOf s)

/-! ### The checks the commands share -/

/-- `PRESC >= 1` (R72) -/
def checkPresc (s : State) : Check := .atLeast .pPresc s.presc 1 65535
/-- `BAUD_KHZ >= 1` (R72) -/
def checkBaud (s : State) : Check := .atLeast .pBaud s.baud 1 65535
/-- `lo <= tq_clock <= hi` -/
def checkTqClock (s : State) (lo hi : Nat) : Check := .within .pTqClock (tqClockOf s) lo hi
/-- `lo <= tq_user <= hi` -/
def checkTqUser (s : State) (lo hi : Nat) : Check := .within .pTqUser (tqUserOf s) lo hi
/-- `MBCNT <= 64` (R62) -/
def checkMbcnt (s : State) : Check := .within .pMbcnt s.mbCnt 0 64
/-- `ratio >= minratio(MBCNT)` (R62) -/
def checkRatio (s : State) : Check := .atLeast .pRatio (ratioOf s) (minRatio s.mbCnt) noUpperBound
/-- `PROP_SEG >= 1` -/
def checkProp (s : State) : Check := .atLeast .pProp s.propSeg 1 255
/-- `SEG1 >= 1` -/
def checkSeg1 (s : State) : Check := .atLeast .pSeg1 s.seg1 1 255
/-- `SEG2 >= 1` -/
def checkSeg2 (s : State) : Check := .atLeast .pSeg2 s.seg2 1 255
/-- `SJW >= 1` -/
def checkSjw (s : State) : Check := .atLeast .pSjw s.sjw 1 255

/-- The result of a command that takes the user's values (R65, R69): "The user's values win". -/
def userResult (s : State) (kind : BitVec 3) : TimingResult :=
  { kind := kind, presc := s.presc, prop := s.propSeg, s1 := s.seg1, s2 := s.seg2, sjw := s.sjw }

/-! ### RESOLVE_CLASSIC (R64) -/

/-- The quantities, the warning and the eleven checks of R64. -/
def classicResolution (s : State) : Resolution :=
  { tqClock := tqClockOf s
    tqUser := tqUserOf s
    warnings := [(tqMismatch s, .wTqClassic)]
    checks :=
      [ checkPresc s,
        checkBaud s,
        checkTqClock s 8 25,
        .within .pTseg1 (tseg1Of s) 4 16,
        checkTqUser s 8 25,
        checkMbcnt s,
        checkRatio s,
        checkProp s,
        checkSeg1 s,
        checkSeg2 s,
        checkSjw s ]
    result := userResult s 1#3 }

/-- RESOLVE_CLASSIC (R64, R59). -/
def execResolveClassic (s : State) : Host.Outcome State Fault Refusal :=
  blocking s (resolveFrame classicResolution)

/-! ### RESOLVE_AUTO (R66) -/

/-- The derivation of R66, in signed integers. -/
structure AutoTiming where
  propSegment : Int
  phase : Int
  seg1 : Int
  seg2 : Int
  sjw : Int
deriving DecidableEq, Repr

/-- `prop_time = 2 * (BUS_LEN_M * 5 + 2 * XCVR_NS)`, in nanoseconds; 5 is `BUS_DELAY_NS_PER_M` (R6). -/
def propTime (s : State) : Nat := 2 * (s.busLen * 5 + 2 * s.xcvrNs)

/-- `q = rdiv(prop_time * CLK_HZ, PRESC * 10^9)`, 0 where `PRESC = 0`. -/
def propQuanta (s : State) : Nat :=
  if s.presc = 0 then 0 else rdiv (propTime s * s.clock) (s.presc * 1000000000)

/-- `prop_segment`, `phase`, `seg1`, `seg2`, `sjw` of R66. -/
def autoTiming (s : State) : AutoTiming :=
  let propSegment : Int := 1 + propQuanta s
  let phase : Int := tqClockOf s - propSegment - 1
  let seg1 : Int := min (ceil2 phase) 8
  { propSegment := propSegment, phase := phase, seg1 := seg1, seg2 := phase - seg1, sjw := min seg1 4 }

/-- The quantities and the nine checks of R66; "warning: none". -/
def autoResolution (s : State) : Resolution :=
  let a := autoTiming s
  { tqClock := tqClockOf s
    tqUser := 1 + a.propSegment + a.seg1 + a.seg2
    warnings := []
    checks :=
      [ checkPresc s,
        checkBaud s,
        .within .pAProp a.propSegment 1 8,
        .atLeast .pAPhase a.phase 2 noUpperBound,
        .within .pASeg2 a.seg2 2 8,
        checkTqClock s 8 25,
        .within .pTseg1 (a.propSegment + a.seg1) 4 16,
        checkMbcnt s,
        checkRatio s ]
    result := { kind := 2#3, presc := s.presc, prop := a.propSegment, s1 := a.seg1, s2 := a.seg2, sjw := a.sjw } }

/-- RESOLVE_AUTO (R66, R59). -/
def execResolveAuto (s : State) : Host.Outcome State Fault Refusal :=
  blocking s (resolveFrame autoResolution)

/-! ### RESOLVE_FD (R67) -/

/-- The condition of W_PRESC_FD_CBT (R67). -/
def fdCbtMismatch (s : State) : Bool := s.fdEn && s.cbtEn && decide (s.presc ≠ s.xprescCbt)

/-- The condition of W_PRESC_FD_CLS (R67); it "does not also require FEAT.FD_EN". -/
def fdClassicMismatch (s : State) : Bool := s.brsEn && !s.cbtEn && decide (s.presc ≠ s.xprescClassic)

/-- The quantities, the three warnings and the eight checks of R67. -/
def fdResolution (s : State) : Resolution :=
  { tqClock := tqClockOf s
    tqUser := tqUserOf s
    warnings :=
      [ (tqMismatch s, .wTqFd),
        (fdCbtMismatch s, .wPrescFdCbt),
        (fdClassicMismatch s, .wPrescFdCls) ]
    checks :=
      [ checkPresc s,
        checkBaud s,
        checkTqClock s 5 48,
        checkTqUser s 5 48,
        checkProp s,
        checkSeg1 s,
        checkSeg2 s,
        checkSjw s ]
    result := userResult s 3#3 }

/-- RESOLVE_FD (R67, R59). -/
def execResolveFd (s : State) : Host.Outcome State Fault Refusal :=
  blocking s (resolveFrame fdResolution)

/-! ### RESOLVE_CBT (R68) -/

/-- The quantities, the warning and the nine checks of R68. -/
def cbtResolution (s : State) : Resolution :=
  { tqClock := tqClockOf s
    tqUser := tqUserOf s
    warnings := [(tqMismatch s, .wTqCbt)]
    checks :=
      [ checkPresc s,
        checkBaud s,
        checkTqClock s 8 129,
        .within .pTseg1 (tseg1Of s) 4 96,
        .within .pCbtSeg2 s.seg2 2 32,
        checkTqUser s 8 129,
        checkProp s,
        checkSeg1 s,
        checkSjw s ]
    result := userResult s 4#3 }

/-- RESOLVE_CBT (R68, R59). -/
def execResolveCbt (s : State) : Host.Outcome State Fault Refusal :=
  blocking s (resolveFrame cbtResolution)

end Sys2Proof.Machine
end

