-- ==== Sys2Proof/Machine/OrderFilter.lean ====
section
/-! DEFINITION. The ordering comparator and the RX-FIFO filter encoder (spec/43_order_filter.md): ORD_CMP, FLT_BEGIN,
FLT_ENC, FLT_END. -/

namespace Sys2Proof.Machine

/-! ### ORD_CMP (R120, R121) -/

/-- TYPE as a number: RECEIVE 0, TRANSMIT 1 (R120). -/
def Key.type (k : Key) : Nat := if k.transmit then 1 else 0

/-- `lt` of R121: lexicographic, "TYPE first, then CTRL, then MSGID, each as an unsigned number". -/
def Key.lt (a b : Key) : Bool :=
  decide (a.type < b.type)
    || (decide (a.type = b.type) && decide (a.ctrl.toNat < b.ctrl.toNat))
    || (decide (a.type = b.type) && decide (a.ctrl = b.ctrl) && decide (a.msgId.toNat < b.msgId.toNat))

/-- `eq` of R121. -/
def Key.eq (a b : Key) : Bool :=
  decide (a.type = b.type) && decide (a.ctrl = b.ctrl) && decide (a.msgId = b.msgId)

/-- `{ EQ = eq, LT = lt, LE = (lt or eq) }`: "bit 2 EQ, bit 1 LT, bit 0 LE" (R121). -/
def ordWord (a b : Key) : Word :=
  0#29 ++ BitVec.ofBool (Key.eq a b) ++ BitVec.ofBool (Key.lt a b) ++ BitVec.ofBool (Key.lt a b || Key.eq a b)

/-- The effect of R121. -/
def ordCmp (s : State) : State := s.set .ord (ordWord s.keyA s.keyB)

/-- ORD_CMP (R121). -/
def execOrdCmp (s : State) : Host.Outcome State Fault Refusal :=
  blocking s ordCmp

/-! ### FLT_BEGIN (R123) -/

/-- The effect of R123: `x[FLT_CNT] <- 0`. -/
def fltBegin (s : State) : State := s.set .fltCnt 0#32

/-- FLT_BEGIN (R123). -/
def execFltBegin (s : State) : Host.Outcome State Fault Refusal :=
  blocking s fltBegin

/-! ### FLT_ENC (R124 to R128, R130) -/

/-- "mask padded with the two top guard bits set" (R125, R126). -/
def guardBits : Word := 0xC0000000#32

/-- Mode A (R125, R126): the id shifted by 19 (standard) or by 1 (extended), "both then truncated to 32 bits". -/
def encA (id mask : Word) (ext : Bool) : Word × Word :=
  if ext then (id <<< 1, (mask <<< 1) ||| guardBits) else (id <<< 19, (mask <<< 19) ||| guardBits)

/-- Mode C (R128): "the encoding is the identity on the word, and likewise for the mask; EXT is ignored". -/
def encC (id mask : Word) : Word × Word := (id, mask)

/-- Mode D (R130): "id value forced to zero regardless of configuration"; the mask is passed through. -/
def encD (mask : Word) : Word × Word := (0#32, mask)

/-- The encoded pair `(io, mo)` of R124. Mode B is the open parameter `encB` of the instance (R127, log 6). -/
def encodeFilter (mode : AcceptMode) (id mask : Word) (ext : Bool) : Word × Word :=
  match mode with
  | .modeA => encA id mask ext
  | .modeB => Config.encB id mask ext
  | .modeC => encC id mask
  | .modeD => encD mask

/-- `x[FLT_CNT].CNT <- min(x[FLT_CNT].CNT + 1, 65535)` (R124) -/
def countEntry (s : State) : State :=
  s.set .fltCnt (setField (s.get .fltCnt) 0 (BitVec.ofNat 16 (min (s.fltCount + 1) 65535)))

/-- The effect of R124. -/
def fltEnc (s : State) : State :=
  let p := encodeFilter s.fltMode (s.get .fltId) (s.get .fltMask) s.fltExt
  countEntry ((s.set .fltIdOut p.1).set .fltMaskOut p.2)

/-- FLT_ENC (R124). -/
def execFltEnc (s : State) : Host.Outcome State Fault Refusal :=
  blocking s fltEnc

/-! ### FLT_END (R129) -/

/-- The effect of R129: on a mismatch the fatal error CountMismatch, "otherwise nothing at all changes". -/
def fltEnd (s : State) : State :=
  if s.fltCount = s.filterCount then s else raiseCountMismatch s s.fltCount s.filterCount

/-- FLT_END (R129). -/
def execFltEnd (s : State) : Host.Outcome State Fault Refusal :=
  blocking s fltEnd

end Sys2Proof.Machine
end

