-- ==== Sys2Proof/Machine/System.lean ====
section
/-! DEFINITION. "The complete set of commands that are not computations" (spec/60_exceptions.md R152): NOP and CLR. Both
are accepted while STATUS.FATAL = 1 (R147). -/

namespace Sys2Proof.Machine

/-- NOP (R149): "nothing"; the word it is has been stored in CMD by the write (spec/10_state.md R14). -/
def execNop (s : State) : Host.Outcome State Fault Refusal := .next s

/-- CLR (R148): "acknowledge ('return from') errors and warnings". -/
def execClr (s : State) : Host.Outcome State Fault Refusal := .next (clearErrors s)

end Sys2Proof.Machine
end

