-- ==== Sys2Proof/Machine/Dispatch.lean ====
section
/-! DEFINITION. One arm per command of spec/30_encoding.md R54, each a call of its meaning. -/

namespace Sys2Proof.Machine

def exec (i : Instr) (s : State) : Host.Outcome State Fault Refusal :=
  match i with
  | .nop => Sys2Proof.Machine.execNop s
  | .resolveClassic => Sys2Proof.Machine.execResolveClassic s
  | .resolveAuto => Sys2Proof.Machine.execResolveAuto s
  | .resolveFd => Sys2Proof.Machine.execResolveFd s
  | .resolveCbt => Sys2Proof.Machine.execResolveCbt s
  | .allocBegin keepmax => Sys2Proof.Machine.execAllocBegin keepmax s
  | .allocNext => Sys2Proof.Machine.execAllocNext s
  | .allocEnd => Sys2Proof.Machine.execAllocEnd s
  | .mapIndex => Sys2Proof.Machine.execMapIndex s
  | .ordCmp => Sys2Proof.Machine.execOrdCmp s
  | .fltBegin => Sys2Proof.Machine.execFltBegin s
  | .fltEnc => Sys2Proof.Machine.execFltEnc s
  | .fltEnd => Sys2Proof.Machine.execFltEnd s
  | .clr => Sys2Proof.Machine.execClr s

end Sys2Proof.Machine
end

