-- ==== Sys2Proof/Machine/Bus.lean ====
section
/-! DEFINITION. One bus transaction, complete with the command a write to CMD starts (spec/20_memory.md R42, R43, R46, R49;
spec/10_state.md R14). This is how the CCRU gets its commands: it has no program counter and fetches nothing (R13, R51). -/

namespace Sys2Proof.Machine

/-- The command the word `w` encodes, executed; an illegal word is refused (R55, R146). -/
def runCommand (w : Word) (s : State) : Host.Outcome State Fault Refusal :=
  match decode w with
  | .ok i => exec i s
  | .error _ => .next (refuse s)

/-- `MemWrite` at a legal offset (R43): "at CMD it additionally executes the command", after the word is stored (R14). -/
def writeWord (addr : Nat) (v : Word) (s : State) : Host.Outcome State Fault Refusal :=
  if addr = Reg.offset .cmd then runCommand v (windowWrite s addr v) else .next (windowWrite s addr v)

/-- The port's answer, in the state the transaction leaves (log 2). -/
def State.answer (s : State) (r : Reply) : State := { s with reply := r }

/-- A next state with the port's answer in it; a stop stays a stop. -/
def answerNext (o : Host.Outcome State Fault Refusal) (r : Reply) : Host.Outcome State Fault Refusal :=
  match o with
  | .next s => .next (s.answer r)
  | .fault f => .fault f
  | .refused e => .refused e

/-- One input of the CCRU, taken whole (R49). A bus error is answered to the host: "a read returns no data to rely on, a
write changes nothing, no command executes, no STATUS flag changes" (R46, log 3). -/
def busCycle (e : HostEvent) (s : State) : Host.Outcome State Fault Refusal :=
  match e with
  | .reset => .next (hardReset s)
  | .read addr n =>
    match memRead s addr n with
    | .ok w => .next (s.answer (.data w))
    | .error f => .next (s.answer (.fault f))
  | .write addr n v =>
    match checkAccess addr n with
    | .ok _ => answerNext (writeWord addr v s) .ack
    | .error f => .next (s.answer (.fault f))

/-- The state once its next input has been taken off the list. -/
def State.withPending (s : State) (es : List HostEvent) : State := { s with pending := es }

/-- One step: the next input; without one nothing changes, since "no register changes except by a host write or as an
effect of a command the host started" (R49) (log 1). -/
def machineStep (s : State) : Host.Outcome State Fault Refusal :=
  match s.pending with
  | [] => .next (s.answer .idle)
  | e :: es => busCycle e (s.withPending es)

end Sys2Proof.Machine
end

