-- ==== Sys2Proof/Machine/Step.lean ====
section
/-! DEFINITION. The step, and a state whose next step runs a given command word. -/

namespace Sys2Proof.Machine

/-- One step of the machine: the host's next transaction, complete (spec/20_memory.md R49). -/
def step (s : State) : Host.Outcome State Fault Refusal := machineStep s

/-- `s` with the write of the word to CMD as the host's next transaction (spec/30_encoding.md R57: "a command: WR CMD,
<match value of rule R54>"), so that the very next step executes it. The CCRU fetches nothing (R13): a program is the
host's writes to CMD (log 1). -/
def State.withFetchWord (s : State) (nbits w : Nat) : State :=
  { s with pending := .write (Reg.offset .cmd) 4 (tableWord nbits w) :: s.pending }

end Sys2Proof.Machine
end

