-- ==== Sys2Proof/Machine/Assembly.lean ====
section
/-! DEFINITION. The notation of host programs (spec/30_encoding.md R57) and its pseudo-instructions (R58): one line is a
list of bus transactions. "A 'program' is the sequence of bus transactions the host issues" (spec/10_state.md R13). -/

namespace Sys2Proof.Machine

/-- A line of a host program (R57, R58). -/
inductive AsmLine where
  /-- `WR <REG>, <value>` -/
  | wr (r : Reg) (value : Word)
  /-- `RD <REG>` -/
  | rd (r : Reg)
  /-- `<MNEMONIC>`, and `ALLOC_BEGIN KEEPMAX` -/
  | command (i : Instr)
  | ldrate (baud presc : BitVec 16)
  | ldsegs (prop seg1 seg2 sjw : BitVec 8)
  | ldphys (lenM delayNs : BitVec 16)
  | ldxpresc (classic cbt : BitVec 16)
  | ldtctl (mbcnt : BitVec 8) (clksrc : BitVec 1)
  | ldacfg (gpl rpl0 rpl1 rpl2 : BitVec 2) (ctrl filters : BitVec 8)
  | ldalim (memSize : BitVec 16) (hwMax : BitVec 8)
  | ldkeya (type : BitVec 1) (ctrl : BitVec 8) (msgid : Word)
  | ldkeyb (type : BitVec 1) (ctrl : BitVec 8) (msgid : Word)
  /-- `ALLOC_OBJ n`: "the expansion of one hardware object into n physical slots" -/
  | allocObj (n : Nat)
deriving DecidableEq, Repr

/-- A field list `FIELD=value, …` of R57: each value placed "at its bit position with all other bits 0"; an entry is the
field's lowest bit and its value. -/
def fieldList (fields : List (Nat × Word)) : Word :=
  fields.foldl (fun w f => w ||| (f.2 <<< f.1)) 0#32

/-- `v << lo`, a field of a word the pseudo-instructions of R58 build. -/
def placed {n : Nat} (v : BitVec n) (lo : Nat) : Word := v.setWidth 32 <<< lo

/-- `WR <REG>, <value>` = `MemWrite(offset(REG), 4, value)` (R57). -/
def wrEvent (r : Reg) (value : Word) : HostEvent := .write r.offset 4 value

/-- `RD <REG>` = `MemRead(offset(REG), 4)` (R57). -/
def rdEvent (r : Reg) : HostEvent := .read r.offset 4

/-- `<MNEMONIC>` = `WR CMD, <match value of rule R54>` (R57). -/
def commandEvent (i : Instr) : HostEvent := wrEvent .cmd (encode i)

/-- The transactions of a line (R57, R58). -/
def AsmLine.expand (l : AsmLine) : List HostEvent :=
  match l with
  | .wr r value => [wrEvent r value]
  | .rd r => [rdEvent r]
  | .command i => [commandEvent i]
  | .ldrate baud presc => [wrEvent .rate (placed presc 16 ||| placed baud 0)]
  | .ldsegs prop seg1 seg2 sjw =>
    [wrEvent .segs (placed sjw 24 ||| placed seg2 16 ||| placed seg1 8 ||| placed prop 0)]
  | .ldphys lenM delayNs => [wrEvent .phys (placed delayNs 16 ||| placed lenM 0)]
  | .ldxpresc classic cbt => [wrEvent .xpresc (placed cbt 16 ||| placed classic 0)]
  | .ldtctl mbcnt clksrc => [wrEvent .tctl (placed clksrc 8 ||| placed mbcnt 0)]
  | .ldacfg gpl rpl0 rpl1 rpl2 ctrl filters =>
    [wrEvent .acfg (placed filters 16 ||| placed ctrl 8 ||| placed rpl2 6 ||| placed rpl1 4 ||| placed rpl0 2
      ||| placed gpl 0)]
  | .ldalim memSize hwMax => [wrEvent .alim (placed hwMax 16 ||| placed memSize 0)]
  | .ldkeya type ctrl msgid => [wrEvent .keyaTc (placed ctrl 8 ||| placed type 0), wrEvent .keyaId msgid]
  | .ldkeyb type ctrl msgid => [wrEvent .keybTc (placed ctrl 8 ||| placed type 0), wrEvent .keybId msgid]
  | .allocObj n => (List.replicate n [commandEvent .allocNext, rdEvent .aaddr, rdEvent .aidx]).flatten

/-- The transactions of a program, line by line. -/
def assemble (program : List AsmLine) : List HostEvent := program.flatMap AsmLine.expand

end Sys2Proof.Machine
end

