-- ==== Sys2Proof/Safety.lean ====
section
/-! DEFINITION. The terms the claims are stated in: what a command leaves unchanged, several commands in a row, and the
invariant of the register window. -/

namespace Sys2Proof

open Sys2Proof.Machine

/-- Every register outside `rs` reads as before, and so do the parameters, the input still to come and the last answer. -/
def Unchanged (rs : List Reg) (s t : State) : Prop :=
  (∀ r, r ∉ rs → t.get r = s.get r) ∧ t.cfg = s.cfg ∧ t.pending = s.pending ∧ t.reply = s.reply

/-- The commands of a list one after another; a stop ends the run. -/
def execAll : List Instr → State → Host.Outcome State Fault Refusal
  | [], s => .next s
  | i :: is, s =>
    match exec i s with
    | .next t => execAll is t
    | .fault f => .fault f
    | .refused e => .refused e

/-- ALLOC_BEGIN and then `n` times ALLOC_NEXT: a pass of spec/42_mailbox_alloc.md R76 up to its `n`-th slot. -/
def passOf (keepmax : Bool) (n : Nat) : List Instr := .allocBegin keepmax :: List.replicate n .allocNext

/-! ### The table of R56 -/

/-- The registers a command reads (spec/30_encoding.md R56, column "Reads"); KEEPMAX is in the command itself. -/
def commandReads (i : Instr) : List Reg :=
  match i with
  | .nop | .clr | .fltBegin | .allocBegin _ => []
  | .resolveClassic => [.clkHz, .rate, .segs, .tctl]
  | .resolveAuto => [.clkHz, .rate, .phys, .tctl]
  | .resolveFd => [.clkHz, .rate, .segs, .tctl, .xpresc, .feat]
  | .resolveCbt => [.clkHz, .rate, .segs, .tctl]
  | .allocNext => [.feat, .acfg, .alim, .astat, .acur, .amax]
  | .allocEnd => [.astat]
  | .mapIndex => [.mapin, .feat, .acfg]
  | .ordCmp => [.keyaTc, .keyaId, .keybTc, .keybId]
  | .fltEnc => [.fltcfg, .fltId, .fltMask]
  | .fltEnd => [.fltCnt, .acfg]

/-- The registers a command writes beside STATUS (R56, column "Writes"). -/
def commandWrites (i : Instr) : List Reg :=
  match i with
  | .nop => []
  | .resolveClassic | .resolveAuto | .resolveFd | .resolveCbt =>
    [.errCode, .errValue, .errLo, .errHi, .tqClock, .tqUser, .res0, .res1]
  | .allocBegin _ => [.astat, .acur, .aaddr, .aidx, .amax]
  | .allocNext => [.aaddr, .aidx, .astat, .acur, .amax, .errCode, .errValue, .errLo, .errHi]
  | .allocEnd => [.astat]
  | .mapIndex => [.mapout]
  | .ordCmp => [.ord]
  | .fltBegin => [.fltCnt]
  | .fltEnc => [.fltIdOut, .fltMaskOut, .fltCnt]
  | .fltEnd => [.errCode, .errValue, .errLo, .errHi]
  | .clr => [.errCode, .errValue, .errLo, .errHi]

/-- The bits of STATUS a command may change: those R56 lists for it, and CMDERR (bit 2) for every command that is refused
while FATAL = 1. CLR writes all of STATUS (R148). -/
def commandStatusBits (i : Instr) : List Nat :=
  match i with
  | .nop => []
  | .resolveClassic => [0, 1, 2, 8]
  | .resolveAuto => [0, 1, 2]
  | .resolveFd => [0, 1, 2, 9, 11, 12]
  | .resolveCbt => [0, 1, 2, 10]
  | .allocBegin _ => [2, 3]
  | .allocNext => [1, 2, 3]
  | .allocEnd | .mapIndex | .ordCmp | .fltBegin | .fltEnc => [2]
  | .fltEnd => [1, 2]
  | .clr => List.range 32

/-! ### The outcomes of a resolver command (spec/41_bit_timing.md R59) -/

/-- The registers a resolver command writes when it succeeds. -/
def timingResultRegs : List Reg := [.status, .tqClock, .tqUser, .res0, .res1]

/-- The registers a resolver command writes when a check fails. -/
def timingErrorRegs : List Reg :=
  [.status, .tqClock, .tqUser, .res0, .res1, .errCode, .errValue, .errLo, .errHi]

/-- The command `i` succeeds at `s` (R59 steps 1 to 4 and 6, R65): the two counts, RES0 and RES1 with the minus-one
mapping, VALID set, the warning bits `warn` added to STATUS, every other STATUS bit and every other register kept. -/
def ResolvesTo (i : Instr) (s : State) (kind presc prop seg1 seg2 sjw tqClock tqUser : Nat) (warn : Word) : Prop :=
  ∃ t, exec i s = .next t ∧
    t.get .res0 = BitVec.ofNat 32 (kind * 2 ^ 24 + (if s.clkSrc then 2 ^ 16 else 0) + (presc - 1)) ∧
    t.get .res1 = BitVec.ofNat 32 ((sjw - 1) * 2 ^ 24 + (seg2 - 1) * 2 ^ 16 + (seg1 - 1) * 2 ^ 8 + (prop - 1)) ∧
    t.get .tqClock = BitVec.ofNat 32 tqClock ∧
    t.get .tqUser = BitVec.ofNat 32 tqUser ∧
    t.get .status = s.get .status ||| 1#32 ||| warn ∧
    Unchanged timingResultRegs s t

/-- One row of a rule's list of checks: whether it passes, the parameter code of spec/60_exceptions.md R142, the value and
the two bounds its record reports. -/
abbrev CheckRow := Bool × Nat × Int × Nat × Nat

/-- The command `i` at `s` reports the first failing row of `rows` as the fatal error OutOfRange (R59 step 5, R143, R144):
FATAL set, VALID cleared, the record written, RES0 and RES1 zero, the two counts written, the warning bits added. -/
def ReportsFirstFailure (i : Instr) (s : State) (rows : List CheckRow) (tqClock tqUser : Nat) (warn : Word) : Prop :=
  ∀ (k param : Nat) (value : Int) (lo hi : Nat),
    rows[k]? = some (false, param, value, lo, hi) → ((rows.take k).all fun row => row.1) = true →
    ∃ t, exec i s = .next t ∧
      t.get .errCode = BitVec.ofNat 32 (1 * 2 ^ 8 + param) ∧
      t.get .errValue = BitVec.ofInt 32 value ∧
      t.get .errLo = BitVec.ofNat 32 lo ∧
      t.get .errHi = BitVec.ofNat 32 hi ∧
      t.get .res0 = 0#32 ∧ t.get .res1 = 0#32 ∧
      t.get .tqClock = BitVec.ofNat 32 tqClock ∧
      t.get .tqUser = BitVec.ofNat 32 tqUser ∧
      t.get .status = (s.get .status &&& ~~~1#32) ||| 2#32 ||| warn ∧
      Unchanged timingErrorRegs s t

/-! ### The invariant -/

/-- "A reserved field inside an RW register … reads 0. A 'zero' field of an RO register always reads 0" (R41). -/
def ReservedZero (s : State) : Prop := ∀ r : Reg, s.get r &&& ~~~r.fields = 0#32

/-- ERR_CODE.CLASS (R16). -/
def errClass (s : State) : BitVec 3 := field (s.get .errCode) 8 3

/-- The error record describes the fatal error that is latched, or is empty (R16, R141, R148): while FATAL = 1 its class is
one a command raises, and while FATAL = 0 all of it is 0. -/
def ErrorRecordOk (s : State) : Prop :=
  (s.flag .fatal = true → errClass s = 1#3 ∨ errClass s = 3#3 ∨ errClass s = 5#3) ∧
  (s.flag .fatal = false →
    s.get .errCode = 0#32 ∧ s.get .errValue = 0#32 ∧ s.get .errLo = 0#32 ∧ s.get .errHi = 0#32)

/-- A result marked valid was produced by one of the four resolver commands (R15, R26: KIND 1 to 4). -/
def TimingResultOk (s : State) : Prop :=
  s.flag .valid = true → 1 ≤ (field (s.get .res0) 24 3).toNat ∧ (field (s.get .res0) 24 3).toNat ≤ 4

/-- A slot marked valid has one of the four payload lengths, and its index is below the running maximum that counts it
(R15, R32, R35). -/
def SlotOk (s : State) : Prop :=
  s.flag .avalid = true →
    ((field (s.get .aidx) 16 8).toNat = 8 ∨ (field (s.get .aidx) 16 8).toNat = 16 ∨
      (field (s.get .aidx) 16 8).toNat = 32 ∨ (field (s.get .aidx) 16 8).toNat = 64) ∧
    (field (s.get .aidx) 0 16).toNat < s.maxMb

/-- While a pass is open the cursor lies in the address range MEM_SIZE can span, A_STATE tells whether it is on a region
boundary (R76), and until the first slot is assigned it is `MB_BASE` with FIRST_USER 0 (R33, R34). -/
def PassOk (s : State) : Prop :=
  s.aState.isOpen = true →
    s.cfg.mbBase ≤ s.cursor ∧ s.cursor ≤ s.cfg.mbBase + 65535 ∧
    (s.aState = .atRegionStart ↔ (s.cursor - s.cfg.mbBase) % s.cfg.regionSize = 0) ∧
    (s.first = true → s.cursor = s.cfg.mbBase ∧ (field (s.get .astat) 8 8).toNat = 0)

/-- "The possible ORD values are 0 (A > B), 3 (A < B) and 5 (A = B); no other value occurs" (R121). -/
def OrdOk (s : State) : Prop := s.get .ord = 0#32 ∨ s.get .ord = 3#32 ∨ s.get .ord = 5#32

/-- The invariant of the window: what every reachable state of an instance with legal parameters has. -/
structure WindowInv (s : State) : Prop where
  parameters : s.cfg.wf = true
  reserved : ReservedZero s
  errors : ErrorRecordOk s
  timing : TimingResultOk s
  slot : SlotOk s
  pass : PassOk s
  ordering : OrdOk s

/-- While a pass is open the cursor stands at a multiple of its region's slot length (R88: "in region r slots start at
rstart(r) + j*need(r)"), its index, the number of slot starts before it, is at most AMAX (R79, R85), and a slot marked valid
is the one just before it. -/
def SlotGridOk (s : State) : Prop :=
  s.aState.isOpen = true →
    need s.allocEnv (region s.allocEnv s.cursor) ∣ off s.allocEnv s.cursor % s.cfg.regionSize ∧
    index s.allocEnv s.cursor ≤ s.maxMb ∧
    (s.flag .avalid = true → (field (s.get .aidx) 0 16).toNat + 1 = index s.allocEnv s.cursor)

end Sys2Proof
end

