-- ==== Sys2Proof/Certificates/Slice0/Obligations.lean ====
section
/-! DEFINITION. The statements for the provers: what the commands and the port of the CCRU do, from the numbered rules of
spec/. Each is a proposition over the model's own functions; the numbers in them are the rules' own. -/

open Sys2Proof Sys2Proof.Machine

/-! ### Encoding -/

/-- R54, R55: a word has at most one meaning and a command at most one word: `decode` and `encode` are inverse to each
other, on every word and with KEEPMAX at both its values. -/
def Obligations.DecodeEncodeAgree : Prop :=
  ∀ (w : Word) (i : Instr), decode w = .ok i ↔ encode i = w

/-- R54: "The decoder is total: every 32-bit word is exactly one of these fourteen commands or illegal"; the rows are those
of the rule's table (mnemonic, match, mask). -/
def Obligations.DecoderFollowsOpcodeMap : Prop :=
  let rows : List (String × Word × Word) :=
    [ ("NOP", 0x00000000#32, 0xFFFFFFFF#32), ("RESOLVE_CLASSIC", 0x00000001#32, 0xFFFFFFFF#32),
      ("RESOLVE_AUTO", 0x00000002#32, 0xFFFFFFFF#32), ("RESOLVE_FD", 0x00000003#32, 0xFFFFFFFF#32),
      ("RESOLVE_CBT", 0x00000004#32, 0xFFFFFFFF#32), ("ALLOC_BEGIN", 0x00000010#32, 0xFFFFFEFF#32),
      ("ALLOC_NEXT", 0x00000011#32, 0xFFFFFFFF#32), ("ALLOC_END", 0x00000012#32, 0xFFFFFFFF#32),
      ("MAP_INDEX", 0x00000013#32, 0xFFFFFFFF#32), ("ORD_CMP", 0x00000020#32, 0xFFFFFFFF#32),
      ("FLT_BEGIN", 0x00000030#32, 0xFFFFFFFF#32), ("FLT_ENC", 0x00000031#32, 0xFFFFFFFF#32),
      ("FLT_END", 0x00000032#32, 0xFFFFFFFF#32), ("CLR", 0x0000007F#32, 0xFFFFFFFF#32) ]
  ∀ w : Word,
    (∀ i, decode w = .ok i → ∃ row ∈ rows, row.1 = i.mnemonic ∧ w &&& row.2.2 = row.2.1) ∧
    (∀ row ∈ rows, w &&& row.2.2 = row.2.1 → ∃ i, decode w = .ok i ∧ i.mnemonic = row.1)

/-- R55: which words are illegal, and that writing one to CMD stores it, sets CMDERR and "changes nothing else". -/
def Obligations.IllegalWordOnlySetsCmderr : Prop :=
  ∀ w : Word,
    ((∃ e, decode w = .error e) ↔
      (w.extractLsb' 0 8 ∉ [0x00#8, 0x01#8, 0x02#8, 0x03#8, 0x04#8, 0x10#8, 0x11#8, 0x12#8, 0x13#8, 0x20#8, 0x30#8,
          0x31#8, 0x32#8, 0x7F#8] ∨
        w.extractLsb' 9 23 ≠ 0#23 ∨ (w.getLsbD 8 = true ∧ w.extractLsb' 0 8 ≠ 0x10#8))) ∧
    (∀ (s : State) (es : List HostEvent), (∃ e, decode w = .error e) → s.pending = .write 0x00 4 w :: es →
      ∃ t, step s = .next t ∧ t.get .cmd = w ∧ t.get .status = s.get .status ||| 4#32 ∧
        (∀ r, r ≠ .cmd → r ≠ .status → t.get r = s.get r) ∧ t.cfg = s.cfg ∧ t.pending = es ∧ t.reply = .ack)

/-- R54: words written out from the table decode to their commands, and neighbours of them, illegal by R55, to none. The
two reasons named in the last clauses are the model's choice (log 14): R55 has one kind of illegal word. -/
def Obligations.SampleWordsDecode : Prop :=
  decode 0x00000001#32 = .ok .resolveClassic ∧ decode 0x00000110#32 = .ok (.allocBegin true) ∧
  decode 0x00000010#32 = .ok (.allocBegin false) ∧ decode 0x00000020#32 = .ok .ordCmp ∧
  decode 0x00000031#32 = .ok .fltEnc ∧ decode 0x0000007F#32 = .ok .clr ∧
  decode 0x00000111#32 = .error .modifierNotAllowed ∧ decode 0x00000210#32 = .error .reservedBitsSet

/-! ### The port -/

/-- R14: "A host write of word `w` first stores `w` in CMD, then executes the command `w` encodes". A step whose next input
is a write of a legal word to CMD is `exec` of the decoded command at the state with the input taken and the word in CMD;
all that the step adds is the answer to the host. -/
def Obligations.StepRunsDecodedCommand : Prop :=
  ∀ (s : State) (es : List HostEvent) (w : Word) (i : Instr),
    s.pending = .write 0x00 4 w :: es → decode w = .ok i → i.wf = true →
    step s = answerNext (exec i ((s.withPending es).set .cmd w)) .ack

/-- R46: an access that is not 32 bits wide, not aligned or outside the window is answered with a bus error and changes
no register; it executes no command and sets no flag. -/
def Obligations.IllegalAccessChangesNothing : Prop :=
  ∀ (s : State) (es : List HostEvent) (addr n : Nat) (v : Word),
    (n ≠ 4 ∨ addr % 4 ≠ 0 ∨ 0xFF < addr) →
    (s.pending = .read addr n :: es ∨ s.pending = .write addr n v :: es) →
    ∃ t, step s = .next t ∧ t.reply = .fault (.busError addr n) ∧ (∀ r, t.get r = s.get r) ∧ t.cfg = s.cfg ∧
      t.pending = es

/-- R42: a legal read "returns the 32-bit value of the register at that offset … or 0 for a reserved offset" and "changes
no state of the CCRU, at any offset"; any other read returns no data. -/
def Obligations.ReadReturnsRegister : Prop :=
  ∀ (s : State) (es : List HostEvent) (addr n : Nat), s.pending = .read addr n :: es →
    ∃ t, step s = .next t ∧ (∀ r, t.get r = s.get r) ∧ t.cfg = s.cfg ∧ t.pending = es ∧
      (n = 4 ∧ addr % 4 = 0 ∧ addr ≤ 0xFC →
        (∀ r : Reg, r.offset = addr → t.reply = .data (s.get r)) ∧
        ((∀ r : Reg, r.offset ≠ addr) → t.reply = .data 0#32)) ∧
      (¬(n = 4 ∧ addr % 4 = 0 ∧ addr ≤ 0xFC) → t.reply = .fault (.busError addr n))

/-- R43, but for CMD (whose write executes): a legal write "replaces the writable fields with the corresponding bits of
`v` (reserved fields ignore the write)"; "at an RO register or reserved offset it does nothing". -/
def Obligations.WriteReplacesWritableFields : Prop :=
  ∀ (s : State) (es : List HostEvent) (addr : Nat) (v : Word),
    addr % 4 = 0 → addr ≤ 0xFC → addr ≠ 0x00 → s.pending = .write addr 4 v :: es →
    ∃ t, step s = .next t ∧ t.reply = .ack ∧ t.pending = es ∧ t.cfg = s.cfg ∧
      ∀ (r : Reg) (k : Nat), k < 32 →
        (t.get r).getLsbD k =
          if r.offset = addr ∧ r.writable = true ∧ r.fields.getLsbD k = true then v.getLsbD k
          else (s.get r).getLsbD k

/-- R11, R14 to R41: each register stands at its offset with its access, and its fields are the bits of its mask, written
out from its rule (CMD holds any word written, R14); every other offset reads 0. A write replaces the bits of the mask in a
register the host may write, and nothing in another. -/
def Obligations.RegisterMapOffsets : Prop :=
  let rows : List (Reg × Nat × Bool × Word) :=
    [ (.cmd, 0x00, true, 0xFFFFFFFF#32), (.status, 0x04, false, 0x00001F0F#32),
      (.errCode, 0x08, false, 0x00FF07FF#32), (.errValue, 0x0C, false, 0xFFFFFFFF#32),
      (.errLo, 0x10, false, 0xFFFFFFFF#32), (.errHi, 0x14, false, 0xFFFFFFFF#32), (.feat, 0x18, true, 0x0000001F#32),
      (.clkHz, 0x20, true, 0xFFFFFFFF#32), (.rate, 0x24, true, 0xFFFFFFFF#32), (.segs, 0x28, true, 0xFFFFFFFF#32),
      (.phys, 0x2C, true, 0xFFFFFFFF#32), (.xpresc, 0x30, true, 0xFFFFFFFF#32), (.tctl, 0x34, true, 0x000001FF#32),
      (.tqClock, 0x38, false, 0xFFFFFFFF#32), (.tqUser, 0x3C, false, 0xFFFFFFFF#32),
      (.res0, 0x40, false, 0x0701FFFF#32), (.res1, 0x44, false, 0xFFFFFFFF#32), (.acfg, 0x50, true, 0x00FFFFFF#32),
      (.alim, 0x54, true, 0x00FFFFFF#32), (.mapin, 0x58, true, 0x0001FFFF#32), (.aaddr, 0x60, false, 0xFFFFFFFF#32),
      (.aidx, 0x64, false, 0x00FFFFFF#32), (.astat, 0x68, false, 0x0000FF07#32), (.acur, 0x6C, false, 0xFFFFFFFF#32),
      (.amax, 0x70, false, 0x0000FFFF#32), (.mapout, 0x74, false, 0x80FFFFFF#32),
      (.keyaTc, 0x80, true, 0x0000FF01#32), (.keyaId, 0x84, true, 0xFFFFFFFF#32),
      (.keybTc, 0x88, true, 0x0000FF01#32), (.keybId, 0x8C, true, 0xFFFFFFFF#32), (.ord, 0x90, false, 0x00000007#32),
      (.fltcfg, 0xA0, true, 0x00000007#32), (.fltId, 0xA4, true, 0xFFFFFFFF#32),
      (.fltMask, 0xA8, true, 0xFFFFFFFF#32), (.fltIdOut, 0xAC, false, 0xFFFFFFFF#32),
      (.fltMaskOut, 0xB0, false, 0xFFFFFFFF#32), (.fltCnt, 0xB4, false, 0x0000FFFF#32) ]
  (∀ r : Reg, (r, r.offset, r.writable, r.fields) ∈ rows) ∧
  (∀ (s : State) (row : Reg × Nat × Bool × Word), row ∈ rows → windowWord s row.2.1 = s.get row.1) ∧
  (∀ (s : State) (v : Word) (row : Reg × Nat × Bool × Word), row ∈ rows →
    windowWord (windowWrite s row.2.1 v) row.2.1 =
      if row.2.2.1 then (s.get row.1 &&& ~~~row.2.2.2) ||| (v &&& row.2.2.2) else s.get row.1) ∧
  (∀ (s : State) (addr : Nat), addr ∉ rows.map (fun row => row.2.1) → windowWord s addr = 0#32)

/-- R47: "Writes to RW registers other than CMD are idempotent (writing the same value twice equals writing it once)"; at
RO and reserved offsets too. -/
def Obligations.OperandWritesIdempotent : Prop :=
  ∀ (s : State) (addr : Nat) (v : Word), windowWrite (windowWrite s addr v) addr v = windowWrite s addr v

/-- R58: the pseudo-instructions that load operands leave exactly the named fields in the operand registers, a key loader
after its two transactions (R37) and with no other register changed; and ALLOC_OBJ n is n times ALLOC_NEXT, RD AADDR,
RD AIDX. -/
def Obligations.PseudoInstructionsLoadOperands : Prop :=
  (∀ (s : State) (baud presc : BitVec 16), ∃ t,
    step (s.withPending (AsmLine.ldrate baud presc).expand) = .next t ∧ t.baud = baud.toNat ∧ t.presc = presc.toNat) ∧
  (∀ (s : State) (prop seg1 seg2 sjw : BitVec 8), ∃ t,
    step (s.withPending (AsmLine.ldsegs prop seg1 seg2 sjw).expand) = .next t ∧
      t.propSeg = prop.toNat ∧ t.seg1 = seg1.toNat ∧ t.seg2 = seg2.toNat ∧ t.sjw = sjw.toNat) ∧
  (∀ (s : State) (lenM delayNs : BitVec 16), ∃ t,
    step (s.withPending (AsmLine.ldphys lenM delayNs).expand) = .next t ∧
      t.busLen = lenM.toNat ∧ t.xcvrNs = delayNs.toNat) ∧
  (∀ (s : State) (classic cbt : BitVec 16), ∃ t,
    step (s.withPending (AsmLine.ldxpresc classic cbt).expand) = .next t ∧
      t.xprescClassic = classic.toNat ∧ t.xprescCbt = cbt.toNat) ∧
  (∀ (s : State) (mbcnt : BitVec 8) (clksrc : BitVec 1), ∃ t,
    step (s.withPending (AsmLine.ldtctl mbcnt clksrc).expand) = .next t ∧
      t.mbCnt = mbcnt.toNat ∧ t.clkSrc = clksrc.getLsbD 0) ∧
  (∀ (s : State) (gpl rpl0 rpl1 rpl2 : BitVec 2) (ctrl filters : BitVec 8), ∃ t,
    step (s.withPending (AsmLine.ldacfg gpl rpl0 rpl1 rpl2 ctrl filters).expand) = .next t ∧
      t.gpl = gpl ∧ t.rpl0 = rpl0 ∧ t.rpl1 = rpl1 ∧ t.rpl2 = rpl2 ∧ t.ctrlId = ctrl ∧
      t.filterCount = filters.toNat) ∧
  (∀ (s : State) (memSize : BitVec 16) (hwMax : BitVec 8), ∃ t,
    step (s.withPending (AsmLine.ldalim memSize hwMax).expand) = .next t ∧
      t.memSize = memSize.toNat ∧ t.hwMaxMb = hwMax.toNat) ∧
  (∀ (s : State) (type : BitVec 1) (ctrl : BitVec 8) (msgid : Word), ∃ t u,
    step (s.withPending (AsmLine.ldkeya type ctrl msgid).expand) = .next t ∧ step t = .next u ∧ u.pending = [] ∧
      u.keyA = { transmit := type.getLsbD 0, ctrl := ctrl, msgId := msgid } ∧
      ∀ r, r ≠ .keyaTc → r ≠ .keyaId → u.get r = s.get r) ∧
  (∀ (s : State) (type : BitVec 1) (ctrl : BitVec 8) (msgid : Word), ∃ t u,
    step (s.withPending (AsmLine.ldkeyb type ctrl msgid).expand) = .next t ∧ step t = .next u ∧ u.pending = [] ∧
      u.keyB = { transmit := type.getLsbD 0, ctrl := ctrl, msgId := msgid } ∧
      ∀ r, r ≠ .keybTc → r ≠ .keybId → u.get r = s.get r) ∧
  (∀ n : Nat, (AsmLine.allocObj n).expand.length = 3 * n ∧
    ∀ k < n, (AsmLine.allocObj n).expand[3 * k]? = some (.write 0x00 4 0x00000011#32) ∧
      (AsmLine.allocObj n).expand[3 * k + 1]? = some (.read 0x60 4) ∧
      (AsmLine.allocObj n).expand[3 * k + 2]? = some (.read 0x64 4))

/-- R49 (c): "no register changes except by a host write or as an effect of a command the host started": a step whose
next input is neither a 4-byte write nor RESET (no input at all, a read, an access of another width) leaves every
register. -/
def Obligations.RegistersChangeOnlyByWrites : Prop :=
  ∀ s : State, (¬∃ es addr v, s.pending = .write addr 4 v :: es) → (¬∃ es, s.pending = .reset :: es) →
    ∃ t, step s = .next t ∧ (∀ r, t.get r = s.get r) ∧ t.cfg = s.cfg ∧ t.pending = s.pending.tail

/-- Every step ends in a next state and leaves the parameters, which are "never changed by any command" (R12): every command
completes (R9, R143, R146) and so does an illegal word (R55). The rest is the model's choice: that an illegal access ends in
a next state too (log 3; R46 lets a model treat it as a fault), that a step without input completes and that a step takes
exactly one input (log 1), and that RESET is such an input (log 7). -/
def Obligations.EveryStepCompletes : Prop :=
  ∀ s : State, ∃ t, step s = .next t ∧ t.cfg = s.cfg ∧ t.pending = s.pending.tail

/-! ### Reset -/

/-- R161: "Every register … resets to 0x00000000, with one exception: ASTAT resets to 0x00000003";
reserved offsets read 0. -/
def Obligations.ResetValues : Prop :=
  (∀ r : Reg, windowWord State.reset r.offset = if r = .astat then 0x00000003#32 else 0x00000000#32) ∧
  ∀ addr : Nat, (∀ r : Reg, r.offset ≠ addr) → windowWord State.reset addr = 0#32

/-- R160, R161: releasing RESET leaves every register at its reset value and the parameters unaffected, whatever the state
before. That RESET is an event between two transactions is the model's (log 7). -/
def Obligations.ResetPinRestoresResetValues : Prop :=
  ∀ (s : State) (es : List HostEvent), s.pending = .reset :: es →
    ∃ t, step s = .next t ∧ (∀ r : Reg, t.get r = if r = .astat then 0x00000003#32 else 0x00000000#32) ∧
      t.cfg = s.cfg ∧ t.pending = es

/-! ### NOP, CLR, refusal, blocking, flags -/

/-- R149: "The only effect is that CMD holds 0", in every state. -/
def Obligations.NopOnlyStoresWord : Prop :=
  encode .nop = 0x00000000#32 ∧
  ∀ s : State, exec .nop s = .next s ∧
    ∀ es, s.pending = .write 0x00 4 0x00000000#32 :: es →
      ∃ t, step s = .next t ∧ t.get .cmd = 0#32 ∧ (∀ r, r ≠ .cmd → t.get r = s.get r) ∧ t.cfg = s.cfg ∧
        t.pending = es ∧ t.reply = .ack

/-- R148: CLR clears STATUS and the four ERR registers, in every state, and changes nothing else. -/
def Obligations.ClrAcknowledgesErrors : Prop :=
  encode .clr = 0x0000007F#32 ∧
  ∀ s : State, ∃ t, exec .clr s = .next t ∧ t.get .status = 0#32 ∧ t.get .errCode = 0#32 ∧ t.get .errValue = 0#32 ∧
    t.get .errLo = 0#32 ∧ t.get .errHi = 0#32 ∧ Unchanged [.status, .errCode, .errValue, .errLo, .errHi] s t

/-- R147: "While `x[STATUS].FATAL = 1`, every command except NOP and CLR is refused": only CMDERR is set. "Host reads and
host writes of RW registers are not blocked". -/
def Obligations.FatalBlocksCommands : Prop :=
  ∀ s : State, s.flag .fatal = true →
    (∀ i : Instr, i ≠ .nop → i ≠ .clr →
      ∃ t, exec i s = .next t ∧ t.get .status = s.get .status ||| 4#32 ∧ Unchanged [.status] s t) ∧
    exec .nop s = .next s ∧ (∃ t, exec .clr s = .next t ∧ t.flag .fatal = false) ∧
    (∀ (es : List HostEvent) (r : Reg), s.pending = .read r.offset 4 :: es →
      ∃ t, step s = .next t ∧ t.reply = .data (s.get r)) ∧
    (∀ (es : List HostEvent) (r : Reg) (v : Word), r.writable = true → r ≠ .cmd →
      s.pending = .write r.offset 4 v :: es →
      ∃ t, step s = .next t ∧ t.reply = .ack ∧ t.get r &&& r.fields = v &&& r.fields)

/-- R15: FATAL, CMDERR and the five warning flags are sticky: "once set they stay set until command CLR … or reset"; no
step that is neither clears one. -/
def Obligations.StickyFlagsStaySet : Prop :=
  ∀ (s t : State) (f : StatusFlag), f ≠ .valid → f ≠ .avalid → s.flag f = true → step s = .next t →
    t.flag f = true ∨ (∃ es, s.pending = .reset :: es) ∨ ∃ es, s.pending = .write 0x00 4 0x0000007F#32 :: es

/-- R16: ERR_CODE "describes the first fatal error since the last CLR; no later fatal error can overwrite it": while FATAL
is set, and until a step clears it, no step changes the error record. -/
def Obligations.FatalRecordKept : Prop :=
  ∀ (s t : State), s.flag .fatal = true → step s = .next t → t.flag .fatal = true →
    t.get .errCode = s.get .errCode ∧ t.get .errValue = s.get .errValue ∧ t.get .errLo = s.get .errLo ∧
    t.get .errHi = s.get .errHi

/-- R56, column "Writes": the frame of every command. No command changes a register or a STATUS bit that the table does not
list for it (CMDERR, bit 2, where it can be refused), the parameters, the input still to come or the last answer. -/
def Obligations.CommandsWriteOnlyTheirRegisters : Prop :=
  ∀ (i : Instr) (s t : State), exec i s = .next t →
    Unchanged (.status :: commandWrites i) s t ∧
    ∀ k : Nat, k ∉ commandStatusBits i → (t.get .status).getLsbD k = (s.get .status).getLsbD k

/-- R56, column "Reads", and R52: what a command writes is a function of the registers it reads, of STATUS, and of the
registers it writes (which it may keep); no other register can influence it. -/
def Obligations.CommandsReadOnlyTheirOperands : Prop :=
  ∀ (i : Instr) (s₁ s₂ t₁ t₂ : State), s₁.cfg = s₂.cfg →
    (∀ r ∈ .status :: (commandReads i ++ commandWrites i), s₁.get r = s₂.get r) →
    exec i s₁ = .next t₁ → exec i s₂ = .next t₂ →
    ∀ r ∈ .status :: commandWrites i, t₁.get r = t₂.get r

/-! ### The bit-timing resolver -/

/-- R60: every resolver command writes `tq_clock = floor((2*CLK_HZ + D) / (2*D))`, `D = BAUD_KHZ * 1000 * PRESC`, and 0
where `D = 0`, "whether or not it ends in a fatal error" (R25). -/
def Obligations.TqClockIsRoundedQuotient : Prop :=
  ∀ (s : State) (i : Instr), s.flag .fatal = false →
    i = .resolveClassic ∨ i = .resolveAuto ∨ i = .resolveFd ∨ i = .resolveCbt →
    ∃ t, exec i s = .next t ∧
      (t.get .tqClock).toNat =
        if s.baud * 1000 * s.presc = 0 then 0
        else (2 * s.clock + s.baud * 1000 * s.presc) / (2 * (s.baud * 1000 * s.presc))

/-- R64: RESOLVE_CLASSIC succeeds whenever the eleven checks hold, with the user's values in RES0 and RES1, and warns of a
mismatch of the two counts. -/
def Obligations.ClassicSucceeds : Prop :=
  ∀ s : State,
    let D := s.baud * 1000 * s.presc
    let tq := (2 * s.clock + D) / (2 * D)
    let tu := 1 + s.propSeg + s.seg1 + s.seg2
    s.flag .fatal = false → 1 ≤ s.presc → 1 ≤ s.baud → 8 ≤ tq → tq ≤ 25 →
    4 ≤ s.propSeg + s.seg1 → s.propSeg + s.seg1 ≤ 16 → 8 ≤ tu → tu ≤ 25 → s.mbCnt ≤ 64 →
    (if s.mbCnt ≤ 32 then 8 else 16) ≤ tq * s.presc →
    1 ≤ s.propSeg → 1 ≤ s.seg1 → 1 ≤ s.seg2 → 1 ≤ s.sjw →
    ResolvesTo .resolveClassic s 1 s.presc s.propSeg s.seg1 s.seg2 s.sjw tq tu (if tq = tu then 0#32 else 0x100#32)

/-- R64, R59: otherwise RESOLVE_CLASSIC reports the first of its eleven checks that fails. -/
def Obligations.ClassicReportsFirstFailure : Prop :=
  ∀ s : State, s.flag .fatal = false →
    let D := s.baud * 1000 * s.presc
    let tq := if D = 0 then 0 else (2 * s.clock + D) / (2 * D)
    let ts1 := s.propSeg + s.seg1
    let tu := 1 + s.propSeg + s.seg1 + s.seg2
    let minratio := if s.mbCnt ≤ 32 then 8 else 16
    ReportsFirstFailure .resolveClassic s
      [ (decide (1 ≤ s.presc), 1, s.presc, 1, 65535),
        (decide (1 ≤ s.baud), 2, s.baud, 1, 65535),
        (decide (8 ≤ tq ∧ tq ≤ 25), 3, tq, 8, 25),
        (decide (4 ≤ ts1 ∧ ts1 ≤ 16), 4, ts1, 4, 16),
        (decide (8 ≤ tu ∧ tu ≤ 25), 5, tu, 8, 25),
        (decide (s.mbCnt ≤ 64), 6, s.mbCnt, 0, 64),
        (decide (minratio ≤ tq * s.presc), 7, (tq * s.presc : Nat), minratio, 0xFFFFFFFF),
        (decide (1 ≤ s.propSeg), 8, s.propSeg, 1, 255),
        (decide (1 ≤ s.seg1), 9, s.seg1, 1, 255),
        (decide (1 ≤ s.seg2), 10, s.seg2, 1, 255),
        (decide (1 ≤ s.sjw), 11, s.sjw, 1, 255) ]
      tq tu (if 0 < D ∧ tq ≠ tu then 0x100#32 else 0#32)

/-- R66: RESOLVE_AUTO succeeds exactly in the ranges its derivation allows (`4 <= phase <= 16`, corner case c), with the
derived segments in RES0 and RES1. -/
def Obligations.AutoSucceeds : Prop :=
  ∀ s : State,
    let D := s.baud * 1000 * s.presc
    let tq := (2 * s.clock + D) / (2 * D)
    let propTime := 2 * (s.busLen * 5 + 2 * s.xcvrNs)
    let q := (2 * (propTime * s.clock) + s.presc * 1000000000) / (2 * (s.presc * 1000000000))
    let phase := tq - (q + 2)
    let seg1 := (phase + 1) / 2
    s.flag .fatal = false → 1 ≤ s.presc → 1 ≤ s.baud → q + 1 ≤ 8 → q + 6 ≤ tq → tq ≤ q + 18 → 8 ≤ tq → tq ≤ 25 →
    4 ≤ q + 1 + seg1 → q + 1 + seg1 ≤ 16 → s.mbCnt ≤ 64 → (if s.mbCnt ≤ 32 then 8 else 16) ≤ tq * s.presc →
    ResolvesTo .resolveAuto s 2 s.presc (q + 1) seg1 (phase - seg1) (min seg1 4) tq tq 0#32

/-- R66, R59, R140: otherwise RESOLVE_AUTO reports the first of its nine checks that fails; a negative `phase` is reported
as its two's-complement word. -/
def Obligations.AutoReportsFirstFailure : Prop :=
  ∀ s : State, s.flag .fatal = false →
    let D := s.baud * 1000 * s.presc
    let tq := if D = 0 then 0 else (2 * s.clock + D) / (2 * D)
    let propTime := 2 * (s.busLen * 5 + 2 * s.xcvrNs)
    let q := if s.presc = 0 then 0
      else (2 * (propTime * s.clock) + s.presc * 1000000000) / (2 * (s.presc * 1000000000))
    let phase : Int := tq - (1 + q) - 1
    let seg1 : Int := min ((phase + 1) / 2) 8
    let seg2 : Int := phase - seg1
    let minratio := if s.mbCnt ≤ 32 then 8 else 16
    ReportsFirstFailure .resolveAuto s
      [ (decide (1 ≤ s.presc), 1, s.presc, 1, 65535),
        (decide (1 ≤ s.baud), 2, s.baud, 1, 65535),
        (decide (1 + q ≤ 8), 12, (1 + q : Nat), 1, 8),
        (decide (2 ≤ phase), 13, phase, 2, 0xFFFFFFFF),
        (decide (2 ≤ seg2 ∧ seg2 ≤ 8), 14, seg2, 2, 8),
        (decide (8 ≤ tq ∧ tq ≤ 25), 3, tq, 8, 25),
        (decide (4 ≤ 1 + q + seg1 ∧ 1 + q + seg1 ≤ 16), 4, 1 + q + seg1, 4, 16),
        (decide (s.mbCnt ≤ 64), 6, s.mbCnt, 0, 64),
        (decide (minratio ≤ tq * s.presc), 7, (tq * s.presc : Nat), minratio, 0xFFFFFFFF) ]
      tq tq 0#32

/-- R67: RESOLVE_FD succeeds whenever its eight checks hold, and raises each of its three warnings whose condition holds. -/
def Obligations.FdSucceeds : Prop :=
  ∀ s : State,
    let D := s.baud * 1000 * s.presc
    let tq := (2 * s.clock + D) / (2 * D)
    let tu := 1 + s.propSeg + s.seg1 + s.seg2
    s.flag .fatal = false → 1 ≤ s.presc → 1 ≤ s.baud → 5 ≤ tq → tq ≤ 48 → 5 ≤ tu → tu ≤ 48 →
    1 ≤ s.propSeg → 1 ≤ s.seg1 → 1 ≤ s.seg2 → 1 ≤ s.sjw →
    ResolvesTo .resolveFd s 3 s.presc s.propSeg s.seg1 s.seg2 s.sjw tq tu
      ((if tq = tu then 0#32 else 0x200#32) |||
        (if s.fdEn = true ∧ s.cbtEn = true ∧ s.presc ≠ s.xprescCbt then 0x800#32 else 0#32) |||
        (if s.brsEn = true ∧ s.cbtEn = false ∧ s.presc ≠ s.xprescClassic then 0x1000#32 else 0#32))

/-- R67, R59: otherwise RESOLVE_FD reports the first of its eight checks that fails, the warnings recorded all the same. -/
def Obligations.FdReportsFirstFailure : Prop :=
  ∀ s : State, s.flag .fatal = false →
    let D := s.baud * 1000 * s.presc
    let tq := if D = 0 then 0 else (2 * s.clock + D) / (2 * D)
    let tu := 1 + s.propSeg + s.seg1 + s.seg2
    ReportsFirstFailure .resolveFd s
      [ (decide (1 ≤ s.presc), 1, s.presc, 1, 65535),
        (decide (1 ≤ s.baud), 2, s.baud, 1, 65535),
        (decide (5 ≤ tq ∧ tq ≤ 48), 3, tq, 5, 48),
        (decide (5 ≤ tu ∧ tu ≤ 48), 5, tu, 5, 48),
        (decide (1 ≤ s.propSeg), 8, s.propSeg, 1, 255),
        (decide (1 ≤ s.seg1), 9, s.seg1, 1, 255),
        (decide (1 ≤ s.seg2), 10, s.seg2, 1, 255),
        (decide (1 ≤ s.sjw), 11, s.sjw, 1, 255) ]
      tq tu
      ((if 0 < D ∧ tq ≠ tu then 0x200#32 else 0#32) |||
        (if s.fdEn = true ∧ s.cbtEn = true ∧ s.presc ≠ s.xprescCbt then 0x800#32 else 0#32) |||
        (if s.brsEn = true ∧ s.cbtEn = false ∧ s.presc ≠ s.xprescClassic then 0x1000#32 else 0#32))

/-- R68: RESOLVE_CBT succeeds whenever its nine checks hold. -/
def Obligations.CbtSucceeds : Prop :=
  ∀ s : State,
    let D := s.baud * 1000 * s.presc
    let tq := (2 * s.clock + D) / (2 * D)
    let tu := 1 + s.propSeg + s.seg1 + s.seg2
    s.flag .fatal = false → 1 ≤ s.presc → 1 ≤ s.baud → 8 ≤ tq → tq ≤ 129 →
    4 ≤ s.propSeg + s.seg1 → s.propSeg + s.seg1 ≤ 96 → 2 ≤ s.seg2 → s.seg2 ≤ 32 → 8 ≤ tu → tu ≤ 129 →
    1 ≤ s.propSeg → 1 ≤ s.seg1 → 1 ≤ s.sjw →
    ResolvesTo .resolveCbt s 4 s.presc s.propSeg s.seg1 s.seg2 s.sjw tq tu (if tq = tu then 0#32 else 0x400#32)

/-- R68, R59: otherwise RESOLVE_CBT reports the first of its nine checks that fails. -/
def Obligations.CbtReportsFirstFailure : Prop :=
  ∀ s : State, s.flag .fatal = false →
    let D := s.baud * 1000 * s.presc
    let tq := if D = 0 then 0 else (2 * s.clock + D) / (2 * D)
    let cbtseg1 := s.propSeg + s.seg1
    let tu := 1 + s.propSeg + s.seg1 + s.seg2
    ReportsFirstFailure .resolveCbt s
      [ (decide (1 ≤ s.presc), 1, s.presc, 1, 65535),
        (decide (1 ≤ s.baud), 2, s.baud, 1, 65535),
        (decide (8 ≤ tq ∧ tq ≤ 129), 3, tq, 8, 129),
        (decide (4 ≤ cbtseg1 ∧ cbtseg1 ≤ 96), 4, cbtseg1, 4, 96),
        (decide (2 ≤ s.seg2 ∧ s.seg2 ≤ 32), 15, s.seg2, 2, 32),
        (decide (8 ≤ tu ∧ tu ≤ 129), 5, tu, 8, 129),
        (decide (1 ≤ s.propSeg), 8, s.propSeg, 1, 255),
        (decide (1 ≤ s.seg1), 9, s.seg1, 1, 255),
        (decide (1 ≤ s.sjw), 11, s.sjw, 1, 255) ]
      tq tu (if 0 < D ∧ tq ≠ tu then 0x400#32 else 0#32)

/-- R72: with PRESC = 0, or with BAUD_KHZ = 0 and PRESC at least 1, every resolver command ends in that OutOfRange with
`tq_clock = 0`, and raises no TQ-mismatch warning; RESOLVE_FD still raises its prescaler warnings. -/
def Obligations.ZeroDivisorRule : Prop :=
  ∀ (s : State) (i : Instr), s.flag .fatal = false →
    i = .resolveClassic ∨ i = .resolveAuto ∨ i = .resolveFd ∨ i = .resolveCbt →
    s.presc = 0 ∨ s.baud = 0 →
    ∃ t, exec i s = .next t ∧ t.flag .fatal = true ∧ t.flag .valid = false ∧
      t.get .errCode = (if s.presc = 0 then 0x00000101#32 else 0x00000102#32) ∧ t.get .errValue = 0#32 ∧
      t.get .errLo = 1#32 ∧ t.get .errHi = 65535#32 ∧ t.get .tqClock = 0#32 ∧ t.get .res0 = 0#32 ∧
      t.get .res1 = 0#32 ∧
      t.flag .wTqClassic = s.flag .wTqClassic ∧ t.flag .wTqFd = s.flag .wTqFd ∧ t.flag .wTqCbt = s.flag .wTqCbt ∧
      (i = .resolveFd →
        (s.fdEn = true → s.cbtEn = true → s.presc ≠ s.xprescCbt → t.flag .wPrescFdCbt = true) ∧
        (s.brsEn = true → s.cbtEn = false → s.presc ≠ s.xprescClassic → t.flag .wPrescFdCls = true))

/-- R70: after every RESOLVE_AUTO "`x[TQ_USER] = x[TQ_CLOCK]`", and a successful result, "fed back as user segments to
RESOLVE_CLASSIC with the same CLK_HZ, RATE and TCTL, succeeds without a warning and yields the same RES1". -/
def Obligations.AutoResultFeedsClassic : Prop :=
  ∀ s : State, s.flag .fatal = false →
    ∃ t, exec .resolveAuto s = .next t ∧ t.get .tqUser = t.get .tqClock ∧
      (t.flag .valid = true →
        ∃ u, exec .resolveClassic
            (t.set .segs ((field (t.get .res1) 24 8 + 1#8) ++ (field (t.get .res1) 16 8 + 1#8) ++
              (field (t.get .res1) 8 8 + 1#8) ++ (field (t.get .res1) 0 8 + 1#8))) = .next u ∧
          u.flag .valid = true ∧ u.flag .fatal = false ∧ u.flag .wTqClassic = s.flag .wTqClassic ∧
          u.get .res1 = t.get .res1 ∧ u.get .tqUser = t.get .tqUser)

/-! ### The mailbox allocator -/

/-- R82: ALLOC_BEGIN opens a pass in every allocator state, keeping AMAX only with KEEPMAX. -/
def Obligations.AllocBeginOpensPass : Prop :=
  encode (.allocBegin false) = 0x00000010#32 ∧ encode (.allocBegin true) = 0x00000110#32 ∧
  ∀ (s : State) (keepmax : Bool), s.flag .fatal = false →
    ∃ t, exec (.allocBegin keepmax) s = .next t ∧ t.get .acur = BitVec.ofNat 32 s.cfg.mbBase ∧
      t.get .astat = 0x00000004#32 ∧ t.get .aaddr = 0#32 ∧ t.get .aidx = 0#32 ∧
      t.get .status = s.get .status &&& ~~~8#32 ∧ t.get .amax = (if keepmax then s.get .amax else 0#32) ∧
      Unchanged [.acur, .astat, .aaddr, .aidx, .status, .amax] s t

/-- R81: in an open pass, where every placement succeeds (the RX-FIFO reservation of R80 first, at the first slot of the
pass), ALLOC_NEXT assigns the last placement's slot. -/
def Obligations.AllocNextAssignsSlot : Prop :=
  ∀ (s : State) (p : Slot), s.flag .fatal = false → s.aState = .atRegionStart ∨ s.aState = .withinRegion →
    placeMany s.allocEnv (if s.first = true ∧ s.fifoEn = true then s.filterCount / 4 + 6 else 0) s.cursor = .ok p →
    ∃ t, exec .allocNext s = .next t ∧
      t.get .aaddr = BitVec.ofNat 32 p.address ∧
      t.get .aidx = BitVec.ofNat 32 (p.plen * 2 ^ 16 + p.index) ∧
      t.get .status = s.get .status ||| 8#32 ∧
      t.get .acur = BitVec.ofNat 32 p.next ∧
      t.aState = (if (p.next - s.cfg.mbBase) % s.cfg.regionSize = 0 then .atRegionStart else .withinRegion) ∧
      t.first = false ∧
      (field (t.get .astat) 8 8).toNat = (if s.first then p.index else (field (s.get .astat) 8 8).toNat) ∧
      t.maxMb = max s.maxMb (p.index + 1) ∧
      Unchanged [.aaddr, .aidx, .status, .acur, .astat, .amax] s t

/-- R77 to R79, R81 for a controller without CAN-FD (8-byte payloads, slots of 16 bytes): the address, the index and the
next cursor in numbers, the skipped region tail included. -/
def Obligations.AllocNextClassicController : Prop :=
  ∀ s : State,
    let base := s.cfg.mbBase
    let size := s.cfg.regionSize
    let o := s.cursor - base
    let a := if size - o % size < 16 then (o / size + 1) * size else o
    let index := a / size * (size / 16) + a % size / 16
    s.cfg.wf = true → s.flag .fatal = false → s.aState = .atRegionStart ∨ s.aState = .withinRegion →
    base ≤ s.cursor → s.fdEn = false → s.first = false ∨ s.fifoEn = false →
    a + 16 ≤ s.memSize → index + 1 ≤ s.hwMaxMb →
    ∃ t, exec .allocNext s = .next t ∧ (t.get .aaddr).toNat = base + a ∧
      (field (t.get .aidx) 0 16).toNat = index ∧ (field (t.get .aidx) 16 8).toNat = 8 ∧
      t.cursor = base + a + 16 ∧ t.flag .avalid = true

/-- R81, R90, R143: in an open pass, where a placement fails, ALLOC_NEXT raises CapacityExceeded with that cause and
assigns nothing; cursor, FIRST, FIRST_USER and AMAX are unchanged. -/
def Obligations.AllocNextReportsCapacity : Prop :=
  ∀ (s : State) (f : CapacityFailure), s.flag .fatal = false →
    s.aState = .atRegionStart ∨ s.aState = .withinRegion →
    placeMany s.allocEnv (if s.first = true ∧ s.fifoEn = true then s.filterCount / 4 + 6 else 0) s.cursor = .error f →
    ∃ t, exec .allocNext s = .next t ∧
      t.get .errCode = BitVec.ofNat 32 (s.ctrlId.toNat * 2 ^ 16 + 3 * 2 ^ 8 + f.cause.code.toNat) ∧
      t.get .errValue = BitVec.ofNat 32 f.requested ∧ t.get .errLo = 0#32 ∧
      t.get .errHi = BitVec.ofNat 32 f.available ∧
      t.aState = .regionExhausted ∧ t.first = s.first ∧
      field (t.get .astat) 8 8 = field (s.get .astat) 8 8 ∧
      t.get .aaddr = 0#32 ∧ t.get .aidx = 0#32 ∧
      t.get .status = (s.get .status ||| 2#32) &&& ~~~8#32 ∧
      Unchanged [.errCode, .errValue, .errLo, .errHi, .astat, .aaddr, .aidx, .status] s t

/-- R90, R78: a placement fails with one of the three causes, each only under its condition and with its record; `r` is the
region the failing slot would be in and `a` its address. It is the cursor's own region and the cursor where that region has
no payload code or the slot fits in what is left of it, and the start of the next region where the slot would straddle. -/
def Obligations.CapacityCausesAreJustified : Prop :=
  ∀ (e : AllocEnv) (c : Nat) (f : CapacityFailure), place e c = .error f →
    let beyond : Nat → Prop := fun q => e.fdEn = true ∧ e.perRegion = true ∧ e.cfg.numRegions.val ≤ q
    let rem := e.cfg.regionSize - off e c % e.cfg.regionSize
    ∃ r a : Nat,
      ((r = region e c ∧ a = c ∧ (beyond (region e c) ∨ need e (region e c) ≤ rem)) ∨
        (r = region e c + 1 ∧ a = rstart e r ∧ ¬beyond (region e c) ∧ rem < need e (region e c))) ∧
      ((f.cause = .cRegion ∧ beyond r ∧ f.requested = r + 1 ∧ f.available = e.cfg.numRegions.val) ∨
        (f.cause = .cMem ∧ ¬beyond r ∧ e.memSize < off e a + need e r ∧ f.requested = off e a + need e r ∧
          f.available = e.memSize) ∨
        (f.cause = .cCount ∧ ¬beyond r ∧ off e a + need e r ≤ e.memSize ∧ e.hwMaxMb < index e a + 1 ∧
          f.requested = index e a + 1 ∧ f.available = e.hwMaxMb))

/-- R76: with no pass open (REGION_EXHAUSTED or DONE) ALLOC_NEXT and ALLOC_END are refused: only CMDERR is set. -/
def Obligations.ClosedPassRefusesAllocator : Prop :=
  ∀ (s : State) (i : Instr), s.aState = .regionExhausted ∨ s.aState = .done → i = .allocNext ∨ i = .allocEnd →
    ∃ t, exec i s = .next t ∧ t.get .status = s.get .status ||| 4#32 ∧ Unchanged [.status] s t

/-- R83: ALLOC_END closes an open pass: A_STATE becomes DONE and "Every other register keeps its value"; with no pass open
it is refused. -/
def Obligations.AllocEndClosesPass : Prop :=
  encode .allocEnd = 0x00000012#32 ∧
  ∀ s : State, s.flag .fatal = false →
    (s.aState = .atRegionStart ∨ s.aState = .withinRegion →
      ∃ t, exec .allocEnd s = .next t ∧ t.aState = .done ∧
        (∀ k, 2 ≤ k → (t.get .astat).getLsbD k = (s.get .astat).getLsbD k) ∧ Unchanged [.astat] s t) ∧
    (s.aState = .regionExhausted ∨ s.aState = .done →
      ∃ t, exec .allocEnd s = .next t ∧ t.get .status = s.get .status ||| 4#32 ∧ Unchanged [.status] s t)

/-- R76: the transitions of the allocator state machine, for every command that is not blocked by a fatal error. -/
def Obligations.AllocatorTransitions : Prop :=
  ∀ (i : Instr) (s : State), WindowInv s → s.flag .fatal = false →
    ∃ t, exec i s = .next t ∧
      (∀ keepmax, i = .allocBegin keepmax → t.aState = .atRegionStart) ∧
      (i = .allocNext →
        (s.aState.isOpen = false → t.aState = s.aState ∧ t.flag .cmderr = true) ∧
        (s.aState.isOpen = true →
          (t.flag .fatal = true ∧ errClass t = 3#3 ∧ t.aState = .regionExhausted) ∨
          (t.flag .fatal = false ∧ t.flag .avalid = true ∧
            t.aState =
              if (t.cursor - s.cfg.mbBase) % s.cfg.regionSize = 0 then .atRegionStart else .withinRegion))) ∧
      (i = .allocEnd →
        (s.aState.isOpen = false → t.aState = s.aState ∧ t.flag .cmderr = true) ∧
        (s.aState.isOpen = true → t.aState = .done)) ∧
      ((∀ keepmax, i ≠ .allocBegin keepmax) → i ≠ .allocNext → i ≠ .allocEnd → t.aState = s.aState)

/-- R86: "For every slot assigned, `off(address) mod REGION_SIZE + need <= REGION_SIZE`": of every placement, the reserved
slots' too, and of the slot ALLOC_NEXT reports; the rule's example, `place(0x27C)` with 8-byte payloads, is bumped to the
next region. -/
def Obligations.SlotsNeverStraddleRegions : Prop :=
  (∀ (e : AllocEnv) (c : Nat) (p : Slot), e.cfg.wf = true → e.cfg.mbBase ≤ c → place e c = .ok p →
    (p.address - e.cfg.mbBase) % e.cfg.regionSize + (8 + p.plen) ≤ e.cfg.regionSize) ∧
  (∀ e : AllocEnv, e.cfg.mbBase = 0x80 → e.cfg.regionSize = 512 → e.fdEn = false → 528 ≤ e.memSize → 33 ≤ e.hwMaxMb →
    place e 0x27C = .ok { address := 0x280, index := 32, plen := 8, next := 0x290 }) ∧
  ∀ s t : State, WindowInv s → s.flag .fatal = false → s.aState = .atRegionStart ∨ s.aState = .withinRegion →
    exec .allocNext s = .next t → t.flag .fatal = false →
    s.cfg.mbBase ≤ (t.get .aaddr).toNat ∧
    ((t.get .aaddr).toNat - s.cfg.mbBase) % s.cfg.regionSize + (8 + (field (t.get .aidx) 16 8).toNat) ≤
      s.cfg.regionSize

/-- R87: in an open pass "ACUR never decreases", and a slot assigned starts at or above the cursor it was placed from and
ends at the new one, so that every slot of a pass lies above the slots before it. -/
def Obligations.AddressesIncreaseWithinPass : Prop :=
  ∀ s t : State, WindowInv s → s.flag .fatal = false → s.aState = .atRegionStart ∨ s.aState = .withinRegion →
    exec .allocNext s = .next t →
    s.cursor ≤ t.cursor ∧
    (t.flag .fatal = false →
      s.cursor ≤ (t.get .aaddr).toNat ∧
      t.cursor = (t.get .aaddr).toNat + (8 + (field (t.get .aidx) 16 8).toNat))

/-- R88: the `k`-th placement from the start of a pass (reserved slots counted, from 0) has index `k`. In a pass opened
without KEEPMAX whose slots are all assigned, with `n_res` reserved slots (R80), the `n`-th object (from 0) has index
`n_res + n`, AMAX counts all placements, and FIRST_USER is `n_res`. -/
def Obligations.IndicesConsecutiveInPass : Prop :=
  (∀ (e : AllocEnv) (k : Nat) (p : Slot), e.cfg.wf = true → placeMany e k e.cfg.mbBase = .ok p → p.index = k) ∧
  ∀ (s t : State) (n : Nat), s.cfg.wf = true → s.flag .fatal = false →
    execAll (passOf false (n + 1)) s = .next t → t.flag .fatal = false →
    let nRes := if s.fifoEn then s.filterCount / 4 + 6 else 0
    (field (t.get .aidx) 0 16).toNat = nRes + n ∧ t.maxMb = nRes + n + 1 ∧
      (field (t.get .astat) 8 8).toNat = nRes ∧ t.flag .avalid = true

/-- R89: "re-running allocation from scratch given the same inputs always yields the same address/index assignment": two
passes with the same FEAT, ACFG, ALIM, parameters and number of ALLOC_NEXT end with the same AADDR, AIDX, ASTAT, ACUR and
the same error, whatever else differed before them. Without KEEPMAX they end with the same AMAX; with it the second pass
ends with the maximum of what AMAX held and what the first pass reached (R85), and so "leaves AMAX at the same value the
first pass reached" where AMAX held that. -/
def Obligations.SamePassTwice : Prop :=
  ∀ (s₁ s₂ : State) (keepmax₁ keepmax₂ : Bool) (n : Nat),
    s₁.flag .fatal = false → s₂.flag .fatal = false → s₁.cfg = s₂.cfg →
    (∀ r ∈ [Reg.feat, .acfg, .alim], s₁.get r = s₂.get r) →
    ∃ t₁ t₂, execAll (passOf keepmax₁ n) s₁ = .next t₁ ∧ execAll (passOf keepmax₂ n) s₂ = .next t₂ ∧
      (∀ r ∈ [Reg.aaddr, .aidx, .astat, .acur], t₁.get r = t₂.get r) ∧
      t₁.flag .avalid = t₂.flag .avalid ∧ t₁.flag .fatal = t₂.flag .fatal ∧
      (t₁.flag .fatal = true → ∀ r ∈ [Reg.errCode, .errValue, .errLo, .errHi], t₁.get r = t₂.get r) ∧
      (keepmax₁ = false → keepmax₂ = false → t₁.get .amax = t₂.get .amax) ∧
      (keepmax₁ = false → keepmax₂ = true → t₂.maxMb = max s₂.maxMb t₁.maxMb) ∧
      (keepmax₁ = false → keepmax₂ = true → s₂.get .amax = t₁.get .amax → t₂.get .amax = t₁.get .amax)

/-- R84, R77, R79: MAP_INDEX writes 0 for an address below `MB_BASE` or in a region without a payload, else the index, the
payload length and whether the address is a legal slot start. -/
def Obligations.MapIndexComputes : Prop :=
  ∀ s : State, s.flag .fatal = false →
    let base := s.cfg.mbBase
    let size := s.cfg.regionSize
    let a := s.mapAddr
    let r := (a - base) / size
    let o := (a - base) % size
    let perRegion := s.fdEn = true ∧ s.perRegion = true
    let code : Nat → BitVec 2 := fun q =>
      if perRegion then (if q = 0 then s.rpl0 else if q = 1 then s.rpl1 else s.rpl2) else s.gpl
    let payload : Nat → Nat := fun q => if s.fdEn = true then 8 * 2 ^ (code q).toNat else 8
    let n := 8 + payload r
    ∃ t, exec .mapIndex s = .next t ∧ Unchanged [.mapout] s t ∧
      (a < base ∨ (perRegion ∧ s.cfg.numRegions.val ≤ r) → t.get .mapout = 0#32) ∧
      (¬(a < base ∨ (perRegion ∧ s.cfg.numRegions.val ≤ r)) →
        (field (t.get .mapout) 0 16).toNat = (∑ q ∈ Finset.range r, size / (8 + payload q)) + o / n ∧
        (field (t.get .mapout) 16 8).toNat = payload r ∧
        (field (t.get .mapout) 24 7) = 0#7 ∧
        ((t.get .mapout).getLsbD 31 = true ↔ o % n = 0 ∧ o + n ≤ size))

/-- R84 (e): "For every successful ALLOC_NEXT, writing AADDR to MAPIN and issuing MAP_INDEX with unchanged FEAT and ACFG
yields MAPOUT.IDX = AIDX.IDX, MAPOUT.PLEN = AIDX.PLEN, MVALID = 1", for the slots of a pass whose address MAPIN can
hold. -/
def Obligations.MapIndexAgreesWithAllocator : Prop :=
  ∀ (s t : State) (n : Nat), s.cfg.wf = true → s.flag .fatal = false →
    execAll (passOf false (n + 1)) s = .next t → t.flag .fatal = false → (t.get .aaddr).toNat < 2 ^ 17 →
    ∃ u, exec .mapIndex (t.set .mapin (t.get .aaddr)) = .next u ∧
      u.get .mapout = 0x80000000#32 ||| t.get .aidx

/-! ### Ordering and filters -/

/-- R121: ORD_CMP compares the keys lexicographically, TYPE first, then CTRL, then MSGID: ORD is 3 where key A is smaller,
5 where they are equal and 0 else. -/
def Obligations.OrdCmpComparesKeys : Prop :=
  encode .ordCmp = 0x00000020#32 ∧
  ∀ s : State, s.flag .fatal = false →
    let number : Word → Word → Nat := fun tc id =>
      (tc.toNat % 2) * 2 ^ 40 + (tc.toNat / 2 ^ 8 % 2 ^ 8) * 2 ^ 32 + id.toNat
    let a := number (s.get .keyaTc) (s.get .keyaId)
    let b := number (s.get .keybTc) (s.get .keybId)
    ∃ t, exec .ordCmp s = .next t ∧ t.get .ord = (if a < b then 3#32 else if a = b then 5#32 else 0#32) ∧
      Unchanged [.ord] s t

/-- R122: a sequence "is in canonical order exactly when for every adjacent pair" ORD_CMP gives ORD.LE = 1, and "by
transitivity this holds then for every pair i < j", which is the source's property: RECEIVE before TRANSMIT, then by
controller, then by message id. -/
def Obligations.CanonicalOrderIsPairwise : Prop :=
  ∀ keys : List Key,
    (keys.IsChain (fun a b => (ordWord a b).getLsbD 0 = true) ↔
      keys.Pairwise (fun a b => (ordWord a b).getLsbD 0 = true)) ∧
    ∀ a b : Key, ((ordWord a b).getLsbD 0 = true ↔
      (a.transmit = false ∧ b.transmit = true) ∨
      (a.transmit = b.transmit ∧ a.ctrl.toNat < b.ctrl.toNat) ∨
      (a.transmit = b.transmit ∧ a.ctrl = b.ctrl ∧ a.msgId.toNat ≤ b.msgId.toNat))

/-- R123: FLT_BEGIN sets FLT_CNT to 0; "FLT_ID_OUT and FLT_MASK_OUT keep their values". -/
def Obligations.FltBeginClearsCount : Prop :=
  encode .fltBegin = 0x00000030#32 ∧
  ∀ s : State, s.flag .fatal = false →
    ∃ t, exec .fltBegin s = .next t ∧ t.get .fltCnt = 0#32 ∧ Unchanged [.fltCnt] s t

/-- R124 to R128, R130: FLT_ENC writes the pair the acceptance mode encodes (Mode A by a shift of 19 or 1 with the two
guard bits, Mode B by the instance's `encB`, Mode C the identity, Mode D a zero id) and counts the entry, saturating. -/
def Obligations.FltEncEncodesEntry : Prop :=
  ∀ s : State, s.flag .fatal = false →
    let mode := (s.get .fltcfg).toNat % 4
    let ext := s.fltExt
    let id := s.get .fltId
    let mask := s.get .fltMask
    let shift := if ext then 1 else 19
    ∃ t, exec .fltEnc s = .next t ∧
      (mode = 0 → t.get .fltIdOut = BitVec.ofNat 32 (id.toNat * 2 ^ shift) ∧
        t.get .fltMaskOut = BitVec.ofNat 32 (mask.toNat * 2 ^ shift) ||| 0xC0000000#32) ∧
      (mode = 1 → t.get .fltIdOut = (Config.encB id mask ext).1 ∧
        t.get .fltMaskOut = (Config.encB id mask ext).2) ∧
      (mode = 2 → t.get .fltIdOut = id ∧ t.get .fltMaskOut = mask) ∧
      (mode = 3 → t.get .fltIdOut = 0#32 ∧ t.get .fltMaskOut = mask) ∧
      t.fltCount = min (s.fltCount + 1) 65535 ∧ Unchanged [.fltIdOut, .fltMaskOut, .fltCnt] s t

/-- R129: FLT_END changes nothing where the counted entries are the declared ones, and else raises CountMismatch (class 5,
PARAM 48) with the controller's id, the count and the declared count. -/
def Obligations.FltEndChecksCount : Prop :=
  encode .fltEnd = 0x00000032#32 ∧
  ∀ s : State, s.flag .fatal = false →
    (s.fltCount = s.filterCount → exec .fltEnd s = .next s) ∧
    (s.fltCount ≠ s.filterCount →
      ∃ t, exec .fltEnd s = .next t ∧ t.get .status = s.get .status ||| 2#32 ∧
        t.get .errCode = BitVec.ofNat 32 (s.ctrlId.toNat * 2 ^ 16 + 5 * 2 ^ 8 + 48) ∧
        t.get .errValue = BitVec.ofNat 32 s.fltCount ∧ t.get .errLo = BitVec.ofNat 32 s.filterCount ∧
        t.get .errHi = BitVec.ofNat 32 s.filterCount ∧
        Unchanged [.status, .errCode, .errValue, .errLo, .errHi] s t)

/-! ### The invariant of the register window -/

/-- Both invariants hold right after reset. -/
def Obligations.InvariantHoldsAtReset : Prop := WindowInv State.reset ∧ SlotGridOk State.reset

/-- Every step keeps the invariant, from every state that has it and whatever the host does next: reserved fields read 0
(R41), the error record describes the latched error (R16), a valid result is a resolver's (R26), a valid slot's index is
below AMAX (R35), an open pass's cursor and A_STATE agree (R76), ORD has one of its three values (R121). -/
def Obligations.StepKeepsInvariant : Prop :=
  ∀ s t : State, WindowInv s → step s = .next t → WindowInv t

/-- R88, R79, R85, step by step. Every step, whatever the host does next, keeps the cursor of an open pass on the slot grid of
its region, the cursor's index at most AMAX, and a valid slot's index just below the cursor's; left out are only the steps
that change FD_EN, PER_REGION, GPL or an RPL field, the changes for which R164 gives up the property. And an ALLOC_NEXT that
assigns a slot gives it the cursor's index, or with the reservation of R80 before it the index `n_res` further. -/
def Obligations.StepKeepsSlotGrid : Prop :=
  (∀ s t : State, WindowInv s → SlotGridOk s → step s = .next t →
    t.fdEn = s.fdEn → t.perRegion = s.perRegion → t.gpl = s.gpl → t.rpl0 = s.rpl0 → t.rpl1 = s.rpl1 → t.rpl2 = s.rpl2 →
    SlotGridOk t) ∧
  ∀ s t : State, WindowInv s → SlotGridOk s → s.flag .fatal = false → s.aState.isOpen = true →
    exec .allocNext s = .next t → t.flag .fatal = false →
    (field (t.get .aidx) 0 16).toNat =
      index s.allocEnv s.cursor + (if s.first = true ∧ s.fifoEn = true then s.filterCount / 4 + 6 else 0)
end

