-- ==== Sys2Proof/Laws/Bits.lean ====
section
/-! SUPPORT. Reading a field back after one was written. -/

namespace Sys2Proof.Laws

open Sys2Proof.Machine

theorem getLsbD_field (w : Word) (lo len i : Nat) :
    (field w lo len).getLsbD i = (decide (i < len) && w.getLsbD (lo + i)) := by
  simp [field]

/-- A field as a number (R8). -/
theorem toNat_field (w : Word) (lo len : Nat) : (field w lo len).toNat = w.toNat / 2 ^ lo % 2 ^ len := by
  simp [field, BitVec.extractLsb'_toNat, Nat.shiftRight_eq_div_pow]

theorem getLsbD_setField (w : Word) (lo : Nat) {len : Nat} (v : BitVec len) (i : Nat) (hi : i < 32) :
    (setField w lo v).getLsbD i = if lo ≤ i ∧ i < lo + len then v.getLsbD (i - lo) else w.getLsbD i := by
  unfold setField
  by_cases h : lo ≤ i
  · by_cases h2 : i < lo + len
    · have e2 : i - lo < len := by omega
      have e3 : ¬ i < lo := by omega
      simp [h, h2, hi, e2, e3]
    · have e2 : ¬ i - lo < len := by omega
      have e3 : v.getLsbD (i - lo) = false := BitVec.getLsbD_of_ge _ _ (by omega)
      simp [h, h2, hi, e2, e3]
  · have h' : i < lo := by omega
    simp [h, h', hi]

/-- A field just written reads as written. -/
theorem field_setField_same (w : Word) (lo : Nat) {len : Nat} (v : BitVec len) (h : lo + len ≤ 32) :
    field (setField w lo v) lo len = v := by
  apply BitVec.eq_of_getLsbD_eq
  intro i hi
  rw [getLsbD_field, getLsbD_setField _ _ _ _ (by omega)]
  simp [hi]

/-- Writing one field leaves a field that shares no bit with it. -/
theorem field_setField_disjoint (w : Word) (lo lo' len : Nat) {len' : Nat} (v : BitVec len') (hl : lo + len ≤ 32)
    (h : lo + len ≤ lo' ∨ lo' + len' ≤ lo) : field (setField w lo' v) lo len = field w lo len := by
  apply BitVec.eq_of_getLsbD_eq
  intro i hi
  rw [getLsbD_field, getLsbD_field, getLsbD_setField _ _ _ _ (by omega), if_neg (by omega)]

/-- Writing a field leaves a bit outside it. -/
theorem getLsbD_setField_outside (w : Word) (lo i : Nat) {len : Nat} (v : BitVec len) (hi : i < 32)
    (h : i < lo ∨ lo + len ≤ i) : (setField w lo v).getLsbD i = w.getLsbD i := by
  rw [getLsbD_setField _ _ _ _ hi, if_neg (by omega)]

theorem AState.ofCode_code (a : AState) : AState.ofCode a.code = a := by cases a <;> rfl

end Sys2Proof.Laws
end

