-- ==== Sys2Proof/Laws/State.lean ====
section
/-! SUPPORT. What each update of a state leaves and changes: registers by name, flags of STATUS, the model's own fields. -/

namespace Sys2Proof.Laws

open Sys2Proof.Machine

variable (s : State) (r r' : Reg) (v : Word)

/-! ### Registers -/

@[simp] theorem get_set_self : (s.set r v).get r = v := by cases r <;> rfl

theorem get_set_ne (h : r' ≠ r) : (s.set r v).get r' = s.get r' := by
  cases r <;> cases r' <;> first | rfl | exact absurd rfl h

/-- Read after write, for any two registers. -/
@[simp] theorem get_set : (s.set r v).get r' = if r' = r then v else s.get r' := by
  split
  · next h => rw [h, get_set_self]
  · next h => exact get_set_ne s r r' v h

@[simp] theorem set_cfg : (s.set r v).cfg = s.cfg := by cases r <;> rfl
@[simp] theorem set_pending : (s.set r v).pending = s.pending := by cases r <;> rfl
@[simp] theorem set_reply : (s.set r v).reply = s.reply := by cases r <;> rfl

/-- A state is its registers, its parameters, its input and its last answer. -/
theorem state_ext {s t : State} (hr : ∀ r, s.get r = t.get r) (hc : s.cfg = t.cfg) (hp : s.pending = t.pending)
    (hy : s.reply = t.reply) : s = t := by
  cases s
  cases t
  simp only [State.mk.injEq]
  exact ⟨hr .cmd, hr .status, hr .errCode, hr .errValue, hr .errLo, hr .errHi, hr .feat, hr .clkHz, hr .rate,
    hr .segs, hr .phys, hr .xpresc, hr .tctl, hr .tqClock, hr .tqUser, hr .res0, hr .res1, hr .acfg, hr .alim,
    hr .mapin, hr .aaddr, hr .aidx, hr .astat, hr .acur, hr .amax, hr .mapout, hr .keyaTc, hr .keyaId, hr
    .keybTc, hr .keybId, hr .ord, hr .fltcfg, hr .fltId, hr .fltMask, hr .fltIdOut, hr .fltMaskOut, hr
    .fltCnt, hc, hp, hy⟩

/-! ### The model's own fields -/

@[simp] theorem get_answer (a : Reply) : (s.answer a).get r = s.get r := by cases r <;> rfl
@[simp] theorem answer_cfg (a : Reply) : (s.answer a).cfg = s.cfg := rfl
@[simp] theorem answer_pending (a : Reply) : (s.answer a).pending = s.pending := rfl
@[simp] theorem answer_reply (a : Reply) : (s.answer a).reply = a := rfl
@[simp] theorem get_withPending (es : List HostEvent) : (s.withPending es).get r = s.get r := by cases r <;> rfl
@[simp] theorem withPending_cfg (es : List HostEvent) : (s.withPending es).cfg = s.cfg := rfl
@[simp] theorem withPending_pending (es : List HostEvent) : (s.withPending es).pending = es := rfl
@[simp] theorem withPending_reply (es : List HostEvent) : (s.withPending es).reply = s.reply := rfl

/-! ### Flags of STATUS -/

variable (f g : StatusFlag)

theorem StatusFlag.bit_lt : f.bit < 32 := by cases f <;> decide

theorem StatusFlag.bit_inj : f.bit = g.bit ↔ f = g := by cases f <;> cases g <;> decide

theorem getLsbD_bitAt (k i : Nat) (hk : k < 32) : (1#32 <<< k).getLsbD i = decide (i = k) := by
  rw [← BitVec.twoPow_eq, BitVec.getLsbD_twoPow]
  by_cases h : k = i
  · subst h
    simp [hk]
  · simp [h, Ne.symm h]

@[simp] theorem flag_setFlag : (s.setFlag f).flag g = (decide (g = f) || s.flag g) := by
  have hf := StatusFlag.bit_lt f
  simp only [State.flag, State.setFlag, get_set_self, BitVec.getLsbD_or, getLsbD_bitAt _ _ hf, StatusFlag.bit_inj]
  exact Bool.or_comm _ _

@[simp] theorem flag_clearFlag : (s.clearFlag f).flag g = (s.flag g && !decide (g = f)) := by
  have hf := StatusFlag.bit_lt f
  have hg := StatusFlag.bit_lt g
  simp only [State.flag, State.clearFlag, get_set_self, BitVec.getLsbD_and, BitVec.getLsbD_not, hg, decide_true,
    Bool.true_and, getLsbD_bitAt _ _ hf, StatusFlag.bit_inj]

theorem get_setFlag (h : r ≠ .status) : (s.setFlag f).get r = s.get r := get_set_ne s _ r _ h
theorem get_clearFlag (h : r ≠ .status) : (s.clearFlag f).get r = s.get r := get_set_ne s _ r _ h
theorem get_status_setFlag : (s.setFlag f).get .status = s.get .status ||| (1#32 <<< f.bit) := get_set_self s .status _
theorem get_status_clearFlag : (s.clearFlag f).get .status = s.get .status &&& ~~~(1#32 <<< f.bit) :=
  get_set_self s .status _
@[simp] theorem setFlag_cfg : (s.setFlag f).cfg = s.cfg := set_cfg s _ _
@[simp] theorem setFlag_pending : (s.setFlag f).pending = s.pending := set_pending s _ _
@[simp] theorem setFlag_reply : (s.setFlag f).reply = s.reply := set_reply s _ _
@[simp] theorem clearFlag_cfg : (s.clearFlag f).cfg = s.cfg := set_cfg s _ _
@[simp] theorem clearFlag_pending : (s.clearFlag f).pending = s.pending := set_pending s _ _
@[simp] theorem clearFlag_reply : (s.clearFlag f).reply = s.reply := set_reply s _ _

/-- Writing a register other than STATUS leaves every flag. -/
theorem flag_set (h : r ≠ .status) : (s.set r v).flag f = s.flag f := by
  unfold State.flag
  rw [get_set_ne s r _ v (Ne.symm h)]

theorem warnIf_true : s.warnIf true f = s.setFlag f := rfl
theorem warnIf_false : s.warnIf false f = s := rfl

@[simp] theorem flag_warnIf (c : Bool) : (s.warnIf c f).flag g = ((c && decide (g = f)) || s.flag g) := by
  cases c <;> simp [State.warnIf]

theorem get_warnIf (c : Bool) (h : r ≠ .status) : (s.warnIf c f).get r = s.get r := by
  cases c
  · rfl
  · exact get_setFlag s r f h

@[simp] theorem warnIf_cfg (c : Bool) : (s.warnIf c f).cfg = s.cfg := by cases c <;> simp [State.warnIf]
@[simp] theorem warnIf_pending (c : Bool) : (s.warnIf c f).pending = s.pending := by cases c <;> simp [State.warnIf]
@[simp] theorem warnIf_reply (c : Bool) : (s.warnIf c f).reply = s.reply := by cases c <;> simp [State.warnIf]

end Sys2Proof.Laws
end

