-- ==== Sys2Proof/Laws/Ops.lean ====
section
/-! SUPPORT. One lemma for each shared operation that says once what it does: blocking and refusal, the fatal error entry,
CLR, reset, the access check and the window, and words put together from fields. -/

namespace Sys2Proof.Laws

open Sys2Proof.Machine

/-! ### Words put together from fields -/

/-- `{a, b}` of R8 as a number. -/
theorem toNat_concat {n m : Nat} (a : BitVec n) (b : BitVec m) : (a ++ b).toNat = a.toNat * 2 ^ m + b.toNat := by
  rw [BitVec.toNat_append, Nat.shiftLeft_eq, Nat.mul_comm, Nat.two_pow_add_eq_or_of_lt b.isLt]

/-! ### Blocking and refusal -/

theorem blocking_of_fatal {s : State} {k : State → State} (h : s.flag .fatal = true) :
    blocking s k = .next (refuse s) := by
  simp [blocking, h]

theorem blocking_of_clear {s : State} {k : State → State} (h : s.flag .fatal = false) :
    blocking s k = .next (k s) := by
  simp [blocking, h]

/-- What a blocked command can do: it is refused, or it has its effect. -/
theorem blocking_cases {s t : State} {k : State → State} (h : blocking s k = .next t) :
    (s.flag .fatal = true ∧ t = refuse s) ∨ (s.flag .fatal = false ∧ t = k s) := by
  unfold blocking at h
  split at h
  · next hf => exact .inl ⟨hf, by injection h with h; exact h.symm⟩
  · next hf => exact .inr ⟨by simpa using hf, by injection h with h; exact h.symm⟩

theorem get_refuse (s : State) (r : Reg) (h : r ≠ .status) : (refuse s).get r = s.get r := get_setFlag s r _ h
theorem get_status_refuse (s : State) : (refuse s).get .status = s.get .status ||| 4#32 := get_status_setFlag s .cmderr
@[simp] theorem refuse_cfg (s : State) : (refuse s).cfg = s.cfg := setFlag_cfg s _
@[simp] theorem refuse_pending (s : State) : (refuse s).pending = s.pending := setFlag_pending s _
@[simp] theorem refuse_reply (s : State) : (refuse s).reply = s.reply := setFlag_reply s _

/-! ### The fatal error entry and CLR -/

/-- R143, register by register. -/
theorem get_fatalEntry (s : State) (cls : ErrClass) (param : ErrParam) (ctrl : BitVec 8) (value : Int) (lo hi : Nat)
    (r : Reg) :
    (fatalEntry s cls param ctrl value lo hi).get r =
      if r = .errHi then BitVec.ofNat 32 hi
      else if r = .errLo then BitVec.ofNat 32 lo
      else if r = .errValue then BitVec.ofInt 32 value
      else if r = .errCode then errCodeWord cls param ctrl
      else if r = .status then s.get .status ||| 2#32
      else s.get r := by
  simp only [fatalEntry, State.setFlag, get_set]
  rfl

@[simp] theorem fatalEntry_cfg (s : State) (cls : ErrClass) (param : ErrParam) (ctrl : BitVec 8) (value : Int)
    (lo hi : Nat) : (fatalEntry s cls param ctrl value lo hi).cfg = s.cfg := by simp [fatalEntry]
@[simp] theorem fatalEntry_pending (s : State) (cls : ErrClass) (param : ErrParam) (ctrl : BitVec 8) (value : Int)
    (lo hi : Nat) : (fatalEntry s cls param ctrl value lo hi).pending = s.pending := by simp [fatalEntry]
@[simp] theorem fatalEntry_reply (s : State) (cls : ErrClass) (param : ErrParam) (ctrl : BitVec 8) (value : Int)
    (lo hi : Nat) : (fatalEntry s cls param ctrl value lo hi).reply = s.reply := by simp [fatalEntry]

@[simp] theorem flag_fatalEntry (s : State) (cls : ErrClass) (param : ErrParam) (ctrl : BitVec 8) (value : Int)
    (lo hi : Nat) (f : StatusFlag) :
    (fatalEntry s cls param ctrl value lo hi).flag f = (decide (f = .fatal) || s.flag f) := by
  simp [fatalEntry, flag_set]

/-- The words `errCodeWord` puts together, as one number (R16). -/
theorem errCodeWord_eq (cls : ErrClass) (param : ErrParam) (ctrl : BitVec 8) :
    errCodeWord cls param ctrl =
      BitVec.ofNat 32 (ctrl.toNat * 2 ^ 16 + cls.code.toNat * 2 ^ 8 + param.code.toNat) := by
  apply BitVec.eq_of_toNat_eq
  have h1 := ctrl.isLt
  have h2 := cls.code.isLt
  have h3 := param.code.isLt
  simp only [errCodeWord, toNat_concat, BitVec.toNat_ofNat]
  omega

/-- R148, register by register. -/
theorem get_clearErrors (s : State) (r : Reg) :
    (clearErrors s).get r =
      if r ∈ [Reg.status, .errCode, .errValue, .errLo, .errHi] then 0#32 else s.get r := by
  cases r <;> simp [clearErrors]

@[simp] theorem clearErrors_cfg (s : State) : (clearErrors s).cfg = s.cfg := by simp [clearErrors]
@[simp] theorem clearErrors_pending (s : State) : (clearErrors s).pending = s.pending := by simp [clearErrors]
@[simp] theorem clearErrors_reply (s : State) : (clearErrors s).reply = s.reply := by simp [clearErrors]

/-! ### Reset -/

/-- R161, register by register. -/
theorem get_hardReset (s : State) (r : Reg) :
    (hardReset s).get r = if r = .astat then 3#32 else 0#32 := by
  cases r <;> rfl

@[simp] theorem hardReset_cfg (s : State) : (hardReset s).cfg = s.cfg := rfl
@[simp] theorem hardReset_pending (s : State) : (hardReset s).pending = s.pending := rfl

/-! ### The window -/

/-- The access check is `accessLegal` (R46). -/
theorem checkAccess_eq (addr n : Nat) :
    checkAccess addr n = if accessLegal addr n = true then .ok () else .error (.busError addr n) := by
  simp [checkAccess, accessLegal, and_assoc]

/-- A register stands at its own offset (R11). -/
@[simp] theorem ofOffset_offset (r : Reg) : Reg.ofOffset r.offset = some r := by cases r <;> rfl

/-- The only register at an offset is the one whose offset it is. -/
theorem ofOffset_eq_some {addr : Nat} {r : Reg} (h : Reg.ofOffset addr = some r) : r.offset = addr := by
  unfold Reg.ofOffset at h
  split at h <;> first | (injection h with h; subst h; rfl) | cases h

theorem ofOffset_eq_none {addr : Nat} (h : Reg.ofOffset addr = none) (r : Reg) : r.offset ≠ addr := by
  intro e
  rw [← e, ofOffset_offset] at h
  cases h

/-- What a host write leaves at each register (R43). -/
theorem get_windowWrite (s : State) (addr : Nat) (v : Word) (r : Reg) :
    (windowWrite s addr v).get r =
      if r.offset = addr ∧ r.writable = true then mergeFields r (s.get r) v else s.get r := by
  unfold windowWrite
  split
  · next q hq =>
    have ho := ofOffset_eq_some hq
    by_cases hr : r = q
    · subst hr
      by_cases hw : r.writable = true <;> simp [hw, ho]
    · have hne : r.offset ≠ addr := by
        intro e
        rw [← e, ofOffset_offset] at hq
        exact hr (Option.some.inj hq)
      by_cases hw : q.writable = true <;> simp [hw, hr, hne]
  · next hq => simp [ofOffset_eq_none hq r]

@[simp] theorem windowWrite_cfg (s : State) (addr : Nat) (v : Word) : (windowWrite s addr v).cfg = s.cfg := by
  unfold windowWrite
  split <;> [split; skip] <;> simp
@[simp] theorem windowWrite_pending (s : State) (addr : Nat) (v : Word) :
    (windowWrite s addr v).pending = s.pending := by
  unfold windowWrite
  split <;> [split; skip] <;> simp
@[simp] theorem windowWrite_reply (s : State) (addr : Nat) (v : Word) : (windowWrite s addr v).reply = s.reply := by
  unfold windowWrite
  split <;> [split; skip] <;> simp

/-- Each bit of a merged register comes from the written word inside the fields, else from the register (R43, R41). -/
theorem getLsbD_mergeFields (r : Reg) (old v : Word) (k : Nat) (hk : k < 32) :
    (mergeFields r old v).getLsbD k = if r.fields.getLsbD k = true then v.getLsbD k else old.getLsbD k := by
  simp only [mergeFields, BitVec.getLsbD_or, BitVec.getLsbD_and, BitVec.getLsbD_not, hk, decide_true, Bool.true_and]
  cases r.fields.getLsbD k <;> simp

/-- CMD holds the whole word written (R14). -/
theorem windowWrite_cmd (s : State) (v : Word) : windowWrite s 0x00 v = s.set .cmd v := by
  have h : mergeFields .cmd (s.get .cmd) v = v := by
    show (s.get .cmd &&& ~~~BitVec.allOnes 32) ||| (v &&& BitVec.allOnes 32) = v
    rw [BitVec.not_allOnes, BitVec.and_zero, BitVec.zero_or, BitVec.and_allOnes]
  show (if Reg.writable .cmd = true then s.set .cmd (mergeFields .cmd (s.get .cmd) v) else s) = _
  rw [h]
  rfl

end Sys2Proof.Laws
end

