-- ==== Sys2Proof/Laws/Alloc.lean ====
section
/-! SUPPORT. What one placement can do (spec/42_mailbox_alloc.md R77 to R79, R90), where a pass's cursor can stand, and
what each allocator command leaves in each register (R81 to R83). -/

namespace Sys2Proof.Laws

open Sys2Proof.Machine

/-! ### Lengths -/

theorem plen_cases (code : BitVec 2) : plen code = 8 ∨ plen code = 16 ∨ plen code = 32 ∨ plen code = 64 := by
  revert code
  decide

/-- A payload is one of four lengths (R6, `PLEN_TABLE`). -/
theorem payload_cases (e : AllocEnv) (r : Nat) :
    payload e r = 8 ∨ payload e r = 16 ∨ payload e r = 32 ∨ payload e r = 64 := by
  unfold payload
  split <;> [split; skip]
  · exact plen_cases _
  · exact plen_cases _
  · exact .inl rfl

theorem need_bounds (e : AllocEnv) (r : Nat) : 16 ≤ need e r ∧ need e r ≤ 72 := by
  have h := payload_cases e r
  simp only [need, hdrLen]
  omega

theorem need_payload (e : AllocEnv) (r : Nat) : need e r = 8 + payload e r := rfl

theorem placed_plen (e : AllocEnv) (r : Nat) : need e r - hdrLen = payload e r := by
  simp [need]

/-! ### Regions -/

theorem off_rstart (e : AllocEnv) (r : Nat) : off e (rstart e r) = r * e.cfg.regionSize := by
  simp [off, rstart]

variable {e : AllocEnv}

theorem region_rstart (hs : 0 < e.cfg.regionSize) (r : Nat) : region e (rstart e r) = r := by
  rw [region, off_rstart, Nat.mul_div_cancel _ hs]

theorem off_add_of_le {c : Nat} (hc : e.cfg.mbBase ≤ c) (n : Nat) : off e (c + n) = off e c + n := by
  simp only [off]
  omega

theorem sub_rstart_region {c : Nat} (hc : e.cfg.mbBase ≤ c) : c - rstart e (region e c) = off e c % e.cfg.regionSize := by
  have h := Nat.div_add_mod (off e c) e.cfg.regionSize
  rw [Nat.mul_comm] at h
  have ho : off e c = c - e.cfg.mbBase := rfl
  simp only [rstart, region]
  omega

theorem index_eq {c : Nat} (hc : e.cfg.mbBase ≤ c) :
    index e c = before e (region e c) + off e c % e.cfg.regionSize / need e (region e c) := by
  rw [index, sub_rstart_region hc]

theorem index_rstart (hs : 0 < e.cfg.regionSize) (r : Nat) : index e (rstart e r) = before e r := by
  rw [index, region_rstart hs, Nat.sub_self, Nat.zero_div, Nat.add_zero]

/-- `before` as the sum R79 writes. -/
theorem before_eq_sum (e : AllocEnv) (r : Nat) : before e r = ∑ q ∈ Finset.range r, slots e q := by
  induction r with
  | zero => rfl
  | succ r ih => rw [before, Finset.sum_range_succ, ih]

/-! ### One placement -/

/-- A placement at a known address succeeds exactly within MEM_SIZE and HW_MAX_MB. -/
theorem placeAt_ok {r c : Nat} {p : Slot} :
    placeAt e r c = .ok p ↔ off e c + need e r ≤ e.memSize ∧ index e c + 1 ≤ e.hwMaxMb ∧
      p = { address := c, index := index e c, plen := payload e r, next := c + need e r } := by
  simp only [placeAt, placed_plen]
  constructor
  · intro h
    split at h
    · cases h
    · split at h
      · cases h
      · injection h with h
        exact ⟨by omega, by omega, h.symm⟩
  · rintro ⟨h1, h2, rfl⟩
    rw [if_neg (by omega), if_neg (by omega)]

/-- Why a placement at a known address fails (R90). -/
theorem placeAt_error {r c : Nat} {f : CapacityFailure} :
    placeAt e r c = .error f ↔
      (e.memSize < off e c + need e r ∧ f = { cause := .cMem, requested := off e c + need e r, available := e.memSize }) ∨
      (off e c + need e r ≤ e.memSize ∧ e.hwMaxMb < index e c + 1 ∧
        f = { cause := .cCount, requested := index e c + 1, available := e.hwMaxMb }) := by
  simp only [placeAt]
  constructor
  · intro h
    split at h
    · next hm =>
      injection h with h
      exact .inl ⟨hm, h.symm⟩
    · next hm =>
      split at h
      · next hx =>
        injection h with h
        exact .inr ⟨by omega, hx, h.symm⟩
      · cases h
  · rintro (⟨h1, rfl⟩ | ⟨h1, h2, rfl⟩)
    · rw [if_pos h1]
    · rw [if_neg (by omega), if_pos h2]

/-- Where a placement from the cursor `c` tries its slot: at the cursor, where the slot fits the rest of the region, or at
the start of the next region (R78). -/
theorem place_cases (e : AllocEnv) (c : Nat) :
    (regionOk e (region e c) = false ∧ place e c = .error (failRegion e (region e c))) ∨
    (regionOk e (region e c) = true ∧ e.cfg.regionSize - off e c % e.cfg.regionSize < need e (region e c) ∧
      regionOk e (region e c + 1) = false ∧ place e c = .error (failRegion e (region e c + 1))) ∨
    (regionOk e (region e c) = true ∧ e.cfg.regionSize - off e c % e.cfg.regionSize < need e (region e c) ∧
      regionOk e (region e c + 1) = true ∧ place e c = placeAt e (region e c + 1) (rstart e (region e c + 1))) ∨
    (regionOk e (region e c) = true ∧ need e (region e c) ≤ e.cfg.regionSize - off e c % e.cfg.regionSize ∧
      place e c = placeAt e (region e c) c) := by
  cases h1 : regionOk e (region e c)
  · exact .inl ⟨rfl, by simp [place, h1]⟩
  · by_cases h2 : e.cfg.regionSize - off e c % e.cfg.regionSize < need e (region e c)
    · cases h3 : regionOk e (region e c + 1)
      · exact .inr (.inl ⟨rfl, h2, rfl, by simp [place, h1, h2, h3]⟩)
      · exact .inr (.inr (.inl ⟨rfl, h2, rfl, by simp [place, h1, h2, h3]⟩))
    · exact .inr (.inr (.inr ⟨rfl, by omega, by simp [place, h1, h2]⟩))

/-- Everything a successful placement says about its slot. -/
structure Placed (e : AllocEnv) (c : Nat) (p : Slot) : Prop where
  regionOk : regionOk e (region e p.address) = true
  index : p.index = index e p.address
  plen : p.plen = payload e (region e p.address)
  next : p.next = p.address + need e (region e p.address)
  above : c ≤ p.address
  fits : off e p.address % e.cfg.regionSize + need e (region e p.address) ≤ e.cfg.regionSize
  memory : off e p.address + need e (region e p.address) ≤ e.memSize
  count : p.index + 1 ≤ e.hwMaxMb
  place : p.address = c ∨ (p.address = rstart e (region e c + 1) ∧
    e.cfg.regionSize - off e c % e.cfg.regionSize < need e (region e c))

theorem place_ok (hw : e.cfg.wf = true) {c : Nat} {p : Slot} (hc : e.cfg.mbBase ≤ c) (h : place e c = .ok p) :
    Placed e c p := by
  have hsize : 72 ≤ e.cfg.regionSize := by
    simp only [Config.wf, Bool.and_eq_true, decide_eq_true_eq] at hw
    exact hw.1
  have hs : 0 < e.cfg.regionSize := by omega
  rcases place_cases e c with ⟨_, he⟩ | ⟨_, _, _, he⟩ | ⟨_, hrem, hr, he⟩ | ⟨hr, hrem, he⟩
  · rw [h] at he; cases he
  · rw [h] at he; cases he
  · rw [h] at he
    obtain ⟨hm, hx, rfl⟩ := placeAt_ok.1 he.symm
    have hn := need_bounds e (region e c + 1)
    have hreg := region_rstart hs (region e c + 1)
    refine { regionOk := ?_, index := rfl, plen := ?_, next := ?_, above := ?_, fits := ?_, memory := ?_, count := hx, place := .inr ⟨rfl, hrem⟩ }
    · rw [hreg]; exact hr
    · rw [hreg]
    · rw [hreg]
    · have hd := Nat.div_add_mod (off e c) e.cfg.regionSize
      have hlt := Nat.mod_lt (off e c) hs
      have ho : off e c = c - e.cfg.mbBase := rfl
      have hmul : (off e c / e.cfg.regionSize + 1) * e.cfg.regionSize
          = e.cfg.regionSize * (off e c / e.cfg.regionSize) + e.cfg.regionSize := by
        rw [Nat.add_mul, Nat.one_mul, Nat.mul_comm]
      simp only [rstart, region, hmul]
      omega
    · rw [hreg, off_rstart, Nat.mul_mod_left]
      omega
    · rw [hreg]; exact hm
  · rw [h] at he
    obtain ⟨hm, hx, rfl⟩ := placeAt_ok.1 he.symm
    have hlt := Nat.mod_lt (off e c) hs
    exact { regionOk := hr, index := rfl, plen := rfl, next := rfl, above := Nat.le_refl _,
            fits := by show off e c % e.cfg.regionSize + need e (region e c) ≤ e.cfg.regionSize; omega
            memory := hm, count := hx, place := .inl rfl }

/-! ### The cursor of a pass -/

/-- The cursor stands at a multiple of its region's slot length. -/
def OnGrid (e : AllocEnv) (c : Nat) : Prop :=
  e.cfg.mbBase ≤ c ∧ need e (region e c) ∣ off e c % e.cfg.regionSize

theorem onGrid_base (e : AllocEnv) : OnGrid e e.cfg.mbBase := by
  refine ⟨Nat.le_refl _, ?_⟩
  have h : off e e.cfg.mbBase = 0 := Nat.sub_self _
  rw [h, Nat.zero_mod]
  exact Nat.dvd_zero _

theorem index_base (e : AllocEnv) : index e e.cfg.mbBase = 0 := by
  have h : off e e.cfg.mbBase = 0 := Nat.sub_self _
  rw [index_eq (Nat.le_refl _), region, h, Nat.zero_div, Nat.zero_mod, Nat.zero_div]
  rfl

/-- From a cursor on the grid, a placement takes a slot on the grid with the next index, and leaves the cursor on the grid
one index further (R79: "the number of slot starts before it"). -/
theorem place_grid (hw : e.cfg.wf = true) {c : Nat} {p : Slot} (hc : OnGrid e c) (h : place e c = .ok p) :
    p.index = index e c ∧ OnGrid e p.address ∧ OnGrid e p.next ∧ index e p.next = p.index + 1 := by
  have hp := place_ok hw hc.1 h
  have hsize : 72 ≤ e.cfg.regionSize := by
    simp only [Config.wf, Bool.and_eq_true, decide_eq_true_eq] at hw
    exact hw.1
  have hs : 0 < e.cfg.regionSize := by omega
  -- the slot stands on the grid, and its index is the cursor's
  have hslot : need e (region e p.address) ∣ off e p.address % e.cfg.regionSize ∧ p.index = index e c := by
    rcases hp.place with ha | ⟨ha, hrem⟩
    · rw [hp.index, ha]
      exact ⟨hc.2, rfl⟩
    · rw [hp.index, ha, index_rstart hs, off_rstart, Nat.mul_mod_left]
      refine ⟨Nat.dvd_zero _, ?_⟩
      rw [index_eq hc.1, before]
      obtain ⟨k, hk⟩ := hc.2
      have hn := need_bounds e (region e c)
      have hlt := Nat.mod_lt (off e c) hs
      congr 1
      rw [hk, Nat.mul_div_cancel_left _ (by omega), slots]
      rw [hk] at hrem hlt
      apply Nat.div_eq_of_lt_le
      · rw [Nat.mul_comm]; omega
      · rw [Nat.add_mul, Nat.mul_comm]; omega
  obtain ⟨⟨k, hk⟩, hidx⟩ := hslot
  have hbase : e.cfg.mbBase ≤ p.address := le_trans hc.1 hp.above
  have hn := need_bounds e (region e p.address)
  have hoff : off e p.next = off e p.address + need e (region e p.address) := by
    rw [hp.next, off_add_of_le hbase]
  have hd := Nat.div_add_mod (off e p.address) e.cfg.regionSize
  have hfits := hp.fits
  refine ⟨hidx, ⟨hbase, k, hk⟩, ?_⟩
  have hbn : e.cfg.mbBase ≤ p.next := by rw [hp.next]; omega
  have hcount : p.index = before e (region e p.address) + k := by
    rw [hp.index, index_eq hbase, hk, Nat.mul_div_cancel_left _ (by omega)]
  by_cases hfull : off e p.address % e.cfg.regionSize + need e (region e p.address) = e.cfg.regionSize
  · have hq : off e p.next = e.cfg.regionSize * (region e p.address + 1) := by
      have hr : region e p.address = off e p.address / e.cfg.regionSize := rfl
      rw [hoff, Nat.mul_add, Nat.mul_one]
      rw [← hr] at hd
      omega
    have hreg : region e p.next = region e p.address + 1 := by
      rw [region, hq, Nat.mul_div_cancel_left _ hs]
    have hmod : off e p.next % e.cfg.regionSize = 0 := by rw [hq, Nat.mul_mod_right]
    refine ⟨⟨hbn, by rw [hmod]; exact Nat.dvd_zero _⟩, ?_⟩
    rw [index_eq hbn, hmod, Nat.zero_div, hreg, before, hcount, slots, Nat.add_zero]
    have : e.cfg.regionSize / need e (region e p.address) = k + 1 := by
      rw [← hfull, hk, ← Nat.mul_succ, Nat.mul_div_cancel_left _ (by omega)]
    omega
  · have hlt : off e p.address % e.cfg.regionSize + need e (region e p.address) < e.cfg.regionSize := by omega
    have hmod : off e p.next % e.cfg.regionSize = off e p.address % e.cfg.regionSize + need e (region e p.address) := by
      rw [hoff, Nat.add_mod, Nat.mod_eq_of_lt (a := need e (region e p.address)) (by omega), Nat.mod_eq_of_lt hlt]
    have hreg : region e p.next = region e p.address := by
      rw [region, region, hoff]
      apply Nat.div_eq_of_lt_le
      · rw [Nat.mul_comm]; omega
      · rw [Nat.add_mul, Nat.one_mul, Nat.mul_comm]; omega
    refine ⟨⟨hbn, by rw [hmod, hreg, hk]; exact ⟨k + 1, by rw [Nat.mul_add, Nat.mul_one]⟩⟩, ?_⟩
    rw [index_eq hbn, hmod, hreg, hcount, hk, ← Nat.mul_succ, Nat.mul_div_cancel_left _ (by omega)]
    omega

/-! ### Several placements in a row (R80) -/

theorem placeMany_zero (c : Nat) : placeMany e 0 c = place e c := rfl

/-- Several placements succeed exactly where the first one and those after it do. -/
theorem placeMany_succ_ok {k c : Nat} {q : Slot} :
    placeMany e (k + 1) c = .ok q ↔ ∃ p, place e c = .ok p ∧ placeMany e k p.next = .ok q := by
  rw [placeMany]
  cases place e c <;> simp

/-- The last of several placements keeps to HW_MAX_MB (R90). -/
theorem placeMany_count {k c : Nat} {p : Slot} (h : placeMany e k c = .ok p) : p.index + 1 ≤ e.hwMaxMb := by
  induction k generalizing c with
  | zero =>
    rw [placeMany_zero] at h
    rcases place_cases e c with ⟨_, he⟩ | ⟨_, _, _, he⟩ | ⟨_, _, _, he⟩ | ⟨_, _, he⟩ <;> rw [h] at he
    · cases he
    · cases he
    · obtain ⟨_, hx, rfl⟩ := placeAt_ok.1 he.symm
      exact hx
    · obtain ⟨_, hx, rfl⟩ := placeAt_ok.1 he.symm
      exact hx
  | succ k ih =>
    obtain ⟨q, _, hq⟩ := placeMany_succ_ok.1 h
    exact ih hq

/-- The last of several placements is one placement, from a cursor on the grid `k` indices further. -/
theorem placeMany_grid (hw : e.cfg.wf = true) {k c : Nat} {q : Slot} (hc : OnGrid e c) (h : placeMany e k c = .ok q) :
    ∃ d, c ≤ d ∧ OnGrid e d ∧ place e d = .ok q ∧ index e d = index e c + k := by
  induction k generalizing c with
  | zero => exact ⟨c, Nat.le_refl _, hc, h, rfl⟩
  | succ k ih =>
    obtain ⟨p, hp, hq⟩ := placeMany_succ_ok.1 h
    obtain ⟨hi, _, hg, hn⟩ := place_grid hw hc hp
    obtain ⟨d, hcd, hd, hdq, hdi⟩ := ih hg hq
    have hpl := place_ok hw hc.1 hp
    refine ⟨d, ?_, hd, hdq, by omega⟩
    have := hpl.above
    have := hpl.next
    omega

/-- The last of several placements starts at or above the cursor it began from. -/
theorem placeMany_ok (hw : e.cfg.wf = true) {k c : Nat} {q : Slot} (hc : e.cfg.mbBase ≤ c)
    (h : placeMany e k c = .ok q) : ∃ d, c ≤ d ∧ Placed e d q := by
  induction k generalizing c with
  | zero => exact ⟨c, Nat.le_refl _, place_ok hw hc h⟩
  | succ k ih =>
    obtain ⟨p, hp, hq⟩ := placeMany_succ_ok.1 h
    have hpl := place_ok hw hc hp
    have h1 := hpl.above
    have h2 := hpl.next
    obtain ⟨d, hcd, hd⟩ := ih (by omega) hq
    exact ⟨d, by omega, hd⟩

/-! ### What the commands leave in each register -/

variable (s : State)

theorem get_clearSlot (r : Reg) :
    (clearSlot s).get r =
      if r = .status then s.get .status &&& ~~~8#32
      else if r = .aidx then 0#32
      else if r = .aaddr then 0#32
      else s.get r := by
  simp only [clearSlot, State.clearFlag, get_set]
  rfl

@[simp] theorem clearSlot_cfg : (clearSlot s).cfg = s.cfg := by simp [clearSlot]
@[simp] theorem clearSlot_pending : (clearSlot s).pending = s.pending := by simp [clearSlot]
@[simp] theorem clearSlot_reply : (clearSlot s).reply = s.reply := by simp [clearSlot]

/-- R82, register by register. -/
theorem get_allocBegin (keepmax : Bool) (r : Reg) :
    (allocBegin keepmax s).get r =
      if r = .amax then (if keepmax then s.get .amax else 0#32)
      else if r = .status then s.get .status &&& ~~~8#32
      else if r = .aidx then 0#32
      else if r = .aaddr then 0#32
      else if r = .astat then astatOpened
      else if r = .acur then BitVec.ofNat 32 s.cfg.mbBase
      else s.get r := by
  cases keepmax
  · simp [allocBegin, get_clearSlot]
  · by_cases h : r = .amax
    · subst h
      simp [allocBegin, get_clearSlot]
    · simp [allocBegin, get_clearSlot, h]

theorem allocBegin_own (keepmax : Bool) :
    (allocBegin keepmax s).cfg = s.cfg ∧ (allocBegin keepmax s).pending = s.pending ∧
      (allocBegin keepmax s).reply = s.reply := by
  cases keepmax <;> simp [allocBegin]

/-- A failing ALLOC_NEXT, register by register (R81, R90, R143). -/
theorem get_allocFail (f : CapacityFailure) (r : Reg) :
    (allocFail s f).get r =
      if r = .status then (s.get .status ||| 2#32) &&& ~~~8#32
      else if r = .aidx then 0#32
      else if r = .aaddr then 0#32
      else if r = .astat then setField (s.get .astat) 0 AState.regionExhausted.code
      else if r = .errHi then BitVec.ofNat 32 f.available
      else if r = .errLo then 0#32
      else if r = .errValue then BitVec.ofNat 32 f.requested
      else if r = .errCode then errCodeWord .capacityExceeded f.cause s.ctrlId
      else s.get r := by
  rw [allocFail, get_clearSlot]
  simp only [State.setAState, raiseCapacityExceeded, get_set, get_fatalEntry, BitVec.ofInt_natCast]
  cases r <;> simp

theorem allocFail_own (f : CapacityFailure) :
    (allocFail s f).cfg = s.cfg ∧ (allocFail s f).pending = s.pending ∧ (allocFail s f).reply = s.reply := by
  simp [allocFail, State.setAState, raiseCapacityExceeded]

/-- A slot assigned, register by register (R81, R85). -/
theorem get_allocAssign (p : Slot) (r : Reg) :
    (allocAssign s p).get r =
      if r = .amax then setField (s.get .amax) 0 (BitVec.ofNat 16 (max s.maxMb (p.index + 1)))
      else if r = .astat then astatAssigned s p
      else if r = .acur then BitVec.ofNat 32 p.next
      else if r = .status then s.get .status ||| 8#32
      else if r = .aidx then aidxWord p
      else if r = .aaddr then BitVec.ofNat 32 p.address
      else s.get r := by
  simp only [allocAssign, State.setFlag, get_set]
  rfl

theorem allocAssign_own (p : Slot) :
    (allocAssign s p).cfg = s.cfg ∧ (allocAssign s p).pending = s.pending ∧ (allocAssign s p).reply = s.reply := by
  simp [allocAssign]

variable {s}

/-- What ALLOC_NEXT can do where it is not blocked (R76, R81). -/
theorem allocNext_cases (s : State) :
    (s.aState.isOpen = false ∧ allocNext s = refuse s) ∨
    (s.aState.isOpen = true ∧ ∃ f, placeMany s.allocEnv (reservedSlots s) s.cursor = .error f ∧
      allocNext s = allocFail s f) ∨
    (s.aState.isOpen = true ∧ ∃ p, placeMany s.allocEnv (reservedSlots s) s.cursor = .ok p ∧
      allocNext s = allocAssign s p) := by
  cases ho : s.aState.isOpen
  · exact .inl ⟨rfl, by simp [allocNext, ho]⟩
  · cases hp : placeMany s.allocEnv (reservedSlots s) s.cursor with
    | ok p => exact .inr (.inr ⟨rfl, p, rfl, by simp [allocNext, ho, hp]⟩)
    | error f => exact .inr (.inl ⟨rfl, f, rfl, by simp [allocNext, ho, hp]⟩)

theorem AState.isOpen_iff {a : AState} : a.isOpen = true ↔ a = .atRegionStart ∨ a = .withinRegion := by
  cases a <;> simp [AState.isOpen]

theorem AState.isOpen_eq_false {a : AState} : a.isOpen = false ↔ a = .regionExhausted ∨ a = .done := by
  cases a <;> simp [AState.isOpen]

/-! ### The fields of ASTAT, AIDX and AMAX -/

theorem aState_of_code {w : Word} {a : AState} (h : field w 0 2 = a.code) : AState.ofCode (field w 0 2) = a := by
  rw [h, AState.ofCode_code]

/-- A_STATE just written reads as written, and the other fields of ASTAT stay. -/
theorem astat_setState (w : Word) (a : AState) :
    AState.ofCode (field (setField w 0 a.code) 0 2) = a ∧
      (setField w 0 a.code).getLsbD 2 = w.getLsbD 2 ∧ field (setField w 0 a.code) 8 8 = field w 8 8 := by
  refine ⟨aState_of_code (field_setField_same _ _ _ (by decide)), ?_, ?_⟩
  · exact getLsbD_setField_outside _ _ _ _ (by decide) (.inr (by decide))
  · exact field_setField_disjoint _ _ _ _ _ (by decide) (.inr (by decide))

/-- The fields of ASTAT after a slot is assigned (R81). -/
theorem astatAssigned_fields (s : State) (p : Slot) :
    AState.ofCode (field (astatAssigned s p) 0 2) = stateAfter s.allocEnv p.next ∧
      (astatAssigned s p).getLsbD 2 = false ∧
      field (astatAssigned s p) 8 8 = if s.first then BitVec.ofNat 8 p.index else field (s.get .astat) 8 8 := by
  simp only [astatAssigned]
  obtain ⟨h1, h2, h3⟩ := astat_setState
    (setField (if s.first then setField (s.get .astat) 8 (BitVec.ofNat 8 p.index) else s.get .astat) 2 0#1)
    (stateAfter s.allocEnv p.next)
  refine ⟨h1, ?_, ?_⟩
  · rw [h2, getLsbD_setField _ _ _ _ (by decide)]
    rfl
  · rw [h3, field_setField_disjoint _ _ _ _ _ (by decide) (.inr (by decide))]
    split
    · exact field_setField_same _ _ _ (by decide)
    · rfl

theorem field_aidxWord (p : Slot) :
    field (aidxWord p) 0 16 = BitVec.ofNat 16 p.index ∧ field (aidxWord p) 16 8 = BitVec.ofNat 8 p.plen := by
  constructor <;> apply BitVec.eq_of_toNat_eq
  · simp only [toNat_field, aidxWord, toNat_concat, BitVec.toNat_ofNat]
    omega
  · simp only [toNat_field, aidxWord, toNat_concat, BitVec.toNat_ofNat]
    omega

/-- AIDX as a number (R32), for a slot whose fields fit. -/
theorem aidxWord_eq {p : Slot} (hi : p.index < 65536) (hp : p.plen < 256) :
    aidxWord p = BitVec.ofNat 32 (p.plen * 2 ^ 16 + p.index) := by
  apply BitVec.eq_of_toNat_eq
  simp only [aidxWord, toNat_concat, BitVec.toNat_ofNat]
  omega

/-- MAPOUT where the address has no index (R84). -/
theorem mapoutWord_of_unmapped {e : AllocEnv} {a : Nat} (h : a < e.cfg.mbBase ∨ regionOk e (region e a) = false) :
    mapoutWord e a = 0#32 := by
  unfold mapoutWord
  rcases h with h | h <;> simp [h]

/-- The fields of MAPOUT where the address has an index (R84, R36). -/
theorem mapoutWord_fields {e : AllocEnv} {a : Nat} (h : e.cfg.mbBase ≤ a) (hr : regionOk e (region e a) = true) :
    field (mapoutWord e a) 0 16 =
        BitVec.ofNat 16 (before e (region e a) + off e a % e.cfg.regionSize / need e (region e a)) ∧
      field (mapoutWord e a) 16 8 = BitVec.ofNat 8 (payload e (region e a)) ∧
      field (mapoutWord e a) 24 7 = 0#7 ∧
      (mapoutWord e a).getLsbD 31 =
        (decide (off e a % e.cfg.regionSize % need e (region e a) = 0) &&
          decide (off e a % e.cfg.regionSize + need e (region e a) ≤ e.cfg.regionSize)) := by
  have hn : ¬ a < e.cfg.mbBase := by omega
  simp only [mapoutWord, hn, hr, decide_false, Bool.not_true, Bool.or_self, Bool.false_eq_true, if_false, placed_plen]
  generalize (decide (off e a % e.cfg.regionSize % need e (region e a) = 0) &&
    decide (off e a % e.cfg.regionSize + need e (region e a) ≤ e.cfg.regionSize)) = c
  refine ⟨?_, ?_, ?_, ?_⟩
  · apply BitVec.eq_of_toNat_eq
    simp only [toNat_field, toNat_concat, BitVec.toNat_ofNat]
    omega
  · apply BitVec.eq_of_toNat_eq
    simp only [toNat_field, toNat_concat, BitVec.toNat_ofNat]
    omega
  · apply BitVec.eq_of_toNat_eq
    simp only [toNat_field, toNat_concat, BitVec.toNat_ofNat]
    omega
  · simp only [BitVec.getLsbD_append]
    simp

/-- The limits of the environment a state gives (R29). -/
theorem allocEnv_limits (s : State) : s.allocEnv.memSize < 65536 ∧ s.allocEnv.hwMaxMb < 256 :=
  ⟨(field (s.get .alim) 0 16).isLt, (field (s.get .alim) 16 8).isLt⟩

theorem before_limits (e : AllocEnv) (m x r : Nat) : before { e with memSize := m, hwMaxMb := x } r = before e r := by
  induction r with
  | zero => rfl
  | succ r ih =>
    simp only [before, ih]
    rfl

/-- The functions of R77 and R79 read the payload configuration (FD_EN, PER_REGION, GPL, the RPL fields) and the parameters,
and nothing else of a state (R164: changing ALIM "only changes when the pass fails"). -/
theorem grid_of_payload_fields {s t : State} (hc : t.cfg = s.cfg) (hf : t.fdEn = s.fdEn)
    (hp : t.perRegion = s.perRegion) (hg : t.gpl = s.gpl) (h0 : t.rpl0 = s.rpl0) (h1 : t.rpl1 = s.rpl1)
    (h2 : t.rpl2 = s.rpl2) (c : Nat) :
    need t.allocEnv (region t.allocEnv c) = need s.allocEnv (region s.allocEnv c) ∧
      off t.allocEnv c = off s.allocEnv c ∧ index t.allocEnv c = index s.allocEnv c := by
  have he : t.allocEnv = { s.allocEnv with memSize := t.memSize, hwMaxMb := t.hwMaxMb } := by
    simp [State.allocEnv, hc, hf, hp, hg, h0, h1, h2]
  rw [he]
  refine ⟨rfl, rfl, ?_⟩
  unfold index
  rw [before_limits]
  rfl

/-- A slot a state's placement gives fits the registers that report it (R31, R32, R34, R35). -/
theorem placed_fits {d : Nat} {p : Slot} (hw : s.cfg.wf = true) (hd : s.cfg.mbBase ≤ d) (h : Placed s.allocEnv d p) :
    p.index + 1 < 256 ∧ p.plen < 256 ∧ s.cfg.mbBase ≤ p.address ∧ p.next ≤ s.cfg.mbBase + 65535 ∧
      p.address < 2 ^ 32 ∧ p.next < 2 ^ 32 := by
  obtain ⟨hm, hx⟩ := allocEnv_limits s
  have h1 := h.count
  have h2 := h.memory
  have h3 := h.next
  have h4 := h.above
  have h5 := payload_cases s.allocEnv (region s.allocEnv p.address)
  have h6 := h.plen
  have ho : off s.allocEnv p.address = p.address - s.cfg.mbBase := rfl
  simp only [Config.wf, Bool.and_eq_true, decide_eq_true_eq] at hw
  have h7 := hw.2
  omega

theorem maxMb_allocAssign (p : Slot) (h : p.index + 1 < 65536) :
    (allocAssign s p).maxMb = max s.maxMb (p.index + 1) := by
  have hb : s.maxMb < 65536 := (field (s.get .amax) 0 16).isLt
  rw [State.maxMb, get_allocAssign, if_pos rfl, field_setField_same _ _ _ (by decide), BitVec.toNat_ofNat]
  omega

end Sys2Proof.Laws
end

