-- ==== Sys2Proof/Laws/Timing.lean ====
section
/-! SUPPORT. What the frame of the resolver commands (spec/41_bit_timing.md R59) leaves in each register. -/

namespace Sys2Proof.Laws

open Sys2Proof.Machine

/-! ### Warnings -/

/-- The STATUS bits of the warnings whose condition holds. -/
def warnMask : List (Bool × StatusFlag) → Word
  | [] => 0#32
  | w :: ws => (if w.1 then 1#32 <<< w.2.bit else 0#32) ||| warnMask ws

theorem recordWarnings_cons (s : State) (w : Bool × StatusFlag) (ws : List (Bool × StatusFlag)) :
    recordWarnings s (w :: ws) = recordWarnings (s.warnIf w.1 w.2) ws := rfl

theorem get_status_recordWarnings (s : State) (ws : List (Bool × StatusFlag)) :
    (recordWarnings s ws).get .status = s.get .status ||| warnMask ws := by
  induction ws generalizing s with
  | nil => simp [recordWarnings, warnMask]
  | cons w ws ih =>
    rw [recordWarnings_cons, ih, warnMask]
    cases hw : w.1
    · simp [State.warnIf]
    · simp [State.warnIf, get_status_setFlag, BitVec.or_assoc]

theorem get_recordWarnings (s : State) (ws : List (Bool × StatusFlag)) (r : Reg) (h : r ≠ .status) :
    (recordWarnings s ws).get r = s.get r := by
  induction ws generalizing s with
  | nil => rfl
  | cons w ws ih => rw [recordWarnings_cons, ih, get_warnIf _ _ _ _ h]

theorem recordWarnings_own (s : State) (ws : List (Bool × StatusFlag)) :
    (recordWarnings s ws).cfg = s.cfg ∧ (recordWarnings s ws).pending = s.pending ∧
      (recordWarnings s ws).reply = s.reply := by
  induction ws generalizing s with
  | nil => exact ⟨rfl, rfl, rfl⟩
  | cons w ws ih =>
    rw [recordWarnings_cons]
    obtain ⟨h1, h2, h3⟩ := ih (s.warnIf w.1 w.2)
    exact ⟨h1.trans (by simp), h2.trans (by simp), h3.trans (by simp)⟩

/-! ### The frame of R59 -/

variable (s : State) (q : Resolution)

/-- Steps 1, 3 and 4, register by register. -/
theorem get_resolveStart (r : Reg) :
    (resolveStart s q).get r =
      if r = .status then (s.get .status &&& ~~~1#32) ||| warnMask q.warnings
      else if r = .tqUser then BitVec.ofInt 32 q.tqUser
      else if r = .tqClock then BitVec.ofInt 32 q.tqClock
      else if r = .res1 then 0#32
      else if r = .res0 then 0#32
      else s.get r := by
  unfold resolveStart
  by_cases h : r = .status
  · subst h
    rw [get_status_recordWarnings]
    simp [get_status_clearFlag, StatusFlag.bit]
  · rw [get_recordWarnings _ _ _ h]
    simp [h, get_clearFlag]

theorem resolveStart_own :
    (resolveStart s q).cfg = s.cfg ∧ (resolveStart s q).pending = s.pending ∧
      (resolveStart s q).reply = s.reply := by
  unfold resolveStart
  obtain ⟨h1, h2, h3⟩ := recordWarnings_own
    (((((s.clearFlag .valid).set .res0 0#32).set .res1 0#32).set .tqClock (BitVec.ofInt 32 q.tqClock)).set
      .tqUser (BitVec.ofInt 32 q.tqUser)) q.warnings
  exact ⟨h1.trans (by simp), h2.trans (by simp), h3.trans (by simp)⟩

theorem clear_or_set_bit0 (a m : Word) : (a &&& ~~~1#32) ||| m ||| 1#32 = a ||| 1#32 ||| m := by
  apply BitVec.eq_of_getLsbD_eq
  intro i hi
  simp only [BitVec.getLsbD_or, BitVec.getLsbD_and, BitVec.getLsbD_not, hi, decide_true, Bool.true_and]
  cases (1#32).getLsbD i <;> cases a.getLsbD i <;> cases m.getLsbD i <;> rfl

/-- Step 6, register by register: a command that succeeds. -/
theorem get_resolveDeliver (r : Reg) (t : TimingResult) :
    (resolveDeliver (resolveStart s q) t).get r =
      if r = .status then s.get .status ||| 1#32 ||| warnMask q.warnings
      else if r = .res1 then res1Word t
      else if r = .res0 then res0Word t s.clkSrc
      else if r = .tqUser then BitVec.ofInt 32 q.tqUser
      else if r = .tqClock then BitVec.ofInt 32 q.tqClock
      else s.get r := by
  have hclk : (resolveStart s q).clkSrc = s.clkSrc := by
    unfold State.clkSrc
    rw [get_resolveStart]
    rfl
  by_cases h : r = .status
  · subst h
    rw [if_pos rfl, ← clear_or_set_bit0]
    simp [resolveDeliver, get_status_setFlag, get_resolveStart, StatusFlag.bit]
  · simp only [resolveDeliver, get_setFlag _ _ _ h, get_set, get_resolveStart, h, if_false, hclk]
    cases r <;> simp

theorem resolveDeliver_own (t : TimingResult) :
    (resolveDeliver (resolveStart s q) t).cfg = s.cfg ∧ (resolveDeliver (resolveStart s q) t).pending = s.pending ∧
      (resolveDeliver (resolveStart s q) t).reply = s.reply := by
  obtain ⟨h1, h2, h3⟩ := resolveStart_own s q
  exact ⟨by simp [resolveDeliver, h1], by simp [resolveDeliver, h2], by simp [resolveDeliver, h3]⟩

/-- Step 5, register by register: a command whose check `c` is the first to fail. -/
theorem get_resolveFailure (r : Reg) (param : ErrParam) (value : Int) (lo hi : Nat) :
    (raiseOutOfRange (resolveStart s q) param value lo hi).get r =
      if r = .errHi then BitVec.ofNat 32 hi
      else if r = .errLo then BitVec.ofNat 32 lo
      else if r = .errValue then BitVec.ofInt 32 value
      else if r = .errCode then errCodeWord .outOfRange param 0#8
      else if r = .status then (s.get .status &&& ~~~1#32) ||| 2#32 ||| warnMask q.warnings
      else if r = .tqUser then BitVec.ofInt 32 q.tqUser
      else if r = .tqClock then BitVec.ofInt 32 q.tqClock
      else if r = .res1 then 0#32
      else if r = .res0 then 0#32
      else s.get r := by
  unfold raiseOutOfRange
  rw [get_fatalEntry]
  simp only [get_resolveStart]
  by_cases h : r = .status
  · subst h
    simp only [reduceCtorEq, if_false, if_true]
    rw [BitVec.or_assoc, BitVec.or_assoc, BitVec.or_comm 2#32]
  · simp [h]

theorem resolveFailure_own (param : ErrParam) (value : Int) (lo hi : Nat) :
    (raiseOutOfRange (resolveStart s q) param value lo hi).cfg = s.cfg ∧
      (raiseOutOfRange (resolveStart s q) param value lo hi).pending = s.pending ∧
      (raiseOutOfRange (resolveStart s q) param value lo hi).reply = s.reply := by
  obtain ⟨h1, h2, h3⟩ := resolveStart_own s q
  exact ⟨by simp [raiseOutOfRange, h1], by simp [raiseOutOfRange, h2], by simp [raiseOutOfRange, h3]⟩

/-- The frame where every check holds. -/
theorem resolveFrame_of_pass {f : State → Resolution} (h : ∀ c ∈ (f s).checks, c.holds = true) :
    resolveFrame f s = resolveDeliver (resolveStart s (f s)) (f s).result := by
  have hn : firstFailure (f s).checks = none := by
    simp only [firstFailure, List.find?_eq_none]
    intro c hc
    simp [h c hc]
  simp [resolveFrame, hn]

/-- The frame where the check at place `k` is the first to fail (R144). -/
theorem resolveFrame_of_fail {f : State → Resolution} {k : Nat} {c : Check} (hk : (f s).checks[k]? = some c)
    (hc : c.holds = false) (hp : ∀ d ∈ (f s).checks.take k, d.holds = true) :
    resolveFrame f s = raiseOutOfRange (resolveStart s (f s)) c.param c.value c.lo c.hi := by
  have hf : firstFailure (f s).checks = some c := by
    have hlt : k < (f s).checks.length := by
      by_contra hge
      rw [List.getElem?_eq_none (Nat.le_of_not_lt hge)] at hk
      cases hk
    have hck : (f s).checks[k] = c := by
      rw [List.getElem?_eq_getElem hlt] at hk
      exact Option.some.inj hk
    have hsplit : (f s).checks = (f s).checks.take k ++ c :: (f s).checks.drop (k + 1) := by
      rw [← hck, List.getElem_cons_drop, List.take_append_drop]
    rw [firstFailure, hsplit, List.find?_append]
    have hnone : ((f s).checks.take k).find? (fun c => !c.holds) = none := by
      simp only [List.find?_eq_none]
      intro d hd
      simp [hp d hd]
    simp [hnone, hc]
  simp [resolveFrame, hf]

/-- A resolver command's frame either delivers, all checks holding, or reports a check of its list that fails. -/
theorem resolveFrame_cases (f : State → Resolution) :
    ((∀ c ∈ (f s).checks, c.holds = true) ∧ resolveFrame f s = resolveDeliver (resolveStart s (f s)) (f s).result) ∨
    ∃ c ∈ (f s).checks, c.holds = false ∧
      resolveFrame f s = raiseOutOfRange (resolveStart s (f s)) c.param c.value c.lo c.hi := by
  cases hf : firstFailure (f s).checks with
  | none =>
    refine .inl ⟨?_, by simp [resolveFrame, hf]⟩
    simpa [firstFailure, List.find?_eq_none] using hf
  | some c =>
    have hm := List.mem_of_find?_eq_some hf
    have hh := List.find?_some hf
    exact .inr ⟨c, hm, by simpa using hh, by simp [resolveFrame, hf]⟩

/-- RES0 as a number (R26, R65), for a prescaler of at least 1 that fits its field. -/
theorem res0Word_eq (kind : BitVec 3) (presc : Nat) (prop s1 s2 sjw : Int) (clk : Bool) (h1 : 1 ≤ presc)
    (h2 : presc < 65536) :
    res0Word { kind := kind, presc := presc, prop := prop, s1 := s1, s2 := s2, sjw := sjw } clk =
      BitVec.ofNat 32 (kind.toNat * 2 ^ 24 + (if clk then 2 ^ 16 else 0) + (presc - 1)) := by
  have e : ((presc : Int) - 1) = ((presc - 1 : Nat) : Int) := by omega
  apply BitVec.eq_of_toNat_eq
  have hk := kind.isLt
  simp only [res0Word, toNat_concat, e, BitVec.ofInt_natCast, BitVec.toNat_ofNat]
  cases clk <;> simp <;> omega

/-- RES1 as a number (R27, R65), for lengths of at least 1 that fit their fields. -/
theorem res1Word_eq (kind : BitVec 3) (presc : Int) (prop s1 s2 sjw : Nat) (hp : 1 ≤ prop ∧ prop < 257)
    (h1 : 1 ≤ s1 ∧ s1 < 257) (h2 : 1 ≤ s2 ∧ s2 < 257) (hj : 1 ≤ sjw ∧ sjw < 257) :
    res1Word { kind := kind, presc := presc, prop := prop, s1 := s1, s2 := s2, sjw := sjw } =
      BitVec.ofNat 32 ((sjw - 1) * 2 ^ 24 + (s2 - 1) * 2 ^ 16 + (s1 - 1) * 2 ^ 8 + (prop - 1)) := by
  have e1 : ((prop : Int) - 1) = ((prop - 1 : Nat) : Int) := by omega
  have e2 : ((s1 : Int) - 1) = ((s1 - 1 : Nat) : Int) := by omega
  have e3 : ((s2 : Int) - 1) = ((s2 - 1 : Nat) : Int) := by omega
  have e4 : ((sjw : Int) - 1) = ((sjw - 1 : Nat) : Int) := by omega
  apply BitVec.eq_of_toNat_eq
  simp only [res1Word, toNat_concat, e1, e2, e3, e4, BitVec.ofInt_natCast, BitVec.toNat_ofNat]
  omega

end Sys2Proof.Laws
end

