-- ==== Sys2Proof/Laws/Frame.lean ====
section
/-! SUPPORT. Which registers each shared operation leaves unchanged, and how such frames are put together. -/

namespace Sys2Proof.Laws

open Sys2Proof.Machine

theorem Unchanged.refl (rs : List Reg) (s : State) : Unchanged rs s s := ⟨fun _ _ => rfl, rfl, rfl, rfl⟩

/-- A frame holds for any larger list of registers. -/
theorem Unchanged.mono {rs rs' : List Reg} {s t : State} (h : Unchanged rs s t) (hs : ∀ r ∈ rs, r ∈ rs') :
    Unchanged rs' s t :=
  ⟨fun r hr => h.1 r fun h' => hr (hs r h'), h.2⟩

theorem Unchanged.trans {rs : List Reg} {s t u : State} (h : Unchanged rs s t) (h' : Unchanged rs t u) :
    Unchanged rs s u := by
  obtain ⟨h1, h2, h3, h4⟩ := h
  obtain ⟨k1, k2, k3, k4⟩ := h'
  exact ⟨fun r hr => (k1 r hr).trans (h1 r hr), k2.trans h2, k3.trans h3, k4.trans h4⟩

theorem Unchanged.set (s : State) (r : Reg) (v : Word) : Unchanged [r] s (s.set r v) :=
  ⟨fun q hq => get_set_ne s r q v (by simpa using hq), set_cfg s r v, set_pending s r v, set_reply s r v⟩

theorem Unchanged.refuse (s : State) : Unchanged [.status] s (refuse s) := Unchanged.set s .status _

theorem Unchanged.fatalEntry (s : State) (cls : ErrClass) (param : ErrParam) (ctrl : BitVec 8) (value : Int)
    (lo hi : Nat) :
    Unchanged [.status, .errCode, .errValue, .errLo, .errHi] s (fatalEntry s cls param ctrl value lo hi) := by
  refine ⟨?_, by simp, by simp, by simp⟩
  intro r hr
  simp only [List.mem_cons, List.not_mem_nil, or_false, not_or] at hr
  simp [get_fatalEntry, hr]

/-- The frame of the four resolver commands (R59). -/
theorem Unchanged.resolveFrame (s : State) (f : State → Resolution) :
    Unchanged timingErrorRegs s (resolveFrame f s) := by
  rcases resolveFrame_cases s f with ⟨_, h⟩ | ⟨c, _, _, h⟩
  · rw [h]
    refine ⟨?_, resolveDeliver_own s (f s) (f s).result⟩
    intro r hr
    simp only [timingErrorRegs, List.mem_cons, List.not_mem_nil, or_false, not_or] at hr
    simp [get_resolveDeliver, hr]
  · rw [h]
    refine ⟨?_, resolveFailure_own s (f s) c.param c.value c.lo c.hi⟩
    intro r hr
    simp only [timingErrorRegs, List.mem_cons, List.not_mem_nil, or_false, not_or] at hr
    simp [get_resolveFailure, hr]

theorem Unchanged.allocBegin (s : State) (keepmax : Bool) :
    Unchanged [.acur, .astat, .aaddr, .aidx, .status, .amax] s (allocBegin keepmax s) := by
  refine ⟨?_, allocBegin_own s keepmax⟩
  intro r hr
  simp only [List.mem_cons, List.not_mem_nil, or_false, not_or] at hr
  simp [get_allocBegin, hr]

theorem Unchanged.allocFail (s : State) (f : CapacityFailure) :
    Unchanged [.errCode, .errValue, .errLo, .errHi, .astat, .aaddr, .aidx, .status] s (allocFail s f) := by
  refine ⟨?_, allocFail_own s f⟩
  intro r hr
  simp only [List.mem_cons, List.not_mem_nil, or_false, not_or] at hr
  simp [get_allocFail, hr]

theorem Unchanged.allocAssign (s : State) (p : Slot) :
    Unchanged [.aaddr, .aidx, .status, .acur, .astat, .amax] s (allocAssign s p) := by
  refine ⟨?_, allocAssign_own s p⟩
  intro r hr
  simp only [List.mem_cons, List.not_mem_nil, or_false, not_or] at hr
  simp [get_allocAssign, hr]

end Sys2Proof.Laws
end

