-- ==== Sys2Proof/Laws/OrderFilter.lean ====
section
/-! SUPPORT. What the comparison of two keys can give, and what the filter commands leave in each register
(spec/43_order_filter.md R121, R124, R129). -/

namespace Sys2Proof.Laws

open Sys2Proof.Machine

/-- A key is not both smaller than another and equal to it. -/
theorem not_lt_and_eq (a b : Key) : ¬(a.lt b = true ∧ a.eq b = true) := by
  rintro ⟨h1, h2⟩
  simp only [Key.lt, Key.eq, Bool.or_eq_true, Bool.and_eq_true, decide_eq_true_eq] at h1 h2
  obtain ⟨⟨ht, hc⟩, hm⟩ := h2
  rw [ht, hc, hm] at h1
  omega

/-- The three words ORD can be. -/
theorem ordWord_eq (a b : Key) : ordWord a b = if a.lt b then 3#32 else if a.eq b then 5#32 else 0#32 := by
  have h := not_lt_and_eq a b
  unfold ordWord
  cases h1 : a.lt b <;> cases h2 : a.eq b <;> simp_all

/-- The count goes up by one and stays at 65535 (R124). -/
theorem fltCount_countEntry (s : State) : (countEntry s).fltCount = min (s.fltCount + 1) 65535 := by
  rw [State.fltCount, countEntry, get_set_self, field_setField_same _ _ _ (by decide), BitVec.toNat_ofNat]
  omega

/-- FLT_ENC, register by register (R124). -/
theorem get_fltEnc (s : State) (r : Reg) :
    (fltEnc s).get r =
      if r = .fltCnt then setField (s.get .fltCnt) 0 (BitVec.ofNat 16 (min (s.fltCount + 1) 65535))
      else if r = .fltMaskOut then (encodeFilter s.fltMode (s.get .fltId) (s.get .fltMask) s.fltExt).2
      else if r = .fltIdOut then (encodeFilter s.fltMode (s.get .fltId) (s.get .fltMask) s.fltExt).1
      else s.get r := by
  simp only [fltEnc, countEntry, get_set, State.fltCount]
  rfl

theorem fltEnc_own (s : State) :
    (fltEnc s).cfg = s.cfg ∧ (fltEnc s).pending = s.pending ∧ (fltEnc s).reply = s.reply := by
  simp [fltEnc, countEntry]

/-- What FLT_END can do where it is not blocked (R129). -/
theorem fltEnd_cases (s : State) :
    (s.fltCount = s.filterCount ∧ fltEnd s = s) ∨
    (s.fltCount ≠ s.filterCount ∧ fltEnd s = raiseCountMismatch s s.fltCount s.filterCount) := by
  by_cases h : s.fltCount = s.filterCount
  · exact .inl ⟨h, by simp [fltEnd, h]⟩
  · exact .inr ⟨h, by simp [fltEnd, h]⟩

end Sys2Proof.Laws
end

