-- ==== Sys2Proof/Laws/PerInstr.lean ====
section
/-! SUPPORT. A fact of every command as syntax, one lemma per constructor: its word is the one of its row of
spec/30_encoding.md R54. -/

namespace Sys2Proof.Laws.EncodeMatchesRow

/-- The word of a command matches a row of the opcode map that bears its mnemonic, and no other row. -/
def Statement (i : Instr) : Prop :=
  (opcodeMap.filter (fun row => row.matches (encode i))).map (fun row => row.mnemonic) = [i.mnemonic]

theorem nop : Statement .nop := by unfold Statement; decide
theorem resolveClassic : Statement .resolveClassic := by unfold Statement; decide
theorem resolveAuto : Statement .resolveAuto := by unfold Statement; decide
theorem resolveFd : Statement .resolveFd := by unfold Statement; decide
theorem resolveCbt : Statement .resolveCbt := by unfold Statement; decide
theorem allocBegin (keepmax : Bool) : Statement (.allocBegin keepmax) := by
  unfold Statement
  cases keepmax <;> decide
theorem allocNext : Statement .allocNext := by unfold Statement; decide
theorem allocEnd : Statement .allocEnd := by unfold Statement; decide
theorem mapIndex : Statement .mapIndex := by unfold Statement; decide
theorem ordCmp : Statement .ordCmp := by unfold Statement; decide
theorem fltBegin : Statement .fltBegin := by unfold Statement; decide
theorem fltEnc : Statement .fltEnc := by unfold Statement; decide
theorem fltEnd : Statement .fltEnd := by unfold Statement; decide
theorem clr : Statement .clr := by unfold Statement; decide

end Sys2Proof.Laws.EncodeMatchesRow
end

