-- ==== Sys2Proof/Laws/Step.lean ====
section
/-! SUPPORT. What one step of the machine can do, by its next input (spec/20_memory.md R42, R43, R46, R49). -/

namespace Sys2Proof.Laws

open Sys2Proof.Machine

/-- Every command ends in a next state: refusal and fatal errors are next states too (R143, R146). -/
theorem exec_next (i : Instr) (s : State) : ∃ t, exec i s = .next t := by
  have h : ∀ k : State → State, ∃ t, blocking s k = .next t := by
    intro k
    unfold blocking
    split <;> exact ⟨_, rfl⟩
  cases i
  case nop => exact ⟨s, rfl⟩
  case clr => exact ⟨clearErrors s, rfl⟩
  all_goals exact h _

/-- What each command does where no fatal error is latched. -/
def commandEffect : Instr → State → State
  | .nop => id
  | .resolveClassic => resolveFrame classicResolution
  | .resolveAuto => resolveFrame autoResolution
  | .resolveFd => resolveFrame fdResolution
  | .resolveCbt => resolveFrame cbtResolution
  | .allocBegin keepmax => allocBegin keepmax
  | .allocNext => allocNext
  | .allocEnd => allocEnd
  | .mapIndex => mapIndex
  | .ordCmp => ordCmp
  | .fltBegin => fltBegin
  | .fltEnc => fltEnc
  | .fltEnd => fltEnd
  | .clr => clearErrors

/-- A command with no fatal error latched has its effect. -/
theorem exec_of_clear (i : Instr) {s : State} (h : s.flag .fatal = false) : exec i s = .next (commandEffect i s) := by
  cases i
  case nop => rfl
  case clr => rfl
  all_goals exact blocking_of_clear h

/-- A command with a fatal error latched is refused, but for NOP and CLR (R147). -/
theorem exec_of_fatal {i : Instr} {s : State} (h : s.flag .fatal = true) (hn : i ≠ .nop) (hc : i ≠ .clr) :
    exec i s = .next (refuse s) := by
  cases i
  case nop => exact absurd rfl hn
  case clr => exact absurd rfl hc
  all_goals exact blocking_of_fatal h

theorem withPending_set (s : State) (es : List HostEvent) (r : Reg) (v : Word) :
    (s.withPending es).set r v = (s.set r v).withPending es := by cases r <;> rfl

variable {s : State} {es : List HostEvent}

theorem step_idle (h : s.pending = []) : step s = .next (s.answer .idle) := by
  simp [step, machineStep, h]

theorem step_reset (h : s.pending = .reset :: es) : step s = .next (hardReset (s.withPending es)) := by
  simp [step, machineStep, h, busCycle]

theorem step_read {addr n : Nat} (h : s.pending = .read addr n :: es) (ha : accessLegal addr n = true) :
    step s = .next ((s.withPending es).answer (.data (windowWord (s.withPending es) addr))) := by
  simp [step, machineStep, h, busCycle, memRead, checkAccess_eq, ha]

theorem step_read_illegal {addr n : Nat} (h : s.pending = .read addr n :: es) (ha : accessLegal addr n = false) :
    step s = .next ((s.withPending es).answer (.fault (.busError addr n))) := by
  simp [step, machineStep, h, busCycle, memRead, checkAccess_eq, ha]

theorem step_write_illegal {addr n : Nat} {v : Word} (h : s.pending = .write addr n v :: es)
    (ha : accessLegal addr n = false) : step s = .next ((s.withPending es).answer (.fault (.busError addr n))) := by
  simp [step, machineStep, h, busCycle, checkAccess_eq, ha]

theorem step_write {addr n : Nat} {v : Word} (h : s.pending = .write addr n v :: es)
    (ha : accessLegal addr n = true) (h0 : addr ≠ 0x00) :
    step s = .next ((windowWrite (s.withPending es) addr v).answer .ack) := by
  have h0' : ¬addr = Reg.offset .cmd := h0
  simp [step, machineStep, h, busCycle, checkAccess_eq, ha, writeWord, h0', answerNext]

theorem step_write_cmd {w : Word} (h : s.pending = .write 0x00 4 w :: es) :
    step s = answerNext (runCommand w ((s.withPending es).set .cmd w)) .ack := by
  have ha : accessLegal 0 4 = true := rfl
  have hc : (0 : Nat) = Reg.offset .cmd := rfl
  simp only [step, machineStep, h, busCycle, checkAccess_eq, ha, writeWord, if_true, if_pos hc, windowWrite_cmd]

theorem step_command {w : Word} {i : Instr} (h : s.pending = .write 0x00 4 w :: es) (hd : decode w = .ok i) :
    step s = answerNext (exec i ((s.withPending es).set .cmd w)) .ack := by
  rw [step_write_cmd h, runCommand, hd]

theorem step_illegal_word {w : Word} {e : DecodeError} (h : s.pending = .write 0x00 4 w :: es)
    (hd : decode w = .error e) : step s = .next ((refuse ((s.withPending es).set .cmd w)).answer .ack) := by
  rw [step_write_cmd h, runCommand, hd]
  rfl

/-- The only legal width is 4 (R46). -/
theorem accessLegal_width {addr n : Nat} (h : accessLegal addr n = true) : n = 4 := by
  simp only [accessLegal, Bool.and_eq_true, decide_eq_true_eq] at h
  exact h.1.1

/-- Everything a step can do: nothing but an answer, a reset, an operand write, a refused word, or one command. -/
theorem step_cases {t : State} (h : step s = .next t) :
    (∃ a, t = (s.withPending s.pending.tail).answer a ∧ (∀ es', s.pending ≠ .reset :: es') ∧
      ∀ es' w, s.pending ≠ .write 0x00 4 w :: es') ∨
    (∃ es, s.pending = .reset :: es ∧ t = hardReset (s.withPending es)) ∨
    (∃ es addr v, s.pending = .write addr 4 v :: es ∧ addr ≠ 0x00 ∧
      t = (windowWrite (s.withPending es) addr v).answer .ack) ∨
    (∃ es w e, s.pending = .write 0x00 4 w :: es ∧ decode w = .error e ∧
      t = (refuse ((s.withPending es).set .cmd w)).answer .ack) ∨
    (∃ es w i u, s.pending = .write 0x00 4 w :: es ∧ decode w = .ok i ∧
      exec i ((s.withPending es).set .cmd w) = .next u ∧ t = u.answer .ack) := by
  cases hp : s.pending with
  | nil =>
    rw [step_idle hp] at h
    injection h with h
    refine .inl ⟨.idle, ?_, by simp, by simp⟩
    rw [← h]
    apply state_ext <;> simp [hp]
  | cons e es =>
    cases e with
    | reset =>
      rw [step_reset hp] at h
      injection h with h
      exact .inr (.inl ⟨es, rfl, h.symm⟩)
    | read addr n =>
      refine .inl ?_
      by_cases ha : accessLegal addr n = true
      · rw [step_read hp ha] at h
        injection h with h
        exact ⟨_, h.symm, by simp, by simp⟩
      · rw [step_read_illegal hp (by simpa using ha)] at h
        injection h with h
        exact ⟨_, h.symm, by simp, by simp⟩
    | write addr n v =>
      by_cases ha : accessLegal addr n = true
      · have hn := accessLegal_width ha
        subst hn
        by_cases h0 : addr = 0x00
        · subst h0
          cases hd : decode v with
          | error er =>
            rw [step_illegal_word hp hd] at h
            injection h with h
            exact .inr (.inr (.inr (.inl ⟨es, v, er, rfl, hd, h.symm⟩)))
          | ok i =>
            obtain ⟨u, hu⟩ := exec_next i ((s.withPending es).set .cmd v)
            rw [step_command hp hd, hu] at h
            injection h with h
            exact .inr (.inr (.inr (.inr ⟨es, v, i, u, rfl, hd, hu, h.symm⟩)))
        · rw [step_write hp ha h0] at h
          injection h with h
          exact .inr (.inr (.inl ⟨es, addr, v, rfl, h0, h.symm⟩))
      · refine .inl ?_
        rw [step_write_illegal hp (by simpa using ha)] at h
        injection h with h
        refine ⟨_, h.symm, by simp, ?_⟩
        intro es' w e
        injection e with e1 e2
        injection e1 with e3 e4 e5
        subst e3; subst e4
        exact ha rfl

end Sys2Proof.Laws
end

