-- ==== Sys2Proof/Tests/Slice0.lean ====
section
/-! SUPPORT. Named tests: what the well-formedness checks refuse, the command words written out from
spec/30_encoding.md R54, single steps against the vectors of spec/95_test_vectors.md and
spec/96_test_vectors_alloc_filter.md (named in each docstring), and for every statement with hypotheses a witness that
meets them. -/

namespace Sys2Proof.Tests

open Sys2Proof Sys2Proof.Machine

/-! ### Helpers -/

/-- The reset state with some registers loaded. -/
def load (rs : List (Reg × Word)) : State := rs.foldl (fun s r => s.set r.1 r.2) State.reset

/-- The named registers after one command, if it answers a next state. -/
def regsAfter (i : Instr) (s : State) (rs : List Reg) : Option (List Word) :=
  match exec i s with
  | .next t => some (rs.map t.get)
  | .fault _ => none
  | .refused _ => none

/-- The named registers and the answer after one step whose next input is `e`. -/
def afterInput (e : HostEvent) (s : State) (rs : List Reg) : Option (List Word × Reply) :=
  match step (s.withPending [e]) with
  | .next t => some (rs.map t.get, t.reply)
  | .fault _ => none
  | .refused _ => none

/-- `SEGS` from `PROP_SEG, SEG1, SEG2, SJW`, the notation of the vectors. -/
def segs (prop seg1 seg2 sjw : BitVec 8) : Word := sjw ++ seg2 ++ seg1 ++ prop

/-- `RATE` from `BAUD_KHZ, PRESC`. -/
def rate (baud presc : BitVec 16) : Word := presc ++ baud

/-! ### Well-formedness: an ill-formed term for each check -/

/-- Width (R46). -/
theorem test_access_width_refused : accessLegal 0x04 2 = false := by decide
/-- Alignment (R46). -/
theorem test_access_alignment_refused : accessLegal 0x06 4 = false := by decide
/-- Range (R46); 0xFC is the last legal offset. -/
theorem test_access_range_refused : accessLegal 0x100 4 = false ∧ accessLegal 0xFC 4 = true := by decide
theorem test_read_event_refused : HostEvent.wf (.read 0x06 4) = false := by decide
theorem test_write_event_refused : HostEvent.wf (.write 0x00 1 0x7F#32) = false := by decide
/-- "must be ≥ 72" (R6). -/
theorem test_config_region_size_refused :
    Config.wf { Config.standard with regionSize := 71 } = false ∧ Config.standard.wf = true := by decide
theorem test_config_base_refused : Config.wf { Config.standard with mbBase := 0xFFFF0001 } = false := by decide
/-- An operand that another command has no bit for is refused by the decoder, the only way to an `Instr` (R55, W10). -/
theorem test_modifier_refused : decode 0x00000101#32 = .error .modifierNotAllowed := by decide

/-! ### Decoding: words written out bit by bit from R53 and R54 -/

theorem test_decode_nop : decode 0b00000000000000000000000000000000#32 = .ok .nop := by decide
theorem test_decode_resolveClassic : decode 0b00000000000000000000000000000001#32 = .ok .resolveClassic := by decide
theorem test_decode_resolveAuto : decode 0b00000000000000000000000000000010#32 = .ok .resolveAuto := by decide
theorem test_decode_resolveFd : decode 0b00000000000000000000000000000011#32 = .ok .resolveFd := by decide
theorem test_decode_resolveCbt : decode 0b00000000000000000000000000000100#32 = .ok .resolveCbt := by decide
theorem test_decode_allocBegin : decode 0b00000000000000000000000000010000#32 = .ok (.allocBegin false) := by decide
theorem test_decode_allocBegin_keepmax : decode 0b00000000000000000000000100010000#32 = .ok (.allocBegin true) := by
  decide
theorem test_decode_allocNext : decode 0b00000000000000000000000000010001#32 = .ok .allocNext := by decide
theorem test_decode_allocEnd : decode 0b00000000000000000000000000010010#32 = .ok .allocEnd := by decide
theorem test_decode_mapIndex : decode 0b00000000000000000000000000010011#32 = .ok .mapIndex := by decide
theorem test_decode_ordCmp : decode 0b00000000000000000000000000100000#32 = .ok .ordCmp := by decide
theorem test_decode_fltBegin : decode 0b00000000000000000000000000110000#32 = .ok .fltBegin := by decide
theorem test_decode_fltEnc : decode 0b00000000000000000000000000110001#32 = .ok .fltEnc := by decide
theorem test_decode_fltEnd : decode 0b00000000000000000000000000110010#32 = .ok .fltEnd := by decide
theorem test_decode_clr : decode 0b00000000000000000000000001111111#32 = .ok .clr := by decide

/-- W2 to W9: the unassigned codes next to assigned ones. -/
theorem test_decode_unassigned :
    [0x05#32, 0x0F#32, 0x14#32, 0x21#32, 0x33#32, 0x7E#32, 0x80#32, 0xFF#32].map decode =
      List.replicate 8 (.error .unassignedOpcode) := by decide
/-- W12, W14. -/
theorem test_decode_reserved_bits :
    [0x00000210#32, 0x80000001#32].map decode = List.replicate 2 (.error .reservedBitsSet) := by decide

/-- The rows of the opcode map do not overlap (R54). -/
theorem test_opcodeMap_disjoint :
    opcodeMap.Pairwise fun a b => (a.pattern ^^^ b.pattern) &&& a.mask &&& b.mask ≠ 0#32 := by decide

theorem test_decodeTableWord : decodeTableWord 32 0x110 = some (.allocBegin true) ∧ decodeTableWord 32 0x5 = none := by
  decide

/-- The byte lanes of R45: bits 7:0 at the lowest address. -/
theorem test_wordBytes : wordBytes 0x11223344#32 = [0x44#8, 0x33#8, 0x22#8, 0x11#8] := by decide

/-- A step from reset runs the word placed as the next write to CMD (M1: after ALLOC_BEGIN ASTAT is 4 and ACUR 0x80). -/
theorem test_withFetchWord :
    (match step (State.reset.withFetchWord 32 0x10) with
      | .next t => some (t.astat, t.acur, t.cmd, t.reply)
      | .fault _ => none
      | .refused _ => none) = some (0x00000004#32, 0x00000080#32, 0x00000010#32, .ack) := by decide

/-! ### The port -/

/-- Q1: ASTAT at offset 0x68 reads 3 after reset. -/
theorem test_read_astat_reset : afterInput (.read 0x68 4) State.reset [] = some ([], .data 0x00000003#32) := by decide
/-- Q1: a reserved offset reads 0. -/
theorem test_read_reserved : afterInput (.read 0x1C 4) State.reset [] = some ([], .data 0#32) := by decide
/-- Q3: reserved fields ignore the write. -/
theorem test_write_reserved_field :
    afterInput (.write 0x34 4 0xFFFFFFFF#32) State.reset [.tctl] = some ([0x000001FF#32], .ack) := by decide
/-- Q2: a read-only register ignores the write. -/
theorem test_write_readonly :
    afterInput (.write 0x68 4 0#32) State.reset [.astat] = some ([0x00000003#32], .ack) := by decide
/-- R46, V6: a bus error leaves CMD and STATUS. -/
theorem test_bus_error :
    afterInput (.write 0x00 2 0x10#32) State.reset [.cmd, .status] =
      some ([0#32, 0#32], .fault (.busError 0x00 2)) := by decide
/-- W11: an illegal word is stored in CMD and sets CMDERR only. -/
theorem test_illegal_word :
    afterInput (.write 0x00 4 0x00000111#32) State.reset [.cmd, .status, .astat] =
      some ([0x00000111#32, 0x00000004#32, 0x00000003#32], .ack) := by decide
/-- R160, R161: RESET clears an operand register and restores ASTAT. -/
theorem test_reset_pin :
    afterInput .reset (load [(.clkHz, 8000000#32), (.astat, 0x4#32)]) [.clkHz, .astat] =
      some ([0#32, 0x00000003#32], .idle) := by decide
/-- R58: LDSEGS 7, 4, 4, 4 is the write of program P1, line 3. -/
theorem test_ldsegs : (AsmLine.ldsegs 7 4 4 4).expand = [.write 0x28 4 0x04040407#32] := by decide

/-! ### The resolver -/

/-- T1's operands. -/
def t1 : State := load [(.clkHz, 8000000#32), (.rate, rate 500 1), (.segs, segs 7 4 4 4), (.tctl, 0x120#32)]

/-- T1. -/
theorem test_classic_T1 :
    regsAfter .resolveClassic t1 [.tqClock, .tqUser, .status, .res0, .res1] =
      some [16#32, 16#32, 0x00000001#32, 0x01010000#32, 0x03030306#32] := by decide
/-- T5: the ratio check for 33 mailboxes; ERR_HI has no upper bound. -/
theorem test_classic_T5 :
    regsAfter .resolveClassic
        (load [(.clkHz, 8000000#32), (.rate, rate 1000 1), (.segs, segs 3 2 2 1), (.tctl, 33#32)])
        [.status, .errCode, .errValue, .errLo, .errHi, .res0] =
      some [0x00000002#32, 0x00000107#32, 8#32, 16#32, 0xFFFFFFFF#32, 0#32] := by decide

/-- A7's operands, at every upper bound. -/
def a7 : State := load [(.clkHz, 20000000#32), (.rate, rate 100 8), (.phys, rate 100 450), (.tctl, 16#32)]

/-- A7. -/
theorem test_auto_A7 :
    regsAfter .resolveAuto a7 [.tqClock, .tqUser, .status, .res0, .res1] =
      some [25#32, 25#32, 0x00000001#32, 0x02000007#32, 0x03070707#32] := by decide
/-- A5: a negative phase is reported as its two's-complement word. -/
theorem test_auto_A5 :
    regsAfter .resolveAuto
        (load [(.clkHz, 8000000#32), (.rate, rate 1000 1), (.phys, rate 35 131), (.tctl, 16#32)])
        [.status, .errCode, .errValue, .errLo, .errHi] =
      some [0x00000002#32, 0x0000010D#32, 0xFFFFFFFF#32, 2#32, 0xFFFFFFFF#32] := by decide

/-- F9's operands, at the upper bound 48. -/
def f9 : State :=
  load [(.clkHz, 48000000#32), (.rate, rate 1000 1), (.segs, segs 31 8 8 8), (.feat, 0x1#32), (.xpresc, rate 1 1)]

/-- F2: BRS without CBT, another classic prescaler: the warning and the result. -/
theorem test_fd_F2 :
    regsAfter .resolveFd
        (load [(.clkHz, 40000000#32), (.rate, rate 2000 1), (.segs, segs 7 6 6 4), (.feat, 0x5#32),
          (.xpresc, rate 2 0)])
        [.status, .res0, .res1] = some [0x00001001#32, 0x03000000#32, 0x03050506#32] := by decide
/-- F9. -/
theorem test_fd_F9 : regsAfter .resolveFd f9 [.tqClock, .status, .res1] = some [48#32, 0x1#32, 0x0707071E#32] := by decide

/-- B2's operands, at every upper bound. -/
def b2 : State := load [(.clkHz, 64500000#32), (.rate, rate 500 1), (.segs, segs 64 32 32 32)]

/-- B2. -/
theorem test_cbt_B2 :
    regsAfter .resolveCbt b2 [.tqClock, .tqUser, .status, .res0, .res1] =
      some [129#32, 129#32, 0x00000001#32, 0x04000000#32, 0x1F1F1F3F#32] := by decide
/-- B5: CbtSeg1 97, with the mismatch warning recorded before the failure. -/
theorem test_cbt_B5 :
    regsAfter .resolveCbt (load [(.clkHz, 80000000#32), (.rate, rate 500 2), (.segs, segs 50 47 2 1)])
        [.status, .errCode, .errValue, .errLo, .errHi] =
      some [0x00000402#32, 0x00000104#32, 97#32, 4#32, 96#32] := by decide

/-! ### The allocator -/

/-- An open pass of a classic controller with 512 bytes and 32 mailboxes (M1), before its first slot. -/
def opened : State :=
  load [(.acfg, 0x00000100#32), (.alim, 0x00200200#32), (.astat, 0x00000004#32), (.acur, 0x00000080#32)]

/-- M1 after its 32nd slot: memory is full, the cursor on a region boundary. -/
def full : State :=
  load [(.acfg, 0x00000100#32), (.alim, 0x00200200#32), (.astat, 0x00000000#32), (.acur, 0x00000280#32),
    (.amax, 0x00000020#32), (.aaddr, 0x00000270#32), (.aidx, 0x0008001F#32), (.status, 0x00000008#32)]

/-- M7: KEEPMAX keeps AMAX. -/
theorem test_allocBegin_M7 :
    regsAfter (.allocBegin true) full [.astat, .acur, .amax, .aaddr, .status] =
      some [0x00000004#32, 0x00000080#32, 0x00000020#32, 0#32, 0#32] := by decide
/-- M5 with 8 filters: eight slots are reserved before the first one reported. -/
theorem test_allocNext_M5 :
    regsAfter .allocNext
        (load [(.feat, 0x8#32), (.acfg, 0x00080000#32), (.alim, 0x00200200#32), (.astat, 0x4#32), (.acur, 0x80#32)])
        [.aaddr, .aidx, .astat, .acur, .amax, .status] =
      some [0x00000100#32, 0x00080008#32, 0x00000801#32, 0x00000110#32, 0x00000009#32, 0x00000008#32] := by decide
/-- M1, the 33rd slot: CapacityExceeded with cause C_MEM for controller 1. -/
theorem test_allocNext_M1_full :
    regsAfter .allocNext full [.aaddr, .astat, .acur, .amax, .status, .errCode, .errValue, .errLo, .errHi] =
      some [0#32, 0x00000002#32, 0x00000280#32, 0x00000020#32, 0x00000002#32, 0x00010320#32, 528#32, 0#32, 512#32] := by
  decide
/-- M6 (source example S2): the slot that would straddle a region boundary is moved to the next region. -/
theorem test_place_M6 :
    place (load [(.alim, 0x00FF1000#32)]).allocEnv 0x27C =
      .ok { address := 0x280, index := 32, plen := 8, next := 0x290 } := by decide
/-- M7: ALLOC_END on the empty pass keeps FIRST. -/
theorem test_allocEnd_M7 : regsAfter .allocEnd opened [.astat, .status] = some [0x00000007#32, 0#32] := by decide
/-- M1: ALLOC_END in REGION_EXHAUSTED is refused. -/
theorem test_allocEnd_refused :
    regsAfter .allocEnd (load [(.astat, 0x00000002#32)]) [.astat, .status] =
      some [0x00000002#32, 0x00000004#32] := by decide
/-- Y4: the unused tail of region 0. -/
theorem test_mapIndex_Y4 :
    regsAfter .mapIndex (load [(.feat, 0x1#32), (.acfg, 0x3#32), (.mapin, 0x278#32)]) [.mapout, .status] =
      some [0x00400007#32, 0#32] := by decide
/-- Z7: the last slot of region 2 under the per-region policy. -/
theorem test_mapIndex_Z7 :
    regsAfter .mapIndex (load [(.feat, 0x11#32), (.acfg, 0x1C#32), (.mapin, 0x670#32)]) [.mapout] =
      some [0x8008003B#32] := by decide

/-! ### Ordering, filters, the rest -/

/-- O8. -/
theorem test_ordCmp_O8 :
    regsAfter .ordCmp (load [(.keyaTc, 0x0000FF00#32), (.keyaId, 0xFFFFFFFF#32), (.keybTc, 0x00000001#32)]) [.ord] =
      some [0x00000003#32] := by decide
/-- O4. -/
theorem test_ordCmp_O4 :
    regsAfter .ordCmp (load [(.keyaTc, 0x00000100#32), (.keybId, 0xFFFFFFFF#32)]) [.ord] = some [0#32] := by decide
/-- R123: the count is cleared, the outputs stay. -/
theorem test_fltBegin :
    regsAfter .fltBegin (load [(.fltCnt, 7#32), (.fltIdOut, 5#32)]) [.fltCnt, .fltIdOut] = some [0#32, 5#32] := by decide
/-- E5: an id wider than 11 bits, truncated after the shift. -/
theorem test_fltEnc_E5 :
    regsAfter .fltEnc (load [(.fltId, 0xFFF#32), (.fltMask, 0x1FFF#32)]) [.fltIdOut, .fltMaskOut, .fltCnt] =
      some [0x7FF80000#32, 0xFFF80000#32, 1#32] := by decide
/-- E6. -/
theorem test_fltEnc_E6 :
    regsAfter .fltEnc (load [(.fltcfg, 4#32), (.fltId, 0x18DAF110#32), (.fltMask, 0x1FFFFFFF#32)])
        [.fltIdOut, .fltMaskOut] = some [0x31B5E220#32, 0xFFFFFFFE#32] := by decide
/-- L2. -/
theorem test_fltEnd_L2 :
    regsAfter .fltEnd (load [(.acfg, 0x00080200#32), (.fltCnt, 7#32)])
        [.status, .errCode, .errValue, .errLo, .errHi] =
      some [0x00000002#32, 0x00020530#32, 7#32, 8#32, 8#32] := by decide
/-- W1: NOP stores its word and nothing else. -/
theorem test_nop :
    afterInput (.write 0x00 4 0#32) (load [(.cmd, 5#32), (.status, 2#32)]) [.cmd, .status] =
      some ([0#32, 2#32], .ack) := by decide
/-- Q4: CLR clears STATUS and the error record and leaves RES0. -/
theorem test_clr :
    regsAfter .clr (load [(.status, 0x103#32), (.errCode, 0x104#32), (.errHi, 16#32), (.res0, 0x01000000#32)])
        [.status, .errCode, .errHi, .res0] = some [0#32, 0#32, 0#32, 0x01000000#32] := by decide

/-! ### Witnesses: for each statement with hypotheses, a state and operands that meet them together -/

/-- `s` with `es` as its input. -/
def withInput (es : List HostEvent) : State := State.reset.withPending es

/-- A state with the fatal error of T8 latched. -/
def latched : State := load [(.status, 0x00000102#32), (.errCode, 0x00000103#32), (.errValue, 26#32), (.errLo, 8#32), (.errHi, 25#32)]

/-- M5's operands with the pass open. -/
def fifoOpened : State :=
  load [(.feat, 0x8#32), (.acfg, 0x00080000#32), (.alim, 0x00200200#32), (.astat, 0x4#32), (.acur, 0x80#32)]

/-- A pass of a classic controller whose cursor a slot would straddle the region's end from (S2). -/
def straddling : State := load [(.alim, 0x00FF1000#32), (.astat, 0x1#32), (.acur, 0x27C#32)]

theorem witness_DecoderFollowsOpcodeMap :
    decode 0x00000110#32 = .ok (.allocBegin true) ∧ 0x00000110#32 &&& 0xFFFFFEFF#32 = 0x00000010#32 := by decide

/-- One word for each of R55's three reasons. -/
theorem witness_IllegalWordOnlySetsCmderr :
    decode 0x00000080#32 = .error .unassignedOpcode ∧ decode 0x00000200#32 = .error .reservedBitsSet ∧
    decode 0x00000111#32 = .error .modifierNotAllowed ∧
    (withInput [.write 0x00 4 0x00000111#32]).pending = [.write 0x00 4 0x00000111#32] := by decide

theorem witness_StepRunsDecodedCommand :
    (withInput [.write 0x00 4 0x7F#32]).pending = [.write 0x00 4 0x7F#32] ∧ decode 0x7F#32 = .ok .clr ∧
      Instr.clr.wf = true := by decide

/-- Width, alignment, range: reads and writes. -/
theorem witness_IllegalAccessChangesNothing :
    (2 ≠ 4 ∧ (withInput [.read 0x00 2]).pending = [.read 0x00 2]) ∧
    (0x02 % 4 ≠ 0 ∧ (withInput [.write 0x02 4 1#32]).pending = [.write 0x02 4 1#32]) ∧
    (0xFF < 0x100 ∧ (withInput [.read 0x100 4]).pending = [.read 0x100 4]) := by decide

/-- The last register's offset, the last reserved offset, the first offset outside. -/
theorem witness_ReadReturnsRegister :
    (withInput [.read 0xB4 4]).pending = [.read 0xB4 4] ∧ Reg.fltCnt.offset = 0xB4 ∧
    Reg.ofOffset 0xFC = none ∧ ¬(0x100 ≤ 0xFC) := by decide

theorem witness_WriteReplacesWritableFields :
    (0x04 % 4 = 0 ∧ 0x04 ≤ 0xFC ∧ 0x04 ≠ 0x00 ∧ (withInput [.write 0x04 4 1#32]).pending = [.write 0x04 4 1#32]) ∧
    (0xFC % 4 = 0 ∧ 0xFC ≤ 0xFC ∧ 0xFC ≠ 0x00 ∧ (withInput [.write 0xFC 4 1#32]).pending = [.write 0xFC 4 1#32]) := by
  decide

/-- Q3's FEAT at a register's offset, and an offset that is no register's. -/
theorem witness_RegisterMapOffsets :
    (windowWrite State.reset Reg.feat.offset 0xFFFFFFFF#32).get .feat = 0x0000001F#32 ∧ Reg.ofOffset 0x1C = none := by
  decide

/-- R58's expansion of ALLOC_OBJ, at both ends of its repetitions. -/
theorem witness_PseudoInstructionsLoadOperands :
    (0 < 2 ∧ 1 < 2) ∧ (AsmLine.allocObj 2).expand =
      [.write 0x00 4 0x00000011#32, .read 0x60 4, .read 0x64 4,
       .write 0x00 4 0x00000011#32, .read 0x60 4, .read 0x64 4] := by decide

theorem witness_RegistersChangeOnlyByWrites :
    ∀ s ∈ [withInput [], withInput [.read 0x00 4], withInput [.write 0x00 2 1#32]],
      (¬∃ es addr v, s.pending = .write addr 4 v :: es) ∧ ¬∃ es, s.pending = .reset :: es := by
  simp [withInput, State.withPending]

theorem witness_ResetPinRestoresResetValues : (withInput [.reset, .read 0x04 4]).pending = [.reset, .read 0x04 4] := by
  decide

theorem witness_NopOnlyStoresWord : (withInput [.write 0x00 4 0#32]).pending = [.write 0x00 4 0x00000000#32] := by decide

theorem witness_FatalBlocksCommands :
    (latched.withPending [.read Reg.errCode.offset 4]).flag .fatal = true ∧
    (latched.withPending [.write Reg.rate.offset 4 1#32]).flag .fatal = true ∧ Reg.rate.writable = true ∧
    Reg.rate ≠ .cmd ∧ Instr.allocNext ≠ .nop ∧ Instr.allocNext ≠ .clr := by decide

/-- A sticky warning across a read. -/
theorem witness_StickyFlagsStaySet :
    StatusFlag.wTqClassic ≠ .valid ∧ StatusFlag.wTqClassic ≠ .avalid ∧
    (latched.withPending [.read 0x04 4]).flag .wTqClassic = true ∧
    step (latched.withPending [.read 0x04 4]) =
      .next ((latched.withPending []).answer (.data 0x00000102#32)) := by
  refine ⟨by decide, by decide, by decide, rfl⟩

/-- A refused command keeps the record. -/
theorem witness_FatalRecordKept :
    latched.flag .fatal = true ∧
    step (latched.withPending [.write 0x00 4 0x11#32]) = .next ((refuse (latched.set .cmd 0x11#32)).answer .ack) ∧
    ((refuse (latched.set .cmd 0x11#32)).answer .ack).flag .fatal = true := by
  refine ⟨by decide, rfl, by decide⟩

theorem witness_CommandsWriteOnlyTheirRegisters :
    exec .ordCmp State.reset = .next (State.reset.set .ord 5#32) := rfl

/-- Two states that differ only where ORD_CMP does not read. -/
theorem witness_CommandsReadOnlyTheirOperands :
    State.reset.cfg = (load [(.clkHz, 1#32)]).cfg ∧
    (∀ r ∈ .status :: (commandReads .ordCmp ++ commandWrites .ordCmp),
      State.reset.get r = (load [(.clkHz, 1#32)]).get r) ∧
    exec .ordCmp State.reset = .next (State.reset.set .ord 5#32) ∧
    exec .ordCmp (load [(.clkHz, 1#32)]) = .next ((load [(.clkHz, 1#32)]).set .ord 5#32) := by
  refine ⟨by decide, by decide, rfl, rfl⟩

theorem witness_TqClockIsRoundedQuotient : t1.flag .fatal = false ∧ t1.baud * 1000 * t1.presc = 500000 := by decide

/-- T6, 32 mailboxes at the lower bounds 8, and T9, 64 mailboxes at the upper bounds. -/
theorem witness_ClassicSucceeds :
    let low := load [(.clkHz, 8000000#32), (.rate, rate 1000 1), (.segs, segs 2 2 3 1), (.tctl, 32#32)]
    let high := load [(.clkHz, 25000000#32), (.rate, rate 1000 1), (.segs, segs 8 8 8 4), (.tctl, 64#32)]
    (low.flag .fatal = false ∧ low.presc = 1 ∧ low.baud = 1000 ∧ tqClockOf low = 8 ∧ low.propSeg + low.seg1 = 4 ∧
      tqUserOf low = 8 ∧ low.mbCnt = 32 ∧ low.propSeg = 2 ∧ low.seg2 = 3 ∧ low.sjw = 1) ∧
    (high.flag .fatal = false ∧ high.presc = 1 ∧ high.baud = 1000 ∧ tqClockOf high = 25 ∧
      high.propSeg + high.seg1 = 16 ∧ tqUserOf high = 25 ∧ high.mbCnt = 64 ∧ high.propSeg = 8 ∧ high.seg2 = 8 ∧
      high.sjw = 4) := by decide

/-- The place of the first check that fails. -/
def firstFail (q : Resolution) : Nat := q.checks.findIdx fun c => !c.holds

/-- One state for each of the eleven rows: T10, T11, T8, T18, T22, T13, T5, T16, T23, T14, T15. -/
theorem witness_ClassicReportsFirstFailure :
    ([ (8000000#32, rate 1000 0, segs 3 2 2 1, 16#32), (8000000#32, rate 0 1, segs 3 2 2 1, 16#32),
       (26000000#32, rate 1000 1, segs 8 8 8 1, 16#32), (8000000#32, rate 1000 1, segs 1 2 4 1, 16#32),
       (8000000#32, rate 500 1, segs 7 4 14 1, 16#32), (8000000#32, rate 500 1, segs 7 4 4 4, 65#32),
       (8000000#32, rate 1000 1, segs 3 2 2 1, 33#32), (8000000#32, rate 500 1, segs 0 8 7 1, 16#32),
       (8000000#32, rate 500 1, segs 4 0 11 1, 16#32), (8000000#32, rate 500 1, segs 8 7 0 1, 16#32),
       (8000000#32, rate 500 1, segs 7 4 4 0, 16#32) ].map fun v =>
      let s := load [(.clkHz, v.1), (.rate, v.2.1), (.segs, v.2.2.1), (.tctl, v.2.2.2)]
      (s.flag .fatal, firstFail (classicResolution s))) =
    (List.range 11).map fun k => (false, k) := by decide

/-- A10 at the lower bounds, A7 at the upper bounds. -/
theorem witness_AutoSucceeds :
    let low := load [(.clkHz, 8000000#32), (.rate, rate 1000 1), (.phys, rate 0 15), (.tctl, 16#32)]
    (low.flag .fatal = false ∧ low.presc = 1 ∧ low.baud = 1000 ∧ propQuanta low = 0 ∧ tqClockOf low = 8 ∧
      (autoTiming low).phase = 6 ∧ (autoTiming low).propSegment + (autoTiming low).seg1 = 4 ∧ low.mbCnt = 16) ∧
    (a7.flag .fatal = false ∧ a7.presc = 8 ∧ a7.baud = 100 ∧ propQuanta a7 = 7 ∧ tqClockOf a7 = 25 ∧
      (autoTiming a7).phase = 16 ∧ (autoTiming a7).propSegment + (autoTiming a7).seg1 = 16 ∧ a7.mbCnt = 16) := by decide

/-- One state for each row that can be the first to fail: A13, BAUD_KHZ 0, A3, A5, A4, a clock of 6 quanta, A10 with 65
mailboxes, A15. Place 6 (TSEG1) never is: the rows before it leave `prop_segment + seg1` in 4 to 16. -/
theorem witness_AutoReportsFirstFailure :
    ([ (8000000#32, rate 500 0, rate 0 0, 16#32), (8000000#32, rate 0 1, rate 0 0, 16#32),
       (8000000#32, rate 500 1, rate 40 150, 16#32), (8000000#32, rate 1000 1, rate 35 131, 16#32),
       (8000000#32, rate 1000 1, rate 10 100, 16#32), (6000000#32, rate 1000 1, rate 0 0, 16#32),
       (8000000#32, rate 1000 1, rate 0 15, 65#32), (8000000#32, rate 1000 1, rate 0 15, 33#32) ].map fun v =>
      let s := load [(.clkHz, v.1), (.rate, v.2.1), (.phys, v.2.2.1), (.tctl, v.2.2.2)]
      (s.flag .fatal, firstFail (autoResolution s))) =
    [0, 1, 2, 3, 4, 5, 7, 8].map fun k => (false, k) := by decide

/-- F8 at the lower bounds 5, F9 at the upper bounds 48. -/
theorem witness_FdSucceeds :
    let low := load [(.clkHz, 40000000#32), (.rate, rate 8000 1), (.segs, segs 1 2 1 1), (.feat, 1#32)]
    (low.flag .fatal = false ∧ low.presc = 1 ∧ low.baud = 8000 ∧ tqClockOf low = 5 ∧ tqUserOf low = 5 ∧
      low.propSeg = 1 ∧ low.seg1 = 2 ∧ low.seg2 = 1 ∧ low.sjw = 1) ∧
    (f9.flag .fatal = false ∧ f9.presc = 1 ∧ f9.baud = 1000 ∧ tqClockOf f9 = 48 ∧ tqUserOf f9 = 48 ∧
      f9.propSeg = 31 ∧ f9.seg1 = 8 ∧ f9.seg2 = 8 ∧ f9.sjw = 8) := by decide

/-- One state for each of the eight rows: F13's rate, BAUD_KHZ 0, F10, F14, F12, then SEG1, SEG2 and SJW 0. -/
theorem witness_FdReportsFirstFailure :
    ([ (40000000#32, rate 2000 0, segs 7 6 6 4), (40000000#32, rate 0 1, segs 7 6 6 4),
       (49000000#32, rate 1000 1, segs 31 8 8 8), (40000000#32, rate 2000 1, segs 20 20 20 4),
       (40000000#32, rate 2000 1, segs 0 10 9 4), (40000000#32, rate 2000 1, segs 7 0 6 4),
       (40000000#32, rate 2000 1, segs 7 6 0 4), (40000000#32, rate 2000 1, segs 7 6 6 0) ].map fun v =>
      let s := load [(.clkHz, v.1), (.rate, v.2.1), (.segs, v.2.2)]
      (s.flag .fatal, firstFail (fdResolution s))) =
    (List.range 8).map fun k => (false, k) := by decide

/-- B7 at the lower bounds, B2 at the upper bounds. -/
theorem witness_CbtSucceeds :
    let low := load [(.clkHz, 8000000#32), (.rate, rate 1000 1), (.segs, segs 2 2 3 1)]
    (low.flag .fatal = false ∧ low.presc = 1 ∧ low.baud = 1000 ∧ tqClockOf low = 8 ∧ low.propSeg + low.seg1 = 4 ∧
      low.seg2 = 3 ∧ tqUserOf low = 8 ∧ low.propSeg = 2 ∧ low.sjw = 1) ∧
    (b2.flag .fatal = false ∧ b2.presc = 1 ∧ b2.baud = 500 ∧ tqClockOf b2 = 129 ∧ b2.propSeg + b2.seg1 = 96 ∧
      b2.seg2 = 32 ∧ tqUserOf b2 = 129 ∧ b2.propSeg = 64 ∧ b2.sjw = 32) := by decide

/-- One state for each of the nine rows: PRESC 0, BAUD_KHZ 0, B3, B5, B4, B9, B11, SEG1 0, B10. -/
theorem witness_CbtReportsFirstFailure :
    ([ (80000000#32, rate 500 0, segs 47 16 16 16), (80000000#32, rate 0 2, segs 47 16 16 16),
       (65000000#32, rate 500 1, segs 64 32 33 32), (80000000#32, rate 500 2, segs 50 47 2 1),
       (80000000#32, rate 500 2, segs 62 16 1 1), (8000000#32, rate 1000 1, segs 2 2 2 1),
       (80000000#32, rate 500 2, segs 0 63 16 16), (80000000#32, rate 500 2, segs 63 0 16 16),
       (80000000#32, rate 500 2, segs 47 16 16 0) ].map fun v =>
      let s := load [(.clkHz, v.1), (.rate, v.2.1), (.segs, v.2.2)]
      (s.flag .fatal, firstFail (cbtResolution s))) =
    (List.range 9).map fun k => (false, k) := by decide

/-- PRESC 0 (F13, with the premises of both prescaler warnings in turn) and BAUD_KHZ 0 (T11). -/
theorem witness_ZeroDivisorRule :
    let f13 := load [(.clkHz, 40000000#32), (.rate, rate 2000 0), (.feat, 0x5#32), (.xpresc, rate 1 0)]
    let fdCbt := load [(.rate, rate 2000 0), (.feat, 0x3#32), (.xpresc, rate 0 1)]
    let t11 := load [(.clkHz, 8000000#32), (.rate, rate 0 1)]
    (f13.flag .fatal = false ∧ f13.presc = 0 ∧ f13.brsEn = true ∧ f13.cbtEn = false ∧ f13.presc ≠ f13.xprescClassic) ∧
    (fdCbt.flag .fatal = false ∧ fdCbt.presc = 0 ∧ fdCbt.fdEn = true ∧ fdCbt.cbtEn = true ∧
      fdCbt.presc ≠ fdCbt.xprescCbt) ∧
    (t11.flag .fatal = false ∧ t11.presc = 1 ∧ t11.baud = 0) := by decide

/-- A7 succeeds: its RESOLVE_AUTO leaves VALID set. -/
theorem witness_AutoResultFeedsClassic :
    a7.flag .fatal = false ∧ (regsAfter .resolveAuto a7 [.status]) = some [0x00000001#32] := by decide

theorem witness_AllocBeginOpensPass : full.flag .fatal = false := by decide

/-- The first slot of a pass, and the first slot of a pass with the RX-FIFO reservation (M5). -/
theorem witness_AllocNextAssignsSlot :
    (opened.flag .fatal = false ∧ opened.aState = .atRegionStart ∧
      placeMany opened.allocEnv (if opened.first = true ∧ opened.fifoEn = true then opened.filterCount / 4 + 6 else 0)
        opened.cursor = .ok { address := 0x80, index := 0, plen := 8, next := 0x90 }) ∧
    (fifoOpened.flag .fatal = false ∧ fifoOpened.aState = .atRegionStart ∧
      placeMany fifoOpened.allocEnv
        (if fifoOpened.first = true ∧ fifoOpened.fifoEn = true then fifoOpened.filterCount / 4 + 6 else 0)
        fifoOpened.cursor = .ok { address := 0x100, index := 8, plen := 8, next := 0x110 }) := by decide

/-- A slot at the cursor, and a slot moved over the region's tail (S2). -/
theorem witness_AllocNextClassicController :
    (opened.cfg.wf = true ∧ opened.flag .fatal = false ∧ opened.aState = .atRegionStart ∧
      opened.cfg.mbBase ≤ opened.cursor ∧ opened.fdEn = false ∧ opened.fifoEn = false ∧ 0 + 16 ≤ opened.memSize ∧
      0 + 1 ≤ opened.hwMaxMb) ∧
    (straddling.cfg.wf = true ∧ straddling.flag .fatal = false ∧ straddling.aState = .withinRegion ∧
      straddling.cfg.mbBase ≤ straddling.cursor ∧ straddling.fdEn = false ∧ straddling.first = false ∧
      512 - (straddling.cursor - 0x80) % 512 < 16 ∧ 512 + 16 ≤ straddling.memSize ∧
      512 / 512 * (512 / 16) + 512 % 512 / 16 + 1 ≤ straddling.hwMaxMb) := by decide

/-- M1, the 33rd slot. -/
theorem witness_AllocNextReportsCapacity :
    full.flag .fatal = false ∧ full.aState = .atRegionStart ∧
    placeMany full.allocEnv (if full.first = true ∧ full.fifoEn = true then full.filterCount / 4 + 6 else 0) full.cursor =
      .error { cause := .cMem, requested := 528, available := 512 } := by decide

/-- The three causes: M1, M2, M4b, the region bound met while the tail of region 2 is skipped, and the memory and the count
bound met by S2's slot behind the tail of region 0. -/
theorem witness_CapacityCausesAreJustified :
    place full.allocEnv 0x280 = .error { cause := .cMem, requested := 528, available := 512 } ∧
    place (load [(.alim, 0x00200600#32)]).allocEnv 0x280 =
      .error { cause := .cCount, requested := 33, available := 32 } ∧
    place (load [(.feat, 0x11#32), (.alim, 0x00FF1000#32)]).allocEnv 0x680 =
      .error { cause := .cRegion, requested := 4, available := 3 } ∧
    place (load [(.feat, 0x11#32), (.acfg, 0xC0#32), (.alim, 0x00FF1000#32)]).allocEnv 0x678 =
      .error { cause := .cRegion, requested := 4, available := 3 } ∧
    place (load [(.alim, 0x00FF020F#32)]).allocEnv 0x27C =
      .error { cause := .cMem, requested := 528, available := 527 } ∧
    place (load [(.alim, 0x00200600#32)]).allocEnv 0x27C =
      .error { cause := .cCount, requested := 33, available := 32 } := by decide

theorem witness_ClosedPassRefusesAllocator :
    (load [(.astat, 0x2#32)]).aState = .regionExhausted ∧ State.reset.aState = .done := by decide

theorem witness_AllocEndClosesPass :
    (opened.flag .fatal = false ∧ opened.aState = .atRegionStart) ∧
    (fifoOpened.set .astat 0x801#32).aState = .withinRegion ∧
    (State.reset.flag .fatal = false ∧ State.reset.aState = .done) ∧
    (load [(.astat, 0x2#32)]).aState = .regionExhausted := by decide

/-- An open pass that has the invariant. -/
theorem opened_windowInv : WindowInv opened where
  parameters := by decide
  reserved := by intro r; cases r <;> decide
  errors := by unfold ErrorRecordOk; decide
  timing := by unfold TimingResultOk; decide
  slot := by unfold SlotOk; decide
  pass := by unfold PassOk; decide
  ordering := by unfold OrdOk; decide

/-- A full pass that has the invariant. -/
theorem full_windowInv : WindowInv full where
  parameters := by decide
  reserved := by intro r; cases r <;> decide
  errors := by unfold ErrorRecordOk; decide
  timing := by unfold TimingResultOk; decide
  slot := by unfold SlotOk; decide
  pass := by unfold PassOk; decide
  ordering := by unfold OrdOk; decide

/-- A state without an open pass that has the invariant: a successful T1 in it, and an ORD_CMP of equal keys. -/
def resolved : State := load [(.status, 0x1#32), (.res0, 0x01010000#32), (.res1, 0x03030306#32), (.ord, 5#32)]

theorem resolved_windowInv : WindowInv resolved where
  parameters := by decide
  reserved := by intro r; cases r <;> decide
  errors := by unfold ErrorRecordOk; decide
  timing := by unfold TimingResultOk; decide
  slot := by unfold SlotOk; decide
  pass := by unfold PassOk; decide
  ordering := by unfold OrdOk; decide

/-- An open pass and a closed one. -/
theorem witness_AllocatorTransitions :
    (WindowInv opened ∧ opened.flag .fatal = false ∧ opened.aState.isOpen = true) ∧
    (WindowInv resolved ∧ resolved.flag .fatal = false ∧ resolved.aState.isOpen = false) :=
  ⟨⟨opened_windowInv, by decide, by decide⟩, resolved_windowInv, by decide, by decide⟩

/-- S2's placement, and the first slot of a pass. -/
theorem witness_SlotsNeverStraddleRegions :
    (straddling.allocEnv.cfg.wf = true ∧ straddling.allocEnv.cfg.mbBase ≤ 0x27C ∧
      place straddling.allocEnv 0x27C = .ok { address := 0x280, index := 32, plen := 8, next := 0x290 }) ∧
    (straddling.allocEnv.cfg.mbBase = 0x80 ∧ straddling.allocEnv.cfg.regionSize = 512 ∧
      straddling.allocEnv.fdEn = false ∧ 528 ≤ straddling.allocEnv.memSize ∧ 33 ≤ straddling.allocEnv.hwMaxMb) ∧
    (WindowInv opened ∧ opened.flag .fatal = false ∧ opened.aState = .atRegionStart ∧
      exec .allocNext opened = .next (allocAssign opened { address := 0x80, index := 0, plen := 8, next := 0x90 }) ∧
      (allocAssign opened { address := 0x80, index := 0, plen := 8, next := 0x90 }).flag .fatal = false) :=
  ⟨by decide, by decide, opened_windowInv, by decide, by decide, rfl, by decide⟩

/-- A slot assigned, and a placement that fails. -/
theorem witness_AddressesIncreaseWithinPass :
    (WindowInv opened ∧ opened.flag .fatal = false ∧ opened.aState = .atRegionStart ∧
      exec .allocNext opened = .next (allocAssign opened { address := 0x80, index := 0, plen := 8, next := 0x90 }) ∧
      (allocAssign opened { address := 0x80, index := 0, plen := 8, next := 0x90 }).flag .fatal = false) ∧
    (WindowInv full ∧ full.flag .fatal = false ∧ full.aState = .atRegionStart ∧
      exec .allocNext full = .next (allocFail full { cause := .cMem, requested := 528, available := 512 })) :=
  ⟨⟨opened_windowInv, by decide, by decide, rfl, by decide⟩, full_windowInv, by decide, by decide, rfl⟩

/-- The outcome of a whole pass that assigns all its slots: some registers at its end. -/
def passRegs (keepmax : Bool) (n : Nat) (s : State) (rs : List Reg) : Option (Bool × List Word) :=
  match execAll (passOf keepmax n) s with
  | .next t => some (t.flag .fatal, rs.map t.get)
  | .fault _ => none
  | .refused _ => none

/-- The ninth placement of M5, and its pass of two objects. -/
theorem witness_IndicesConsecutiveInPass :
    (fifoOpened.allocEnv.cfg.wf = true ∧
      placeMany fifoOpened.allocEnv 8 fifoOpened.allocEnv.cfg.mbBase =
        .ok { address := 0x100, index := 8, plen := 8, next := 0x110 }) ∧
    (fifoOpened.cfg.wf = true ∧ fifoOpened.flag .fatal = false ∧
      passRegs false (1 + 1) fifoOpened [.aidx] = some (false, [0x00080009#32])) := by decide

/-- S1: two runs of the same pass, one of them after another pass and with KEEPMAX; and a second run with KEEPMAX where AMAX
holds what the first run reaches. -/
theorem witness_SamePassTwice :
    (opened.flag .fatal = false ∧ full.flag .fatal = false ∧ opened.cfg = full.cfg ∧
      ∀ r ∈ [Reg.feat, .acfg, .alim], opened.get r = full.get r) ∧
    ((full.set .amax 2#32).flag .fatal = false ∧ opened.cfg = (full.set .amax 2#32).cfg ∧
      (∀ r ∈ [Reg.feat, .acfg, .alim], opened.get r = (full.set .amax 2#32).get r) ∧
      passRegs false 2 opened [.amax] = some (false, [(full.set .amax 2#32).get .amax])) := by decide

/-- X2 (below MB_BASE), X3 (the first address with an index), Z8 (the first region without a payload). -/
theorem witness_MapIndexComputes :
    ((load [(.mapin, 0x7F#32)]).flag .fatal = false ∧ (load [(.mapin, 0x7F#32)]).mapAddr < 0x80) ∧
    ¬(load [(.mapin, 0x80#32)]).mapAddr < 0x80 ∧
    (let z8 := load [(.feat, 0x11#32), (.acfg, 0x1C#32), (.mapin, 0x680#32)]
     z8.fdEn = true ∧ z8.perRegion = true ∧ z8.cfg.numRegions.val ≤ (z8.mapAddr - 0x80) / 512) := by decide

/-- A pass of one object whose address MAPIN can hold. -/
theorem witness_MapIndexAgreesWithAllocator :
    opened.cfg.wf = true ∧ opened.flag .fatal = false ∧
    passRegs false (0 + 1) opened [.aaddr] = some (false, [0x80#32]) ∧ (0x80#32 : Word).toNat < 2 ^ 17 := by decide

theorem witness_OrdCmpComparesKeys : State.reset.flag .fatal = false := by decide

theorem witness_FltBeginClearsCount : (load [(.fltCnt, 7#32)]).flag .fatal = false := by decide

/-- One state for each acceptance mode. -/
theorem witness_FltEncEncodesEntry :
    ∀ k < 4, let s := load [(.fltcfg, BitVec.ofNat 32 k)]
      s.flag .fatal = false ∧ (s.get .fltcfg).toNat % 4 = k := by decide

/-- L1 and L2. -/
theorem witness_FltEndChecksCount :
    (let l1 := load [(.acfg, 0x00080200#32), (.fltCnt, 8#32)]
     l1.flag .fatal = false ∧ l1.fltCount = l1.filterCount) ∧
    (let l2 := load [(.acfg, 0x00080200#32), (.fltCnt, 7#32)]
     l2.flag .fatal = false ∧ l2.fltCount ≠ l2.filterCount) := by decide

/-- An open pass with ALLOC_NEXT as the host's next command. -/
def issued : State := opened.withPending [.write 0x00 4 0x11#32]

theorem issued_windowInv : WindowInv issued where
  parameters := by decide
  reserved := by intro r; cases r <;> decide
  errors := by unfold ErrorRecordOk; decide
  timing := by unfold TimingResultOk; decide
  slot := by unfold SlotOk; decide
  pass := by unfold PassOk; decide
  ordering := by unfold OrdOk; decide

theorem witness_StepKeepsInvariant :
    WindowInv issued ∧
    step issued =
      .next ((allocAssign (opened.set .cmd 0x11#32) { address := 0x80, index := 0, plen := 8, next := 0x90 }).answer
        .ack) :=
  ⟨issued_windowInv, rfl⟩

/-- The pass of `issued` one slot further, with ALLOC_NEXT as the host's next command. -/
def issuedSecond : State :=
  (allocAssign opened { address := 0x80, index := 0, plen := 8, next := 0x90 }).withPending [.write 0x00 4 0x11#32]

theorem issuedSecond_windowInv : WindowInv issuedSecond where
  parameters := by decide
  reserved := by intro r; cases r <;> decide
  errors := by unfold ErrorRecordOk; decide
  timing := by unfold TimingResultOk; decide
  slot := by unfold SlotOk; decide
  pass := by unfold PassOk; decide
  ordering := by unfold OrdOk; decide

/-- The second slot of a pass, the first one marked valid. -/
theorem witness_StepKeepsSlotGrid :
    let p : Slot := { address := 0x90, index := 1, plen := 8, next := 0xA0 }
    let t := (allocAssign ((issuedSecond.withPending []).set .cmd 0x11#32) p).answer .ack
    (WindowInv issuedSecond ∧ SlotGridOk issuedSecond ∧ issuedSecond.flag .fatal = false ∧
      issuedSecond.aState.isOpen = true ∧ issuedSecond.flag .avalid = true) ∧
    (step issuedSecond = .next t ∧ t.fdEn = issuedSecond.fdEn ∧ t.perRegion = issuedSecond.perRegion ∧
      t.gpl = issuedSecond.gpl ∧ t.rpl0 = issuedSecond.rpl0 ∧ t.rpl1 = issuedSecond.rpl1 ∧
      t.rpl2 = issuedSecond.rpl2) ∧
    (exec .allocNext issuedSecond = .next (allocAssign issuedSecond p) ∧
      (allocAssign issuedSecond p).flag .fatal = false) :=
  ⟨⟨issuedSecond_windowInv, by unfold SlotGridOk; decide, by decide, by decide, by decide⟩,
    ⟨rfl, by decide, by decide, by decide, by decide, by decide, by decide⟩, rfl, by decide⟩

theorem fifoOpened_windowInv : WindowInv fifoOpened where
  parameters := by decide
  reserved := by intro r; cases r <;> decide
  errors := by unfold ErrorRecordOk; decide
  timing := by unfold TimingResultOk; decide
  slot := by unfold SlotOk; decide
  pass := by unfold PassOk; decide
  ordering := by unfold OrdOk; decide

/-- M5: the first slot of a pass, behind eight reserved ones. -/
theorem witness_StepKeepsSlotGrid_reservation :
    let p : Slot := { address := 0x100, index := 8, plen := 8, next := 0x110 }
    WindowInv fifoOpened ∧ SlotGridOk fifoOpened ∧ fifoOpened.flag .fatal = false ∧ fifoOpened.aState.isOpen = true ∧
    (fifoOpened.first = true ∧ fifoOpened.fifoEn = true ∧ fifoOpened.filterCount / 4 + 6 = 8) ∧
    exec .allocNext fifoOpened = .next (allocAssign fifoOpened p) ∧
      (allocAssign fifoOpened p).flag .fatal = false :=
  ⟨fifoOpened_windowInv, by unfold SlotGridOk; decide, by decide, by decide, by decide, rfl, by decide⟩

end Sys2Proof.Tests
end

/-! ## Every command and every step completes (O13) -/

namespace Sys2Proof.Proofs

open Sys2Proof Sys2Proof.Machine Sys2Proof.Laws

/-! ### The frame of a command: STATUS and the Writes column of spec/30_encoding.md R56 -/

/-- CLR writes STATUS and the error record (R148). -/
theorem clearErrors_unchanged (s : State) :
    Unchanged [.status, .errCode, .errValue, .errLo, .errHi] s (clearErrors s) := by
  refine ⟨?_, by simp, by simp, by simp⟩
  intro r hr
  simp only [List.mem_cons, List.not_mem_nil, or_false, not_or] at hr
  simp [get_clearErrors, hr]

/-- FLT_ENC writes the encoded pair and the count (R124). -/
theorem fltEnc_unchanged (s : State) : Unchanged [.fltIdOut, .fltMaskOut, .fltCnt] s (fltEnc s) := by
  refine ⟨?_, fltEnc_own s⟩
  intro r hr
  simp only [List.mem_cons, List.not_mem_nil, or_false, not_or] at hr
  simp [get_fltEnc, hr]

/-- What ALLOC_END can do where it is not blocked (R76, R83). -/
theorem allocEnd_cases (s : State) :
    (s.aState.isOpen = false ∧ allocEnd s = refuse s) ∨ (s.aState.isOpen = true ∧ allocEnd s = s.setAState .done) := by
  cases ho : s.aState.isOpen
  · exact .inl ⟨rfl, by simp [allocEnd, ho]⟩
  · exact .inr ⟨rfl, by simp [allocEnd, ho]⟩

/-- The effect of a command changes no register outside STATUS and its Writes column, and nothing of the model's own. -/
theorem commandEffect_unchanged (i : Instr) (s : State) :
    Unchanged (.status :: commandWrites i) s (commandEffect i s) := by
  cases i with
  | nop => exact Unchanged.refl _ s
  | resolveClassic => exact Unchanged.mono (Unchanged.resolveFrame s _) (by decide)
  | resolveAuto => exact Unchanged.mono (Unchanged.resolveFrame s _) (by decide)
  | resolveFd => exact Unchanged.mono (Unchanged.resolveFrame s _) (by decide)
  | resolveCbt => exact Unchanged.mono (Unchanged.resolveFrame s _) (by decide)
  | allocBegin keepmax => exact Unchanged.mono (Unchanged.allocBegin s keepmax) (by simp [commandWrites])
  | allocNext =>
    show Unchanged _ s (allocNext s)
    rcases allocNext_cases s with ⟨_, h⟩ | ⟨_, f, _, h⟩ | ⟨_, p, _, h⟩ <;> rw [h]
    · exact Unchanged.mono (Unchanged.refuse s) (by decide)
    · exact Unchanged.mono (Unchanged.allocFail s f) (by decide)
    · exact Unchanged.mono (Unchanged.allocAssign s p) (by decide)
  | allocEnd =>
    show Unchanged _ s (allocEnd s)
    rcases allocEnd_cases s with ⟨_, h⟩ | ⟨_, h⟩ <;> rw [h]
    · exact Unchanged.mono (Unchanged.refuse s) (by decide)
    · exact Unchanged.mono (Unchanged.set s .astat _) (by decide)
  | mapIndex => exact Unchanged.mono (Unchanged.set s .mapout _) (by decide)
  | ordCmp => exact Unchanged.mono (Unchanged.set s .ord _) (by decide)
  | fltBegin => exact Unchanged.mono (Unchanged.set s .fltCnt _) (by decide)
  | fltEnc => exact Unchanged.mono (fltEnc_unchanged s) (by decide)
  | fltEnd =>
    show Unchanged _ s (fltEnd s)
    rcases fltEnd_cases s with ⟨_, h⟩ | ⟨_, h⟩ <;> rw [h]
    · exact Unchanged.refl _ s
    · exact Unchanged.mono (Unchanged.fatalEntry s _ _ _ _ _ _) (by decide)
  | clr => exact Unchanged.mono (clearErrors_unchanged s) (by decide)

/-- A command is refused, which happens only under a fatal error (R147), or has its effect. -/
theorem exec_cases {i : Instr} {s t : State} (h : exec i s = .next t) :
    (s.flag .fatal = true ∧ t = refuse s) ∨ t = commandEffect i s := by
  have blocked : ∀ {k : State → State}, blocking s k = .next t →
      (s.flag .fatal = true ∧ t = refuse s) ∨ t = k s := fun hb => (blocking_cases hb).imp id And.right
  cases i
  case nop => exact .inr (Host.Outcome.next.inj h).symm
  case clr => exact .inr (Host.Outcome.next.inj h).symm
  all_goals exact blocked h

/-- The frame of a command, refused or not. -/
theorem exec_unchanged {i : Instr} {s t : State} (h : exec i s = .next t) :
    Unchanged (.status :: commandWrites i) s t := by
  rcases exec_cases h with ⟨_, rfl⟩ | rfl
  · exact Unchanged.mono (Unchanged.refuse s) (by simp)
  · exact commandEffect_unchanged i s

/-! ### The step -/

/-- No input stops the machine (R9): an illegal access (R46, log 3) and an illegal word (R55) are answered, and a command
completes. -/
theorem step_next (s : State) : ∃ t, step s = .next t := by
  cases hp : s.pending with
  | nil => exact ⟨_, step_idle hp⟩
  | cons e es =>
    cases e with
    | reset => exact ⟨_, step_reset hp⟩
    | read addr n =>
      cases ha : accessLegal addr n with
      | true => exact ⟨_, step_read hp ha⟩
      | false => exact ⟨_, step_read_illegal hp ha⟩
    | write addr n v =>
      cases ha : accessLegal addr n with
      | false => exact ⟨_, step_write_illegal hp ha⟩
      | true =>
        obtain rfl := accessLegal_width ha
        by_cases h0 : addr = 0x00
        · subst h0
          cases hd : decode v with
          | error e => exact ⟨_, step_illegal_word hp hd⟩
          | ok i =>
            obtain ⟨u, hu⟩ := exec_next i ((s.withPending es).set .cmd v)
            exact ⟨u.answer .ack, by rw [step_command hp hd, hu]; rfl⟩
        · exact ⟨_, step_write hp ha h0⟩

/-- A step never touches the parameters (R12), and it takes exactly one input (log 1). -/
theorem step_keeps_parameters {s t : State} (h : step s = .next t) :
    t.cfg = s.cfg ∧ t.pending = s.pending.tail := by
  rcases step_cases h with ⟨a, rfl, _⟩ | ⟨es, hp, rfl⟩ | ⟨es, addr, v, hp, _, rfl⟩ | ⟨es, w, e, hp, _, rfl⟩ |
    ⟨es, w, i, u, hp, _, hu, rfl⟩
  · simp
  · simp [hp]
  · simp [hp]
  · simp [hp]
  · obtain ⟨_, hcfg, hpending, _⟩ := exec_unchanged hu
    simp [hp, hcfg, hpending]

/-- Settles O13: a step answers a next state, and every case of `step_cases` keeps the parameters and takes one input. -/
theorem everyStepCompletes : Obligations.EveryStepCompletes := by
  intro s
  obtain ⟨t, ht⟩ := step_next s
  exact ⟨t, ht, step_keeps_parameters ht⟩

end Sys2Proof.Proofs

/-! ## Zero fields and STATUS, operation by operation -/

namespace Sys2Proof.Proofs

open Sys2Proof Sys2Proof.Machine Sys2Proof.Laws

/-! ### Words that fit a register: reserved and zero fields read 0 (spec/10_state.md R41) -/

/-- The word `v` has no bit outside the fields of `r`; `ReservedZero s` says that every register's word fits it. -/
abbrev Fits (r : Reg) (v : Word) : Prop := v &&& ~~~r.fields = 0#32

theorem fits_iff {r : Reg} {v : Word} :
    Fits r v ↔ ∀ k < 32, v.getLsbD k = true → r.fields.getLsbD k = true := by
  constructor
  · intro h k hk hv
    have hbit : (v &&& ~~~r.fields).getLsbD k = false := by rw [h, BitVec.getLsbD_zero]
    simpa [hk, hv] using hbit
  · intro h
    apply BitVec.eq_of_getLsbD_eq
    intro k hk
    have := h k hk
    cases hv : v.getLsbD k <;> simp_all

theorem Fits.zero (r : Reg) : Fits r 0#32 := BitVec.zero_and

/-- Any word fits a register that is one field of 32 bits. -/
theorem Fits.of_full {r : Reg} (h : r.fields = 0xFFFFFFFF#32) (v : Word) : Fits r v := by
  rw [Fits, h]
  exact BitVec.and_zero

theorem Fits.or {r : Reg} {v w : Word} (hv : Fits r v) (hw : Fits r w) : Fits r (v ||| w) := by
  rw [fits_iff] at *
  intro k hk h
  rw [BitVec.getLsbD_or, Bool.or_eq_true] at h
  exact h.elim (hv k hk) (hw k hk)

theorem Fits.and {r : Reg} {v : Word} (hv : Fits r v) (w : Word) : Fits r (v &&& w) := by
  rw [fits_iff] at *
  intro k hk h
  rw [BitVec.getLsbD_and, Bool.and_eq_true] at h
  exact hv k hk h.1

/-- Writing a field of the register keeps the other bits as they are (R9). -/
theorem Fits.setField {r : Reg} {w : Word} (hw : Fits r w) (lo : Nat) {len : Nat} (v : BitVec len)
    (hf : ∀ k < 32, lo ≤ k ∧ k < lo + len → r.fields.getLsbD k = true) : Fits r (setField w lo v) := by
  rw [fits_iff] at *
  intro k hk h
  rw [getLsbD_setField _ _ _ _ hk] at h
  split at h
  · next hin => exact hf k hk hin
  · exact hw k hk h

/-- A host write leaves the reserved bits as they were (R43). -/
theorem Fits.mergeFields {r : Reg} {old : Word} (h : Fits r old) (v : Word) : Fits r (mergeFields r old v) := by
  rw [fits_iff] at *
  intro k hk hm
  rw [getLsbD_mergeFields _ _ _ _ hk] at hm
  split at hm
  · next hf => exact hf
  · exact h k hk hm

/-- The layout of R16 leaves bits 31:24 and 15:11 zero. -/
theorem fits_errCodeWord (cls : ErrClass) (param : ErrParam) (ctrl : BitVec 8) :
    Fits .errCode (errCodeWord cls param ctrl) := by
  show (0#8 ++ ctrl ++ 0#5 ++ cls.code ++ param.code) &&& (0xFF#8 ++ 0#8 ++ 0x1F#5 ++ 0#3 ++ 0#8) = 0#32
  simp only [BitVec.and_append, BitVec.and_zero, BitVec.zero_and, BitVec.zero_append_zero]

/-- The layout of R26 leaves bits 31:27 and 23:17 zero. -/
theorem fits_res0Word (t : TimingResult) (clkSrc : Bool) : Fits .res0 (res0Word t clkSrc) := by
  show (0#5 ++ t.kind ++ 0#7 ++ BitVec.ofBool clkSrc ++ BitVec.ofInt 16 (t.presc - 1)) &&&
    (0x1F#5 ++ 0#3 ++ 0x7F#7 ++ 0#1 ++ 0#16) = 0#32
  simp only [BitVec.and_append, BitVec.and_zero, BitVec.zero_and, BitVec.zero_append_zero]

/-- The layout of R32 leaves bits 31:24 zero. -/
theorem fits_aidxWord (p : Slot) : Fits .aidx (aidxWord p) := by
  show (0#8 ++ BitVec.ofNat 8 p.plen ++ BitVec.ofNat 16 p.index) &&& (0xFF#8 ++ 0#8 ++ 0#16) = 0#32
  simp only [BitVec.and_append, BitVec.and_zero, BitVec.zero_and, BitVec.zero_append_zero]

/-- The layout of R36 leaves bits 30:24 zero. -/
theorem fits_mapoutWord (e : AllocEnv) (a : Nat) : Fits .mapout (mapoutWord e a) := by
  have layout (v : Bool) (p : BitVec 8) (i : BitVec 16) : Fits .mapout (BitVec.ofBool v ++ 0#7 ++ p ++ i) := by
    show (BitVec.ofBool v ++ 0#7 ++ p ++ i) &&& (0#1 ++ 0x7F#7 ++ 0#8 ++ 0#16) = 0#32
    simp only [BitVec.and_append, BitVec.and_zero, BitVec.zero_and, BitVec.zero_append_zero]
  unfold mapoutWord
  split
  · exact Fits.zero _
  · exact layout _ _ _

theorem fits_ordWord (a b : Key) : Fits .ord (ordWord a b) := by
  rw [ordWord_eq]
  split <;> [skip; split] <;> decide

theorem fits_astatAssigned {s : State} (h : Fits .astat (s.get .astat)) (p : Slot) :
    Fits .astat (astatAssigned s p) := by
  unfold astatAssigned
  refine Fits.setField (Fits.setField ?_ 2 _ (by decide)) 0 _ (by decide)
  split
  · exact Fits.setField h 8 _ (by decide)
  · exact h

theorem fits_status_bit (f : StatusFlag) : Fits .status (1#32 <<< f.bit) := by cases f <;> decide

/-! ### Each operation keeps the zero fields zero -/

section
variable {s : State}

theorem reservedZero_set (h : ReservedZero s) {r : Reg} {v : Word} (hv : Fits r v) : ReservedZero (s.set r v) := by
  intro q
  rw [get_set]
  split
  · next hq => subst hq; exact hv
  · exact h q

theorem reservedZero_setFlag (h : ReservedZero s) (f : StatusFlag) : ReservedZero (s.setFlag f) :=
  reservedZero_set h (Fits.or (h .status) (fits_status_bit f))

theorem reservedZero_clearFlag (h : ReservedZero s) (f : StatusFlag) : ReservedZero (s.clearFlag f) :=
  reservedZero_set h (Fits.and (h .status) _)

theorem reservedZero_recordWarnings (h : ReservedZero s) (ws : List (Bool × StatusFlag)) :
    ReservedZero (recordWarnings s ws) := by
  induction ws generalizing s with
  | nil => exact h
  | cons w ws ih =>
    rw [recordWarnings_cons]
    apply ih
    cases w.1
    · exact h
    · exact reservedZero_setFlag h w.2

theorem reservedZero_fatalEntry (h : ReservedZero s) (cls : ErrClass) (param : ErrParam) (ctrl : BitVec 8)
    (value : Int) (lo hi : Nat) : ReservedZero (fatalEntry s cls param ctrl value lo hi) := by
  have hcode := reservedZero_set (reservedZero_setFlag h .fatal) (fits_errCodeWord cls param ctrl)
  have hvalue := reservedZero_set hcode (Fits.of_full (r := .errValue) rfl (BitVec.ofInt 32 value))
  have hlo := reservedZero_set hvalue (Fits.of_full (r := .errLo) rfl (BitVec.ofNat 32 lo))
  exact reservedZero_set hlo (Fits.of_full (r := .errHi) rfl _)

theorem reservedZero_clearErrors (h : ReservedZero s) : ReservedZero (clearErrors s) := by
  intro r
  rw [get_clearErrors]
  split
  · exact Fits.zero r
  · exact h r

theorem reservedZero_resolveStart (h : ReservedZero s) (q : Resolution) : ReservedZero (resolveStart s q) := by
  have hres := reservedZero_set (reservedZero_set (reservedZero_clearFlag h .valid) (Fits.zero .res0)) (Fits.zero .res1)
  have hclock := reservedZero_set hres (Fits.of_full (r := .tqClock) rfl (BitVec.ofInt 32 q.tqClock))
  exact reservedZero_recordWarnings (reservedZero_set hclock (Fits.of_full (r := .tqUser) rfl _)) q.warnings

theorem reservedZero_resolveDeliver (h : ReservedZero s) (t : TimingResult) : ReservedZero (resolveDeliver s t) :=
  reservedZero_setFlag (reservedZero_set (reservedZero_set h (fits_res0Word t _)) (Fits.of_full rfl _)) .valid

theorem reservedZero_resolveFrame (h : ReservedZero s) (f : State → Resolution) :
    ReservedZero (resolveFrame f s) := by
  rcases resolveFrame_cases s f with ⟨_, he⟩ | ⟨c, _, _, he⟩ <;> rw [he]
  · exact reservedZero_resolveDeliver (reservedZero_resolveStart h _) _
  · exact reservedZero_fatalEntry (reservedZero_resolveStart h _) _ _ _ _ _ _

theorem reservedZero_clearSlot (h : ReservedZero s) : ReservedZero (clearSlot s) :=
  reservedZero_clearFlag (reservedZero_set (reservedZero_set h (Fits.zero .aaddr)) (Fits.zero .aidx)) .avalid

theorem reservedZero_setAState (h : ReservedZero s) (a : AState) : ReservedZero (s.setAState a) :=
  reservedZero_set h (Fits.setField (h .astat) 0 _ (by decide))

theorem reservedZero_allocBegin (h : ReservedZero s) (keepmax : Bool) : ReservedZero (allocBegin keepmax s) := by
  have hcur := reservedZero_set h (Fits.of_full (r := .acur) rfl (BitVec.ofNat 32 s.cfg.mbBase))
  have hopen := reservedZero_clearSlot (reservedZero_set hcur (r := .astat) (v := astatOpened) (by decide))
  cases keepmax
  · exact reservedZero_set hopen (Fits.zero .amax)
  · exact hopen

theorem reservedZero_allocFail (h : ReservedZero s) (f : CapacityFailure) : ReservedZero (allocFail s f) :=
  reservedZero_clearSlot (reservedZero_setAState (reservedZero_fatalEntry h _ _ _ _ _ _) _)

theorem reservedZero_allocAssign (h : ReservedZero s) (p : Slot) : ReservedZero (allocAssign s p) := by
  have haddr := reservedZero_set h (Fits.of_full (r := .aaddr) rfl (BitVec.ofNat 32 p.address))
  have hslot := reservedZero_setFlag (reservedZero_set haddr (fits_aidxWord p)) .avalid
  have hcur := reservedZero_set hslot (Fits.of_full (r := .acur) rfl (BitVec.ofNat 32 p.next))
  have hstat := reservedZero_set hcur (fits_astatAssigned (h .astat) p)
  exact reservedZero_set hstat (Fits.setField (h .amax) 0 _ (by decide))

theorem reservedZero_fltEnc (h : ReservedZero s) : ReservedZero (fltEnc s) := by
  have hout := reservedZero_set (reservedZero_set h (Fits.of_full (r := .fltIdOut) rfl
    (encodeFilter s.fltMode (s.get .fltId) (s.get .fltMask) s.fltExt).1)) (Fits.of_full (r := .fltMaskOut) rfl
    (encodeFilter s.fltMode (s.get .fltId) (s.get .fltMask) s.fltExt).2)
  exact reservedZero_set hout (Fits.setField (hout .fltCnt) 0 _ (by decide))

/-- No command sets a zero field (R41). -/
theorem reservedZero_commandEffect (h : ReservedZero s) (i : Instr) : ReservedZero (commandEffect i s) := by
  cases i with
  | nop => exact h
  | resolveClassic => exact reservedZero_resolveFrame h _
  | resolveAuto => exact reservedZero_resolveFrame h _
  | resolveFd => exact reservedZero_resolveFrame h _
  | resolveCbt => exact reservedZero_resolveFrame h _
  | allocBegin keepmax => exact reservedZero_allocBegin h keepmax
  | allocNext =>
    show ReservedZero (allocNext s)
    rcases allocNext_cases s with ⟨_, he⟩ | ⟨_, f, _, he⟩ | ⟨_, p, _, he⟩ <;> rw [he]
    · exact reservedZero_setFlag h .cmderr
    · exact reservedZero_allocFail h f
    · exact reservedZero_allocAssign h p
  | allocEnd =>
    show ReservedZero (allocEnd s)
    rcases allocEnd_cases s with ⟨_, he⟩ | ⟨_, he⟩ <;> rw [he]
    · exact reservedZero_setFlag h .cmderr
    · exact reservedZero_setAState h .done
  | mapIndex => exact reservedZero_set h (fits_mapoutWord _ _)
  | ordCmp => exact reservedZero_set h (fits_ordWord _ _)
  | fltBegin => exact reservedZero_set h (Fits.zero .fltCnt)
  | fltEnc => exact reservedZero_fltEnc h
  | fltEnd =>
    show ReservedZero (fltEnd s)
    rcases fltEnd_cases s with ⟨_, he⟩ | ⟨_, he⟩ <;> rw [he]
    · exact h
    · exact reservedZero_fatalEntry h _ _ _ _ _ _
  | clr => exact reservedZero_clearErrors h

/-- No host write sets a zero field (R41, R43). -/
theorem reservedZero_windowWrite (h : ReservedZero s) (addr : Nat) (v : Word) :
    ReservedZero (windowWrite s addr v) := by
  intro r
  rw [get_windowWrite]
  split
  · exact Fits.mergeFields (h r) v
  · exact h r

end

/-! ### The bits of STATUS a command sets and clears (spec/30_encoding.md R56, spec/10_state.md R15) -/

/-- From `s` to `t` no bit of STATUS outside `on` comes on, and none outside `off` goes off. -/
def StatusChange (on off : List Nat) (s t : State) : Prop :=
  ∀ k, (k ∉ on → (t.get .status).getLsbD k = true → (s.get .status).getLsbD k = true) ∧
    (k ∉ off → (s.get .status).getLsbD k = true → (t.get .status).getLsbD k = true)

section
variable {on off : List Nat} {s t u : State}

theorem StatusChange.refl (on off : List Nat) (s : State) : StatusChange on off s s :=
  fun _ => ⟨fun _ h => h, fun _ h => h⟩

theorem StatusChange.trans (h : StatusChange on off s t) (h' : StatusChange on off t u) : StatusChange on off s u :=
  fun k => ⟨fun hk hu => (h k).1 hk ((h' k).1 hk hu), fun hk hs => (h' k).2 hk ((h k).2 hk hs)⟩

theorem StatusChange.set (h : StatusChange on off s t) (r : Reg) (hr : r ≠ .status) (v : Word) :
    StatusChange on off s (t.set r v) := by
  intro k
  rw [get_set_ne _ _ _ _ (Ne.symm hr)]
  exact h k

theorem StatusChange.setFlag (h : StatusChange on off s t) {f : StatusFlag} (hf : f.bit ∈ on) :
    StatusChange on off s (t.setFlag f) := by
  refine StatusChange.trans h fun k => ?_
  rw [get_status_setFlag, BitVec.getLsbD_or, getLsbD_bitAt _ _ (StatusFlag.bit_lt f)]
  refine ⟨fun hk ht => ?_, fun _ hs => by simp [hs]⟩
  have hne : k ≠ f.bit := fun he => hk (he ▸ hf)
  simpa [hne] using ht

theorem StatusChange.clearFlag (h : StatusChange on off s t) {f : StatusFlag} (hf : f.bit ∈ off) :
    StatusChange on off s (t.clearFlag f) := by
  refine StatusChange.trans h fun k => ?_
  rw [get_status_clearFlag, BitVec.getLsbD_and, BitVec.getLsbD_not, getLsbD_bitAt _ _ (StatusFlag.bit_lt f)]
  refine ⟨fun _ ht => by simp_all, fun hk hs => ?_⟩
  have hne : k ≠ f.bit := fun he => hk (he ▸ hf)
  simp [hne, hs, BitVec.lt_of_getLsbD hs]

theorem StatusChange.recordWarnings (h : StatusChange on off s t) {ws : List (Bool × StatusFlag)}
    (hw : ∀ w ∈ ws, w.2.bit ∈ on) : StatusChange on off s (recordWarnings t ws) := by
  induction ws generalizing t with
  | nil => exact h
  | cons w ws ih =>
    rw [recordWarnings_cons]
    refine ih ?_ fun v hv => hw v (List.mem_cons_of_mem w hv)
    cases w.1
    · exact h
    · exact StatusChange.setFlag h (hw w List.mem_cons_self)

theorem StatusChange.fatalEntry (h : StatusChange on off s t) (hf : StatusFlag.fatal.bit ∈ on) (cls : ErrClass)
    (param : ErrParam) (ctrl : BitVec 8) (value : Int) (lo hi : Nat) :
    StatusChange on off s (fatalEntry t cls param ctrl value lo hi) :=
  ((((h.setFlag hf).set .errCode (by decide) _).set .errValue (by decide) _).set .errLo (by decide) _).set .errHi
    (by decide) _

/-- The start of a resolver command (R59 steps 1, 3, 4), after VALID is cleared, only adds the warnings. -/
theorem StatusChange.resolveStart {q : Resolution} (hw : ∀ w ∈ q.warnings, w.2.bit ∈ on)
    (h : StatusChange on off s (t.clearFlag .valid)) : StatusChange on off s (resolveStart t q) :=
  StatusChange.recordWarnings ((((h.set .res0 (by decide) _).set .res1 (by decide) _).set .tqClock (by decide) _).set
    .tqUser (by decide) _) hw

theorem StatusChange.resolveDeliver (h : StatusChange on off s t) (hv : StatusFlag.valid.bit ∈ on) (r : TimingResult) :
    StatusChange on off s (resolveDeliver t r) :=
  ((h.set .res0 (by decide) _).set .res1 (by decide) _).setFlag hv

theorem StatusChange.clearSlot (h : StatusChange on off s t) (hv : StatusFlag.avalid.bit ∈ off) :
    StatusChange on off s (clearSlot t) :=
  ((h.set .aaddr (by decide) _).set .aidx (by decide) _).clearFlag hv

/-- A flag outside both lists is as before. -/
theorem StatusChange.flag_eq (h : StatusChange on off s t) {f : StatusFlag} (hon : f.bit ∉ on) (hoff : f.bit ∉ off) :
    t.flag f = s.flag f := by
  obtain ⟨hup, hdown⟩ := h f.bit
  exact Bool.eq_iff_iff.2 ⟨hup hon, hdown hoff⟩

end

/-- The bits of STATUS a command can clear: VALID for a resolver command (R59 step 1), AVALID for ALLOC_BEGIN and
ALLOC_NEXT (R81, R82), all of them for CLR (R148). -/
def clearedStatusBits (i : Instr) : List Nat :=
  match i with
  | .resolveClassic | .resolveAuto | .resolveFd | .resolveCbt => [0]
  | .allocBegin _ | .allocNext => [3]
  | .nop | .allocEnd | .mapIndex | .ordCmp | .fltBegin | .fltEnc | .fltEnd => []
  | .clr => List.range 32

/-- A resolver command's STATUS (R59), for a rule whose warnings are among the bits `on`. -/
theorem statusChange_resolveFrame {on : List Nat} {f : State → Resolution} (s : State)
    (hw : ∀ w ∈ (f s).warnings, w.2.bit ∈ on) (hv : StatusFlag.valid.bit ∈ on) (hf : StatusFlag.fatal.bit ∈ on) :
    StatusChange on [0] s (resolveFrame f s) := by
  have hstart : StatusChange on [0] s (resolveStart s (f s)) :=
    StatusChange.resolveStart hw ((StatusChange.refl on [0] s).clearFlag (by decide))
  rcases resolveFrame_cases s f with ⟨_, he⟩ | ⟨c, _, _, he⟩ <;> rw [he]
  · exact hstart.resolveDeliver hv _
  · exact hstart.fatalEntry hf _ _ _ _ _ _

theorem statusChange_allocNext (s : State) : StatusChange [1, 2, 3] [3] s (allocNext s) := by
  have start := StatusChange.refl [1, 2, 3] [3] s
  rcases allocNext_cases s with ⟨_, he⟩ | ⟨_, f, _, he⟩ | ⟨_, p, _, he⟩ <;> rw [he]
  · exact start.setFlag (by decide)
  · exact ((start.fatalEntry (by decide) _ _ _ _ _ _).set .astat (by decide) _).clearSlot (by decide)
  · have hslot := ((start.set .aaddr (by decide) (BitVec.ofNat 32 p.address)).set .aidx (by decide)
      (aidxWord p)).setFlag (f := .avalid) (by decide)
    exact ((hslot.set .acur (by decide) _).set .astat (by decide) _).set .amax (by decide) _

/-- What a command can do to STATUS: the bits R56 lists for it come on, and those of `clearedStatusBits` go off. -/
theorem commandEffect_statusChange (i : Instr) (s : State) :
    StatusChange (commandStatusBits i) (clearedStatusBits i) s (commandEffect i s) := by
  have start := StatusChange.refl (commandStatusBits i) (clearedStatusBits i) s
  cases i with
  | nop => exact start
  | resolveClassic =>
    have warnings : ∀ w ∈ (classicResolution s).warnings, w.2.bit ∈ commandStatusBits .resolveClassic := by
      simp [classicResolution, commandStatusBits, StatusFlag.bit]
    exact statusChange_resolveFrame s warnings (by decide) (by decide)
  | resolveAuto => exact statusChange_resolveFrame s (by simp [autoResolution]) (by decide) (by decide)
  | resolveFd =>
    have warnings : ∀ w ∈ (fdResolution s).warnings, w.2.bit ∈ commandStatusBits .resolveFd := by
      simp [fdResolution, commandStatusBits, StatusFlag.bit]
    exact statusChange_resolveFrame s warnings (by decide) (by decide)
  | resolveCbt =>
    have warnings : ∀ w ∈ (cbtResolution s).warnings, w.2.bit ∈ commandStatusBits .resolveCbt := by
      simp [cbtResolution, commandStatusBits, StatusFlag.bit]
    exact statusChange_resolveFrame s warnings (by decide) (by decide)
  | allocBegin keepmax =>
    have hopen := ((start.set .acur (by decide) (BitVec.ofNat 32 s.cfg.mbBase)).set .astat (by decide)
      astatOpened).clearSlot (by simp [clearedStatusBits, StatusFlag.bit])
    cases keepmax
    · exact hopen.set .amax (by decide) _
    · exact hopen
  | allocNext => exact statusChange_allocNext s
  | allocEnd =>
    show StatusChange _ _ s (allocEnd s)
    rcases allocEnd_cases s with ⟨_, he⟩ | ⟨_, he⟩ <;> rw [he]
    · exact start.setFlag (by decide)
    · exact start.set .astat (by decide) _
  | mapIndex => exact start.set .mapout (by decide) _
  | ordCmp => exact start.set .ord (by decide) _
  | fltBegin => exact start.set .fltCnt (by decide) _
  | fltEnc => exact ((start.set .fltIdOut (by decide) _).set .fltMaskOut (by decide) _).set .fltCnt (by decide) _
  | fltEnd =>
    show StatusChange _ _ s (fltEnd s)
    rcases fltEnd_cases s with ⟨_, he⟩ | ⟨_, he⟩ <;> rw [he]
    · exact start
    · exact start.fatalEntry (by decide) _ _ _ _ _ _
  | clr =>
    intro k
    have hzero : (commandEffect .clr s).get .status = 0#32 := get_clearErrors s .status
    rw [hzero]
    refine ⟨fun _ h => by simp at h, fun hk hs => ?_⟩
    exact absurd (List.mem_range.2 (BitVec.lt_of_getLsbD hs)) hk

end Sys2Proof.Proofs

/-! ## Every step keeps the window invariant (O54) -/

namespace Sys2Proof.Proofs

open Sys2Proof Sys2Proof.Machine Sys2Proof.Laws

/-! ### What each clause of the invariant reads -/

section
variable {s t : State}

theorem errorRecordOk_congr (hf : t.flag .fatal = s.flag .fatal) (hcode : t.get .errCode = s.get .errCode)
    (hvalue : t.get .errValue = s.get .errValue) (hlo : t.get .errLo = s.get .errLo)
    (hhi : t.get .errHi = s.get .errHi) (h : ErrorRecordOk s) : ErrorRecordOk t := by
  unfold ErrorRecordOk errClass at *
  rwa [hf, hcode, hvalue, hlo, hhi]

theorem timingResultOk_congr (hv : t.flag .valid = s.flag .valid) (hres : t.get .res0 = s.get .res0)
    (h : TimingResultOk s) : TimingResultOk t := by
  unfold TimingResultOk at *
  rwa [hv, hres]

theorem slotOk_congr (hv : t.flag .avalid = s.flag .avalid) (hidx : t.get .aidx = s.get .aidx)
    (hmax : t.get .amax = s.get .amax) (h : SlotOk s) : SlotOk t := by
  unfold SlotOk State.maxMb at *
  rwa [hv, hidx, hmax]

theorem passOk_congr (hc : t.cfg = s.cfg) (hstat : t.get .astat = s.get .astat) (hcur : t.get .acur = s.get .acur)
    (h : PassOk s) : PassOk t := by
  unfold PassOk State.aState State.cursor State.first at *
  rwa [hc, hstat, hcur]

theorem ordOk_congr (ho : t.get .ord = s.get .ord) (h : OrdOk s) : OrdOk t := by
  unfold OrdOk at *
  rwa [ho]

/-! A refusal sets CMDERR only, which no clause reads (R146). -/

theorem errorRecordOk_refuse (h : ErrorRecordOk s) : ErrorRecordOk (refuse s) :=
  errorRecordOk_congr (flag_setFlag s .cmderr .fatal) (get_refuse s _ (by decide)) (get_refuse s _ (by decide))
    (get_refuse s _ (by decide)) (get_refuse s _ (by decide)) h

theorem slotOk_refuse (h : SlotOk s) : SlotOk (refuse s) :=
  slotOk_congr (flag_setFlag s .cmderr .avalid) (get_refuse s _ (by decide)) (get_refuse s _ (by decide)) h

theorem passOk_refuse (h : PassOk s) : PassOk (refuse s) :=
  passOk_congr (refuse_cfg s) (get_refuse s _ (by decide)) (get_refuse s _ (by decide)) h

/-! States in which a clause claims nothing: no slot or result marked valid, no pass open. -/

theorem slotOk_of_clear (h : s.flag .avalid = false) : SlotOk s := by simp [SlotOk, h]

theorem timingResultOk_of_clear (h : s.flag .valid = false) : TimingResultOk s := by simp [TimingResultOk, h]

theorem passOk_of_closed (h : s.aState.isOpen = false) : PassOk s := by simp [PassOk, h]

/-- A record written by the fatal error entry bears one of its three classes (R141, R143). -/
theorem errorRecordOk_of_fatal (hf : s.flag .fatal = true) {cls : ErrClass} {param : ErrParam} {ctrl : BitVec 8}
    (hcode : s.get .errCode = errCodeWord cls param ctrl) : ErrorRecordOk s := by
  have hcls : errClass s = cls.code := by
    have h1 := ctrl.isLt
    have h2 := cls.code.isLt
    have h3 := param.code.isLt
    apply BitVec.eq_of_toNat_eq
    rw [errClass, hcode, errCodeWord_eq, toNat_field, BitVec.toNat_ofNat]
    omega
  refine ⟨fun _ => ?_, fun h => by simp [hf] at h⟩
  rw [hcls]
  cases cls <;> decide

theorem errorRecordOk_fatalEntry (s : State) (cls : ErrClass) (param : ErrParam) (ctrl : BitVec 8) (value : Int)
    (lo hi : Nat) : ErrorRecordOk (fatalEntry s cls param ctrl value lo hi) :=
  errorRecordOk_of_fatal (by simp) (by simp [get_fatalEntry]; rfl)

end

/-! ### The resolver commands -/

/-- The STATUS bits of the warnings (R15, R145). -/
def warningBits : List Nat := [8, 9, 10, 11, 12]

/-- What the four resolution rules have in common: they raise warnings only, and their KIND is 1 to 4 (R26, R145). -/
structure ResolverRule (f : State → Resolution) : Prop where
  warnings : ∀ s, ∀ w ∈ (f s).warnings, w.2.bit ∈ warningBits
  kind : ∀ s, 1 ≤ (f s).result.kind.toNat ∧ (f s).result.kind.toNat ≤ 4

theorem classicResolution_rule : ResolverRule classicResolution where
  warnings s := by simp [classicResolution, warningBits, StatusFlag.bit]
  kind _ := (by decide : 1 ≤ (1#3).toNat ∧ (1#3).toNat ≤ 4)

theorem autoResolution_rule : ResolverRule autoResolution where
  warnings s := by simp [autoResolution]
  kind _ := (by decide : 1 ≤ (2#3).toNat ∧ (2#3).toNat ≤ 4)

theorem fdResolution_rule : ResolverRule fdResolution where
  warnings s := by simp [fdResolution, warningBits, StatusFlag.bit]
  kind _ := (by decide : 1 ≤ (3#3).toNat ∧ (3#3).toNat ≤ 4)

theorem cbtResolution_rule : ResolverRule cbtResolution where
  warnings s := by simp [cbtResolution, warningBits, StatusFlag.bit]
  kind _ := (by decide : 1 ≤ (4#3).toNat ∧ (4#3).toNat ≤ 4)

theorem field_res0Word_kind (t : TimingResult) (clkSrc : Bool) : field (res0Word t clkSrc) 24 3 = t.kind := by
  have hk := t.kind.isLt
  have hc := (BitVec.ofBool clkSrc).isLt
  have hp := (BitVec.ofInt 16 (t.presc - 1)).isLt
  apply BitVec.eq_of_toNat_eq
  simp only [toNat_field, res0Word, toNat_concat, BitVec.toNat_ofNat]
  omega

section
variable {s : State} {f : State → Resolution}

/-- R59 steps 1, 3 and 4 leave VALID clear: the warnings are other flags. -/
theorem flag_valid_resolveStart (hf : ResolverRule f) (s : State) : (resolveStart s (f s)).flag .valid = false := by
  have h : StatusChange warningBits [] (s.clearFlag .valid) (resolveStart s (f s)) :=
    StatusChange.resolveStart (hf.warnings s) (StatusChange.refl _ _ _)
  rw [h.flag_eq (by decide) (by decide)]
  simp

theorem timingResultOk_resolveFrame (hf : ResolverRule f) (s : State) : TimingResultOk (resolveFrame f s) := by
  rcases resolveFrame_cases s f with ⟨_, he⟩ | ⟨c, _, _, he⟩ <;> rw [he]
  · intro _
    have hres : (resolveDeliver (resolveStart s (f s)) (f s).result).get .res0 = res0Word (f s).result s.clkSrc :=
      get_resolveDeliver s (f s) .res0 _
    rw [hres, field_res0Word_kind]
    exact hf.kind s
  · apply timingResultOk_of_clear
    rw [raiseOutOfRange, flag_fatalEntry, flag_valid_resolveStart hf]
    rfl

theorem errorRecordOk_resolveFrame (hf : ResolverRule f) (h : ErrorRecordOk s) : ErrorRecordOk (resolveFrame f s) := by
  rcases resolveFrame_cases s f with ⟨_, he⟩ | ⟨c, _, _, he⟩ <;> rw [he]
  · have hstatus : StatusChange (0 :: warningBits) [0] s (resolveDeliver (resolveStart s (f s)) (f s).result) :=
      StatusChange.resolveDeliver (StatusChange.resolveStart (fun w hw => List.mem_cons_of_mem 0 (hf.warnings s w hw))
        ((StatusChange.refl _ _ s).clearFlag (by decide))) (by decide) _
    exact errorRecordOk_congr (hstatus.flag_eq (by decide) (by decide)) (get_resolveDeliver s _ .errCode _)
      (get_resolveDeliver s _ .errValue _) (get_resolveDeliver s _ .errLo _) (get_resolveDeliver s _ .errHi _) h
  · exact errorRecordOk_fatalEntry _ _ _ _ _ _ _

end

/-! ### The allocator commands -/

section
variable {s : State}

theorem Config.wf_iff {c : Config} : c.wf = true ↔ 72 ≤ c.regionSize ∧ c.mbBase + 65535 < 2 ^ 32 := by
  simp [Config.wf]

theorem flag_avalid_clearSlot (s : State) : (clearSlot s).flag .avalid = false := by simp [clearSlot]

theorem flag_avalid_allocBegin (keepmax : Bool) (s : State) : (allocBegin keepmax s).flag .avalid = false := by
  cases keepmax
  · exact (flag_set _ .amax _ _ (by decide)).trans (flag_avalid_clearSlot _)
  · exact flag_avalid_clearSlot _

/-- An open pass starts at `MB_BASE`, on a region boundary, with no first slot yet (R82). -/
theorem passOk_allocBegin (hw : s.cfg.wf = true) (keepmax : Bool) : PassOk (allocBegin keepmax s) := by
  obtain ⟨_, hfit⟩ := Config.wf_iff.1 hw
  have hcfg : (allocBegin keepmax s).cfg = s.cfg := (allocBegin_own s keepmax).1
  have hstat : (allocBegin keepmax s).get .astat = astatOpened := get_allocBegin s keepmax .astat
  have hcur : (allocBegin keepmax s).cursor = s.cfg.mbBase := by
    have hget : (allocBegin keepmax s).get .acur = BitVec.ofNat 32 s.cfg.mbBase := get_allocBegin s keepmax .acur
    rw [State.cursor, hget, BitVec.toNat_ofNat]
    exact Nat.mod_eq_of_lt (by omega)
  have hstate : (allocBegin keepmax s).aState = .atRegionStart := by
    rw [State.aState, hstat]
    rfl
  intro _
  rw [hcfg, hcur, hstate, hstat, Nat.sub_self, Nat.zero_mod]
  exact ⟨Nat.le_refl _, Nat.le_add_right _ _, by simp, fun _ => ⟨rfl, rfl⟩⟩

theorem aState_allocFail (s : State) (f : CapacityFailure) : (allocFail s f).aState = .regionExhausted := by
  have hstat : (allocFail s f).get .astat = setField (s.get .astat) 0 AState.regionExhausted.code :=
    get_allocFail s f .astat
  rw [State.aState, hstat]
  exact (astat_setState _ _).1

theorem aState_setAState (s : State) (a : AState) : (s.setAState a).aState = a := by
  rw [State.aState, State.setAState, get_set_self]
  exact (astat_setState _ _).1

theorem stateAfter_atRegionStart (e : AllocEnv) (next : Nat) :
    stateAfter e next = .atRegionStart ↔ off e next % e.cfg.regionSize = 0 := by
  unfold stateAfter
  split <;> simp_all

/-- After a slot is assigned the cursor stands behind it, and A_STATE tells whether that is a region boundary (R81). -/
theorem passOk_allocAssign (hw : s.cfg.wf = true) {d : Nat} {p : Slot} (hd : s.cfg.mbBase ≤ d)
    (hp : Placed s.allocEnv d p) : PassOk (allocAssign s p) := by
  obtain ⟨_, _, haddr, hnext, _, hfit⟩ := placed_fits hw hd hp
  have hcfg : (allocAssign s p).cfg = s.cfg := (allocAssign_own s p).1
  have hstat : (allocAssign s p).get .astat = astatAssigned s p := get_allocAssign s p .astat
  obtain ⟨hcode, hfirst, _⟩ := astatAssigned_fields s p
  have hcur : (allocAssign s p).cursor = p.next := by
    have hget : (allocAssign s p).get .acur = BitVec.ofNat 32 p.next := get_allocAssign s p .acur
    rw [State.cursor, hget, BitVec.toNat_ofNat]
    exact Nat.mod_eq_of_lt hfit
  have hstate : (allocAssign s p).aState = stateAfter s.allocEnv p.next := by rw [State.aState, hstat, hcode]
  have hnotfirst : (allocAssign s p).first = false := by rw [State.first, hstat, hfirst]
  have hbehind := hp.next
  intro _
  rw [hcfg, hcur, hstate, hnotfirst]
  exact ⟨by omega, hnext, stateAfter_atRegionStart s.allocEnv p.next, by simp⟩

/-- A slot assigned has one of the four payload lengths, and AMAX counts it (R32, R35, R85). -/
theorem slotOk_allocAssign (hw : s.cfg.wf = true) {d : Nat} {p : Slot} (hd : s.cfg.mbBase ≤ d)
    (hp : Placed s.allocEnv d p) : SlotOk (allocAssign s p) := by
  obtain ⟨hidx, hplen, _⟩ := placed_fits hw hd hp
  have hlen := payload_cases s.allocEnv (region s.allocEnv p.address)
  rw [← hp.plen] at hlen
  have hget : (allocAssign s p).get .aidx = aidxWord p := get_allocAssign s p .aidx
  obtain ⟨hindex, hpayload⟩ := field_aidxWord p
  intro _
  rw [hget, hindex, hpayload, maxMb_allocAssign p (by omega), BitVec.toNat_ofNat, BitVec.toNat_ofNat,
    Nat.mod_eq_of_lt (by omega : p.plen < 2 ^ 8), Nat.mod_eq_of_lt (by omega : p.index < 2 ^ 16)]
  exact ⟨hlen, by omega⟩

/-- The slot ALLOC_NEXT assigns in an open pass is placed at or above the cursor. -/
theorem placed_of_pass (h : WindowInv s) (hopen : s.aState.isOpen = true) {p : Slot}
    (hp : placeMany s.allocEnv (reservedSlots s) s.cursor = .ok p) :
    ∃ d, s.cfg.mbBase ≤ d ∧ Placed s.allocEnv d p := by
  obtain ⟨hbase, _⟩ := h.pass hopen
  obtain ⟨d, hd, hplaced⟩ := placeMany_ok (e := s.allocEnv) h.parameters hbase hp
  exact ⟨d, hbase.trans hd, hplaced⟩

end

/-! ### Every command keeps every clause -/

section
variable {s : State}

/-- Outside STATUS and the Writes column a register is as before the command (R56). -/
theorem get_commandEffect (i : Instr) (s : State) {r : Reg} (hr : r ∉ .status :: commandWrites i) :
    (commandEffect i s).get r = s.get r := (commandEffect_unchanged i s).1 r hr

/-- A flag R56 does not list for a command is as before it. -/
theorem flag_commandEffect (i : Instr) (s : State) {f : StatusFlag} (hf : f.bit ∉ commandStatusBits i)
    (hf' : f.bit ∉ clearedStatusBits i) : (commandEffect i s).flag f = s.flag f :=
  (commandEffect_statusChange i s).flag_eq hf hf'

theorem flag_clearErrors (s : State) (f : StatusFlag) : (clearErrors s).flag f = false := by
  simp [State.flag, get_clearErrors]

theorem errorRecordOk_commandEffect (h : ErrorRecordOk s) (i : Instr) : ErrorRecordOk (commandEffect i s) := by
  cases i
  case resolveClassic => exact errorRecordOk_resolveFrame classicResolution_rule h
  case resolveAuto => exact errorRecordOk_resolveFrame autoResolution_rule h
  case resolveFd => exact errorRecordOk_resolveFrame fdResolution_rule h
  case resolveCbt => exact errorRecordOk_resolveFrame cbtResolution_rule h
  case allocNext =>
    show ErrorRecordOk (allocNext s)
    rcases allocNext_cases s with ⟨_, he⟩ | ⟨_, f, _, he⟩ | ⟨_, p, _, he⟩ <;> rw [he]
    · exact errorRecordOk_refuse h
    · refine errorRecordOk_of_fatal ?_ (get_allocFail s f .errCode)
      simp [allocFail, clearSlot, State.setAState, raiseCapacityExceeded, flag_set]
    · refine errorRecordOk_congr ?_ (get_allocAssign s p .errCode) (get_allocAssign s p .errValue)
        (get_allocAssign s p .errLo) (get_allocAssign s p .errHi) h
      simp [allocAssign, flag_set]
  case fltEnd =>
    show ErrorRecordOk (fltEnd s)
    rcases fltEnd_cases s with ⟨_, he⟩ | ⟨_, he⟩ <;> rw [he]
    · exact h
    · exact errorRecordOk_fatalEntry _ _ _ _ _ _ _
  case clr =>
    exact ⟨fun hf => absurd hf (by simp [commandEffect, flag_clearErrors]), fun _ =>
      ⟨get_clearErrors s _, get_clearErrors s _, get_clearErrors s _, get_clearErrors s _⟩⟩
  all_goals
    exact errorRecordOk_congr (flag_commandEffect _ s (by decide +revert) (by decide +revert))
      (get_commandEffect _ s (by simp [commandWrites])) (get_commandEffect _ s (by simp [commandWrites]))
      (get_commandEffect _ s (by simp [commandWrites])) (get_commandEffect _ s (by simp [commandWrites])) h

theorem timingResultOk_commandEffect (h : TimingResultOk s) (i : Instr) : TimingResultOk (commandEffect i s) := by
  cases i
  case resolveClassic => exact timingResultOk_resolveFrame classicResolution_rule s
  case resolveAuto => exact timingResultOk_resolveFrame autoResolution_rule s
  case resolveFd => exact timingResultOk_resolveFrame fdResolution_rule s
  case resolveCbt => exact timingResultOk_resolveFrame cbtResolution_rule s
  case clr => exact timingResultOk_of_clear (flag_clearErrors s _)
  all_goals
    exact timingResultOk_congr (flag_commandEffect _ s (by decide +revert) (by decide +revert))
      (get_commandEffect _ s (by simp [commandWrites])) h

theorem slotOk_commandEffect (h : WindowInv s) (i : Instr) : SlotOk (commandEffect i s) := by
  cases i
  case allocBegin keepmax => exact slotOk_of_clear (flag_avalid_allocBegin keepmax s)
  case allocNext =>
    show SlotOk (allocNext s)
    rcases allocNext_cases s with ⟨_, he⟩ | ⟨_, f, _, he⟩ | ⟨hopen, p, hp, he⟩ <;> rw [he]
    · exact slotOk_refuse h.slot
    · exact slotOk_of_clear (flag_avalid_clearSlot _)
    · obtain ⟨d, hd, hplaced⟩ := placed_of_pass h hopen hp
      exact slotOk_allocAssign h.parameters hd hplaced
  case clr => exact slotOk_of_clear (flag_clearErrors s _)
  all_goals
    exact slotOk_congr (flag_commandEffect _ s (by decide) (by decide))
      (get_commandEffect _ s (by decide)) (get_commandEffect _ s (by decide)) h.slot

theorem passOk_commandEffect (h : WindowInv s) (i : Instr) : PassOk (commandEffect i s) := by
  cases i
  case allocBegin keepmax => exact passOk_allocBegin h.parameters keepmax
  case allocNext =>
    show PassOk (allocNext s)
    rcases allocNext_cases s with ⟨_, he⟩ | ⟨_, f, _, he⟩ | ⟨hopen, p, hp, he⟩ <;> rw [he]
    · exact passOk_refuse h.pass
    · exact passOk_of_closed (by rw [aState_allocFail]; rfl)
    · obtain ⟨d, hd, hplaced⟩ := placed_of_pass h hopen hp
      exact passOk_allocAssign h.parameters hd hplaced
  case allocEnd =>
    show PassOk (allocEnd s)
    rcases allocEnd_cases s with ⟨_, he⟩ | ⟨_, he⟩ <;> rw [he]
    · exact passOk_refuse h.pass
    · exact passOk_of_closed (by rw [aState_setAState]; rfl)
  all_goals
    exact passOk_congr (commandEffect_unchanged _ s).2.1 (get_commandEffect _ s (by decide))
      (get_commandEffect _ s (by decide)) h.pass

theorem ordOk_commandEffect (h : OrdOk s) (i : Instr) : OrdOk (commandEffect i s) := by
  cases i
  case ordCmp =>
    have hord : (commandEffect .ordCmp s).get .ord = ordWord s.keyA s.keyB := get_set_self s .ord _
    rw [OrdOk, hord, ordWord_eq]
    split <;> [skip; split] <;> simp
  all_goals exact ordOk_congr (get_commandEffect _ s (by simp [commandWrites])) h

/-- The effect of a command keeps the invariant, clause by clause. -/
theorem windowInv_commandEffect (h : WindowInv s) (i : Instr) : WindowInv (commandEffect i s) where
  parameters := by rw [(commandEffect_unchanged i s).2.1]; exact h.parameters
  reserved := reservedZero_commandEffect h.reserved i
  errors := errorRecordOk_commandEffect h.errors i
  timing := timingResultOk_commandEffect h.timing i
  slot := slotOk_commandEffect h i
  pass := passOk_commandEffect h i
  ordering := ordOk_commandEffect h.ordering i

theorem windowInv_refuse (h : WindowInv s) : WindowInv (refuse s) where
  parameters := by rw [refuse_cfg]; exact h.parameters
  reserved := reservedZero_setFlag h.reserved .cmderr
  errors := errorRecordOk_refuse h.errors
  timing := timingResultOk_congr (flag_setFlag s .cmderr .valid) (get_refuse s _ (by decide)) h.timing
  slot := slotOk_refuse h.slot
  pass := passOk_refuse h.pass
  ordering := ordOk_congr (get_refuse s _ (by decide)) h.ordering

/-- A command, refused or not, keeps the invariant. -/
theorem windowInv_exec (h : WindowInv s) {i : Instr} {t : State} (he : exec i s = .next t) : WindowInv t := by
  rcases exec_cases he with ⟨_, rfl⟩ | rfl
  · exact windowInv_refuse h
  · exact windowInv_commandEffect h i

/-! ### Every step keeps the invariant -/

/-- But for the zero fields, the clauses read registers the host cannot write. -/
theorem windowInv_of_readOnly {t : State} (h : WindowInv s) (hc : t.cfg = s.cfg) (hz : ReservedZero t)
    (hro : ∀ r : Reg, r.writable = false → t.get r = s.get r) : WindowInv t := by
  have hflag : ∀ f, t.flag f = s.flag f := fun f => by rw [State.flag, State.flag, hro .status rfl]
  exact
    { parameters := by rw [hc]; exact h.parameters
      reserved := hz
      errors := errorRecordOk_congr (hflag _) (hro _ rfl) (hro _ rfl) (hro _ rfl) (hro _ rfl) h.errors
      timing := timingResultOk_congr (hflag _) (hro _ rfl) h.timing
      slot := slotOk_congr (hflag _) (hro _ rfl) (hro _ rfl) h.slot
      pass := passOk_congr hc (hro _ rfl) (hro _ rfl) h.pass
      ordering := ordOk_congr (hro _ rfl) h.ordering }

theorem windowInv_answer (h : WindowInv s) (a : Reply) : WindowInv (s.answer a) :=
  windowInv_of_readOnly h rfl (fun r => by rw [get_answer]; exact h.reserved r) fun r _ => get_answer s r a

theorem windowInv_withPending (h : WindowInv s) (es : List HostEvent) : WindowInv (s.withPending es) :=
  windowInv_of_readOnly h rfl (fun r => by rw [get_withPending]; exact h.reserved r) fun r _ => get_withPending s r es

theorem get_windowWrite_readOnly (s : State) (addr : Nat) (v : Word) {r : Reg} (hr : r.writable = false) :
    (windowWrite s addr v).get r = s.get r := by
  simp [get_windowWrite, hr]

theorem windowInv_windowWrite (h : WindowInv s) (addr : Nat) (v : Word) : WindowInv (windowWrite s addr v) :=
  windowInv_of_readOnly h (windowWrite_cfg s addr v) (reservedZero_windowWrite h.reserved addr v)
    fun _ hr => get_windowWrite_readOnly s addr v hr

/-- CMD takes any word (R14). -/
theorem windowInv_storeCmd (h : WindowInv s) (w : Word) : WindowInv (s.set .cmd w) := by
  rw [← windowWrite_cmd]
  exact windowInv_windowWrite h 0x00 w

theorem flag_hardReset (s : State) (f : StatusFlag) : (hardReset s).flag f = false := by
  simp [State.flag, get_hardReset]

/-- RESET gives the invariant wherever the parameters are legal (R161). -/
theorem windowInv_hardReset (hw : s.cfg.wf = true) : WindowInv (hardReset s) where
  parameters := hw
  reserved r := by
    rw [get_hardReset]
    cases r <;> decide
  errors := ⟨fun hf => by simp [flag_hardReset] at hf, fun _ => ⟨rfl, rfl, rfl, rfl⟩⟩
  timing := timingResultOk_of_clear (flag_hardReset s _)
  slot := slotOk_of_clear (flag_hardReset s _)
  pass := passOk_of_closed rfl
  ordering := .inl rfl

end

/-- Settles O54: each of the cases of `step_cases` is put together from operations that keep the invariant. -/
theorem stepKeepsInvariant : Obligations.StepKeepsInvariant := by
  intro s t hinv hstep
  rcases step_cases hstep with ⟨a, rfl, _⟩ | ⟨es, _, rfl⟩ | ⟨es, addr, v, _, _, rfl⟩ | ⟨es, w, e, _, _, rfl⟩ |
    ⟨es, w, i, u, _, _, hexec, rfl⟩
  · exact windowInv_answer (windowInv_withPending hinv _) a
  · exact windowInv_hardReset hinv.parameters
  · exact windowInv_answer (windowInv_windowWrite (windowInv_withPending hinv es) addr v) .ack
  · exact windowInv_answer (windowInv_refuse (windowInv_storeCmd (windowInv_withPending hinv es) w)) .ack
  · exact windowInv_answer (windowInv_exec (windowInv_storeCmd (windowInv_withPending hinv es) w) hexec) .ack

end Sys2Proof.Proofs

/-! ## Sticky flags and the error record (O19, O20) -/

namespace Sys2Proof.Proofs

open Sys2Proof Sys2Proof.Machine Sys2Proof.Laws

/-! ### The word of a command -/

/-- A word is its reserved bits, its modifier and its command code (R53). -/
theorem word_eq_fields (w : Word) :
    w = w.extractLsb' 9 23 ++ BitVec.ofBool (w.getLsbD 8) ++ w.extractLsb' 0 8 := by
  apply BitVec.eq_of_getLsbD_eq
  intro k hk
  rw [BitVec.getLsbD_append, BitVec.getLsbD_append]
  split
  · next h => simp [h]
  · split
    · next h8 h =>
      obtain rfl : k = 8 := by omega
      simp
    · next h8 h =>
      have hlt : k - 8 - 1 < 23 := by omega
      have hadd : 9 + (k - 8 - 1) = k := by omega
      simp [hlt, hadd]

/-- One line of `decodeOpcode`: it gives its command, or the lines after it do. -/
theorem ok_of_ite {p : Prop} [Decidable p] {a i : Instr} {rest : Except DecodeError Instr}
    (h : (if p then .ok a else rest) = .ok i) : (p ∧ a = i) ∨ rest = .ok i := by
  split at h
  · next hp => exact .inl ⟨hp, Except.ok.inj h⟩
  · exact .inr h

/-- The row of R54 a code and a modifier select has that code and that modifier. -/
theorem decodeOpcode_ok {opc : BitVec 8} {m : Bool} {i : Instr} (h : decodeOpcode opc m = .ok i) :
    i.opc = opc ∧ i.modifier = m := by
  rcases ok_of_ite h with ⟨hc, rfl⟩ | h
  · exact ⟨hc.symm, rfl⟩
  cases m
  case true => cases h
  case false =>
    -- one line for each of the thirteen commands without a modifier
    iterate 13
      rcases ok_of_ite h with ⟨hc, rfl⟩ | h
      · exact ⟨hc.symm, rfl⟩
    cases h

/-- A word that decodes to a command is the command's word (R53 to R55). -/
theorem decode_ok_encode {w : Word} {i : Instr} (h : decode w = .ok i) : w = encode i := by
  unfold decode at h
  split at h
  · cases h
  · next hz =>
    obtain ⟨hopc, hmod⟩ := decodeOpcode_ok h
    rw [encode, hopc, hmod, ← not_not.1 hz]
    exact word_eq_fields w

/-! ### Flags across the operations of a step -/

section
variable {s t : State}

@[simp] theorem flag_answer (s : State) (a : Reply) (f : StatusFlag) : (s.answer a).flag f = s.flag f := rfl

@[simp] theorem flag_withPending (s : State) (es : List HostEvent) (f : StatusFlag) :
    (s.withPending es).flag f = s.flag f := rfl

@[simp] theorem flag_windowWrite (s : State) (addr : Nat) (v : Word) (f : StatusFlag) :
    (windowWrite s addr v).flag f = s.flag f := by
  rw [State.flag, State.flag, get_windowWrite_readOnly s addr v rfl]

@[simp] theorem flag_storeCmd (s : State) (w : Word) (f : StatusFlag) : (s.set .cmd w).flag f = s.flag f :=
  flag_set s .cmd w f (by decide)

/-- A refusal clears no flag. -/
theorem flag_refuse_of_flag {f : StatusFlag} (h : s.flag f = true) : (refuse s).flag f = true := by
  simp [refuse, h]

/-- No command but CLR clears a bit of STATUS other than VALID and AVALID (R15). -/
theorem clearedStatusBits_subset {i : Instr} (hi : i ≠ .clr) {k : Nat} (hk : k ∈ clearedStatusBits i) :
    k = 0 ∨ k = 3 := by
  cases i <;> simp_all [clearedStatusBits]

theorem flag_exec_of_sticky {i : Instr} (hi : i ≠ .clr) {f : StatusFlag} (hv : f ≠ .valid) (ha : f ≠ .avalid)
    (hf : s.flag f = true) (he : exec i s = .next t) : t.flag f = true := by
  rcases exec_cases he with ⟨_, rfl⟩ | rfl
  · exact flag_refuse_of_flag hf
  · refine (commandEffect_statusChange i s f.bit).2 (fun hmem => ?_) hf
    rcases clearedStatusBits_subset hi hmem with h0 | h3
    · exact hv (StatusFlag.bit_inj f .valid |>.1 h0)
    · exact ha (StatusFlag.bit_inj f .avalid |>.1 h3)

/-- The registers of the error record (R16, R17). -/
def errorRegs : List Reg := [.errCode, .errValue, .errLo, .errHi]

/-- With a fatal error latched, a command that leaves it latched leaves its record (R147). -/
theorem errorRegs_exec_of_fatal {i : Instr} (hf : s.flag .fatal = true) (he : exec i s = .next t)
    (ht : t.flag .fatal = true) {r : Reg} (hr : r ∈ errorRegs) : t.get r = s.get r := by
  by_cases hn : i = .nop
  · subst hn
    exact congrArg (State.get · r) (Host.Outcome.next.inj he).symm
  by_cases hc : i = .clr
  · subst hc
    obtain rfl := Host.Outcome.next.inj he
    rw [flag_clearErrors] at ht
    cases ht
  · rw [exec_of_fatal hf hn hc] at he
    obtain rfl := Host.Outcome.next.inj he
    exact get_refuse s r (by rintro rfl; simp [errorRegs] at hr)

/-- R16 for a whole step: while FATAL stays set, so does the record. -/
theorem errorRegs_step_of_fatal (hf : s.flag .fatal = true) (hstep : step s = .next t)
    (ht : t.flag .fatal = true) {r : Reg} (hr : r ∈ errorRegs) : t.get r = s.get r := by
  have hro : r.writable = false := by revert hr; cases r <;> simp [errorRegs, Reg.writable]
  have hcmd : ∀ (es : List HostEvent) (w : Word), ((s.withPending es).set .cmd w).get r = s.get r := by
    intro es w
    rw [← windowWrite_cmd, get_windowWrite_readOnly _ _ _ hro, get_withPending]
  rcases step_cases hstep with ⟨a, rfl, _⟩ | ⟨es, _, rfl⟩ | ⟨es, addr, v, _, _, rfl⟩ | ⟨es, w, e, _, _, rfl⟩ |
    ⟨es, w, i, u, _, _, hexec, rfl⟩
  · simp
  · rw [flag_hardReset] at ht
    cases ht
  · rw [get_answer, get_windowWrite_readOnly _ _ _ hro, get_withPending]
  · rw [get_answer, get_refuse _ _ (by rintro rfl; simp [errorRegs] at hr), hcmd]
  · rw [get_answer, errorRegs_exec_of_fatal (by simpa using hf) hexec ht hr, hcmd]

end

/-- Settles O19: of the cases of `step_cases` only RESET and a command can clear a flag, and the only command that clears
a sticky one is CLR, whose word is 0x7F. -/
theorem stickyFlagsStaySet : Obligations.StickyFlagsStaySet := by
  intro s t f hv ha hf hstep
  rcases step_cases hstep with ⟨a, rfl, _⟩ | ⟨es, hp, rfl⟩ | ⟨es, addr, v, _, _, rfl⟩ | ⟨es, w, e, _, _, rfl⟩ |
    ⟨es, w, i, u, hp, hd, hexec, rfl⟩
  · exact .inl (by simpa using hf)
  · exact .inr (.inl ⟨es, hp⟩)
  · exact .inl (by simpa using hf)
  · exact .inl (flag_refuse_of_flag (by simpa using hf))
  · by_cases hi : i = .clr
    · subst hi
      obtain rfl : w = 0x0000007F#32 := decode_ok_encode hd
      exact .inr (.inr ⟨es, hp⟩)
    · have hu : u.flag f = true := flag_exec_of_sticky hi hv ha (by simpa using hf) hexec
      exact .inl hu

/-- Settles O20. -/
theorem fatalRecordKept : Obligations.FatalRecordKept := by
  intro s t hf hstep ht
  have kept {r : Reg} (hr : r ∈ errorRegs) : t.get r = s.get r := errorRegs_step_of_fatal hf hstep ht hr
  exact ⟨kept (by decide), kept (by decide), kept (by decide), kept (by decide)⟩

end Sys2Proof.Proofs

/-! ## The port and the register map (O5, O9) -/

namespace Sys2Proof.Proofs

open Sys2Proof Sys2Proof.Machine Sys2Proof.Laws

/-- Settles O5: the rule `step_command`, which needs no well-formedness, since every term of `Instr` is a command. -/
theorem stepRunsDecodedCommand : Obligations.StepRunsDecodedCommand :=
  fun _ _ _ _ hp hd _ => step_command hp hd

section
variable (s : State)

/-- A register's row of R11's table: its offset, its access, its fields. -/
def mapRow (r : Reg) : Reg × Nat × Bool × Word := (r, r.offset, r.writable, r.fields)

theorem mem_all (r : Reg) : r ∈ Reg.all := by cases r <;> simp [Reg.all]

theorem windowWord_offset (r : Reg) : windowWord s r.offset = s.get r := by simp [windowWord]

/-- An offset where no register stands reads 0 (R41). -/
theorem windowWord_of_reserved {addr : Nat} (h : ∀ r : Reg, r.offset ≠ addr) : windowWord s addr = 0#32 := by
  unfold windowWord
  split
  · next r hr => exact absurd (ofOffset_eq_some hr) (h r)
  · rfl

/-- What the host reads back where it wrote (R43). -/
theorem windowWord_windowWrite (r : Reg) (v : Word) :
    windowWord (windowWrite s r.offset v) r.offset = if r.writable then mergeFields r (s.get r) v else s.get r := by
  simp [windowWord_offset, get_windowWrite]

end

/-- Settles O9: the table is `mapRow` of each register, so each of its claims is a lemma about the register of the row. -/
theorem registerMapOffsets : Obligations.RegisterMapOffsets := by
  unfold Obligations.RegisterMapOffsets
  intro rows
  have hrows : rows = Reg.all.map mapRow := rfl
  clear_value rows
  subst hrows
  refine ⟨fun r => List.mem_map_of_mem (mem_all r), fun s row hrow => ?_, fun s v row hrow => ?_, fun s addr haddr => ?_⟩
  · obtain ⟨r, _, rfl⟩ := List.mem_map.1 hrow
    exact windowWord_offset s r
  · obtain ⟨r, _, rfl⟩ := List.mem_map.1 hrow
    exact windowWord_windowWrite s r v
  · refine windowWord_of_reserved s fun r hr => haddr ?_
    rw [List.map_map]
    exact List.mem_map.2 ⟨r, mem_all r, hr⟩

end Sys2Proof.Proofs

/-! ## Accesses of the register window (O6, O7, O8, O10, O12) -/

namespace Sys2Proof.Proofs

open Sys2Proof Sys2Proof.Machine Sys2Proof.Laws

/-! ### Which accesses are legal (spec/20_memory.md R46) -/

theorem accessLegal_iff {addr n : Nat} : accessLegal addr n = true ↔ n = 4 ∧ addr % 4 = 0 ∧ addr ≤ 0xFC := by
  simp [accessLegal, and_assoc]

theorem accessLegal_eq_false_iff {addr n : Nat} :
    accessLegal addr n = false ↔ ¬(n = 4 ∧ addr % 4 = 0 ∧ addr ≤ 0xFC) := by
  rw [← accessLegal_iff, Bool.not_eq_true]

section
variable {s : State} {es : List HostEvent} {addr n : Nat} {v : Word}

/-- An illegal access is only answered, whichever way the data would have gone (R46). -/
theorem step_illegal_access (hp : s.pending = .read addr n :: es ∨ s.pending = .write addr n v :: es)
    (ha : accessLegal addr n = false) : step s = .next ((s.withPending es).answer (.fault (.busError addr n))) := by
  rcases hp with hread | hwrite
  · exact step_read_illegal hread ha
  · exact step_write_illegal hwrite ha

end

/-- Settles O6: width, alignment and range each make the access illegal, and an illegal access is only answered. -/
theorem illegalAccessChangesNothing : Obligations.IllegalAccessChangesNothing := by
  intro s es addr n v hbad hp
  have ha : accessLegal addr n = false := by
    rw [accessLegal_eq_false_iff]
    omega
  exact ⟨_, step_illegal_access hp ha, rfl, by simp, rfl, rfl⟩

/-- Settles O7: a legal read is answered with `windowWord`, which is the register at the offset or 0; an illegal one with
the bus error. -/
theorem readReturnsRegister : Obligations.ReadReturnsRegister := by
  intro s es addr n hp
  by_cases hl : n = 4 ∧ addr % 4 = 0 ∧ addr ≤ 0xFC
  · refine ⟨_, step_read hp (accessLegal_iff.2 hl), by simp, rfl, rfl, fun _ => ⟨?_, ?_⟩,
      fun hn => absurd hl hn⟩
    · rintro r rfl
      rw [answer_reply, windowWord_offset, get_withPending]
    · intro hreserved
      rw [answer_reply, windowWord_of_reserved _ hreserved]
  · exact ⟨_, step_read_illegal hp (accessLegal_eq_false_iff.2 hl), by simp, rfl, rfl, fun h => absurd h hl,
      fun _ => rfl⟩

/-! ### What a write leaves in the registers (R43, R47) -/

/-- A host write, bit by bit: only the fields of the writable register at the offset take the bits written (R43, R41). -/
theorem getLsbD_get_windowWrite (s : State) (addr : Nat) (v : Word) (r : Reg) {k : Nat} (hk : k < 32) :
    ((windowWrite s addr v).get r).getLsbD k =
      if r.offset = addr ∧ r.writable = true ∧ r.fields.getLsbD k = true then v.getLsbD k
      else (s.get r).getLsbD k := by
  rw [get_windowWrite]
  by_cases hr : r.offset = addr ∧ r.writable = true
  · rw [if_pos hr, getLsbD_mergeFields _ _ _ _ hk]
    simp only [hr, true_and]
  · have hbit : ¬(r.offset = addr ∧ r.writable = true ∧ r.fields.getLsbD k = true) :=
      fun ⟨ho, hw, _⟩ => hr ⟨ho, hw⟩
    rw [if_neg hr, if_neg hbit]

/-- Settles O8: the step of a legal write beside CMD is `windowWrite`. -/
theorem writeReplacesWritableFields : Obligations.WriteReplacesWritableFields := by
  intro s es addr v halign hrange hcmd hp
  refine ⟨_, step_write hp (accessLegal_iff.2 ⟨rfl, halign, hrange⟩) hcmd, rfl, by simp, by simp, fun r k hk => ?_⟩
  rw [get_answer, getLsbD_get_windowWrite _ _ _ _ hk, get_withPending]

/-- Replacing the fields again by the same word does nothing. -/
theorem mergeFields_mergeFields (r : Reg) (old v : Word) :
    mergeFields r (mergeFields r old v) v = mergeFields r old v := by
  apply BitVec.eq_of_getLsbD_eq
  intro k hk
  rw [getLsbD_mergeFields _ (mergeFields r old v) _ _ hk]
  split
  · next hf => rw [getLsbD_mergeFields _ _ _ _ hk, if_pos hf]
  · rfl

/-- Settles O10: at the register written the replacement is idempotent, and every other register is left alone twice. -/
theorem operandWritesIdempotent : Obligations.OperandWritesIdempotent := by
  intro s addr v
  refine state_ext (fun r => ?_) (by simp) (by simp) (by simp)
  rw [get_windowWrite (windowWrite s addr v)]
  split
  · next hr => rw [get_windowWrite, if_pos hr, mergeFields_mergeFields]
  · rfl

/-! ### What changes no register (R49) -/

/-- Settles O12: of the cases of `step_cases` all but the bare answer start from a RESET or a 4-byte write. -/
theorem registersChangeOnlyByWrites : Obligations.RegistersChangeOnlyByWrites := by
  intro s hnowrite hnoreset
  obtain ⟨t, ht⟩ := step_next s
  refine ⟨t, ht, fun r => ?_, step_keeps_parameters ht⟩
  rcases step_cases ht with ⟨a, rfl, _⟩ | ⟨es, hp, _⟩ | ⟨es, addr, v, hp, _⟩ | ⟨es, w, e, hp, _⟩ |
    ⟨es, w, i, u, hp, _⟩
  · rw [get_answer, get_withPending]
  · exact absurd ⟨es, hp⟩ hnoreset
  · exact absurd ⟨es, addr, v, hp⟩ hnowrite
  · exact absurd ⟨es, 0x00, w, hp⟩ hnowrite
  · exact absurd ⟨es, 0x00, w, hp⟩ hnowrite

end Sys2Proof.Proofs

/-! ## The decoder and the encoder (O1, O2, O3, O4) -/

namespace Sys2Proof.Proofs

open Sys2Proof Sys2Proof.Machine Sys2Proof.Laws

/-! ### The fields of a command's word (spec/30_encoding.md R53) -/

section
variable (i : Instr)

theorem encode_reserved : (encode i).extractLsb' 9 23 = 0#23 := by
  apply BitVec.eq_of_getLsbD_eq
  intro k hk
  have hopc : ¬9 + k < 8 := by omega
  have hmod : ¬9 + k - 8 < 1 := by omega
  rw [encode, BitVec.getLsbD_extractLsb', BitVec.getLsbD_append, BitVec.getLsbD_append, if_neg hopc, if_neg hmod]
  simp

theorem encode_modifier : (encode i).getLsbD 8 = i.modifier := by
  rw [encode, BitVec.getLsbD_append, BitVec.getLsbD_append]
  simp

theorem encode_opc : (encode i).extractLsb' 0 8 = i.opc := BitVec.extractLsb'_append_eq_right

/-- The code and the modifier of a command select its own row of R54. -/
theorem decodeOpcode_opc : decodeOpcode i.opc i.modifier = .ok i := by cases i <;> rfl

/-- Only format C1 has a modifier, and only ALLOC_BEGIN has format C1 (R53). -/
theorem opc_of_modifier (h : i.modifier = true) : i.opc = 0x10#8 := by
  cases i
  case allocBegin => rfl
  all_goals cases h

end

/-! ### What the decoder answers -/

/-- A command's word decodes to the command. -/
theorem decode_encode (i : Instr) : decode (encode i) = .ok i := by
  rw [decode, encode_reserved, encode_modifier, encode_opc, decodeOpcode_opc]
  rfl

/-- The decoder inverts the encoder, and accepts no other word (R54, R55). -/
theorem decode_eq_ok_iff {w : Word} {i : Instr} : decode w = .ok i ↔ encode i = w := by
  constructor
  · intro h
    exact (decode_ok_encode h).symm
  · rintro rfl
    exact decode_encode i

/-- Settles O1. -/
theorem decodeEncodeAgree : Obligations.DecodeEncodeAgree := fun _ _ => decode_eq_ok_iff

/-- A word is a command's word exactly where its three fields are the command's (R53). -/
theorem encode_eq_iff {w : Word} {i : Instr} :
    encode i = w ↔ w.extractLsb' 9 23 = 0#23 ∧ w.getLsbD 8 = i.modifier ∧ w.extractLsb' 0 8 = i.opc := by
  constructor
  · rintro rfl
    exact ⟨encode_reserved i, encode_modifier i, encode_opc i⟩
  · rintro ⟨hres, hmod, hopc⟩
    rw [word_eq_fields w, hres, hmod, hopc, encode]

/-! ### The rows of the opcode map (R54) -/

/-- The command whose word is the match value of each row of R54, in the order of its table. -/
def rowCommands : List Instr :=
  [.nop, .resolveClassic, .resolveAuto, .resolveFd, .resolveCbt, .allocBegin false, .allocNext, .allocEnd, .mapIndex,
    .ordCmp, .fltBegin, .fltEnc, .fltEnd, .clr]

/-- The mask of a command's row: KEEPMAX, bit 8 of ALLOC_BEGIN, is the one bit a row leaves open. -/
def rowMask : Instr → Word
  | .allocBegin _ => 0xFFFFFEFF#32
  | _ => 0xFFFFFFFF#32

/-- The row of R54 of a command: mnemonic, match, mask. -/
def commandRow (i : Instr) : String × Word × Word := (i.mnemonic, encode i, rowMask i)

/-- Every command's word matches the row of its mnemonic. -/
theorem exists_row (i : Instr) :
    ∃ j ∈ rowCommands, j.mnemonic = i.mnemonic ∧ encode i &&& rowMask j = encode j := by
  cases i
  case allocBegin keepmax =>
    refine ⟨.allocBegin false, by simp [rowCommands], rfl, ?_⟩
    cases keepmax <;> rfl
  all_goals exact ⟨_, by simp [rowCommands], rfl, rfl⟩

/-- A word that matches the row of ALLOC_BEGIN is its word, with KEEPMAX as in bit 8. -/
theorem encode_allocBegin_of_row {w : Word} {keepmax : Bool} (h : w &&& 0xFFFFFEFF#32 = encode (.allocBegin keepmax)) :
    encode (.allocBegin (w.getLsbD 8)) = w := by
  have hres := encode_reserved (.allocBegin keepmax)
  have hopc := encode_opc (.allocBegin keepmax)
  rw [← h, BitVec.extractLsb'_and] at hres hopc
  exact encode_eq_iff.2 ⟨(BitVec.and_allOnes (x := w.extractLsb' 9 23)).symm.trans hres, rfl,
    (BitVec.and_allOnes (x := w.extractLsb' 0 8)).symm.trans hopc⟩

/-- A word that matches a row decodes to a command of the row's mnemonic. -/
theorem decode_of_row {w : Word} {j : Instr} (h : w &&& rowMask j = encode j) :
    ∃ i, decode w = .ok i ∧ i.mnemonic = j.mnemonic := by
  have full : ∀ {j : Instr}, w &&& BitVec.allOnes 32 = encode j → decode w = .ok j := by
    intro j hj
    rw [BitVec.and_allOnes] at hj
    exact decode_eq_ok_iff.2 hj.symm
  cases j
  case allocBegin keepmax => exact ⟨_, decode_eq_ok_iff.2 (encode_allocBegin_of_row h), rfl⟩
  all_goals exact ⟨_, full h, rfl⟩

/-- Settles O2: the rows written out are those of `rowCommands`. -/
theorem decoderFollowsOpcodeMap : Obligations.DecoderFollowsOpcodeMap := by
  unfold Obligations.DecoderFollowsOpcodeMap
  intro rows w
  have hrows : rows = rowCommands.map commandRow := rfl
  clear_value rows
  subst hrows
  refine ⟨fun i hi => ?_, fun row hrow hmatch => ?_⟩
  · obtain ⟨j, hj, hname, hmatch⟩ := exists_row i
    rw [decode_ok_encode hi]
    exact ⟨commandRow j, List.mem_map_of_mem hj, hname, hmatch⟩
  · obtain ⟨j, _, rfl⟩ := List.mem_map.1 hrow
    exact decode_of_row hmatch

/-! ### The illegal words (R55) -/

/-- A code of the table and a modifier bit it allows are those of a command. -/
theorem exists_command {opc : BitVec 8} {m : Bool} (hopc : opc ∈ rowCommands.map Instr.opc)
    (hm : m = true → opc = 0x10#8) : ∃ i : Instr, i.modifier = m ∧ i.opc = opc := by
  cases m
  case true => exact ⟨.allocBegin true, rfl, (hm rfl).symm⟩
  case false =>
    obtain ⟨i, hi, rfl⟩ := List.mem_map.1 hopc
    have plain : ∀ i ∈ rowCommands, i.modifier = false := by decide
    exact ⟨i, plain i hi, rfl⟩

/-- The legal words, by their fields. -/
theorem exists_decode_ok_iff {w : Word} :
    (∃ i, decode w = .ok i) ↔
      w.extractLsb' 0 8 ∈ rowCommands.map Instr.opc ∧ w.extractLsb' 9 23 = 0#23 ∧
        (w.getLsbD 8 = true → w.extractLsb' 0 8 = 0x10#8) := by
  simp only [decode_eq_ok_iff, encode_eq_iff]
  constructor
  · rintro ⟨i, hres, hmod, hopc⟩
    rw [hopc, hmod]
    refine ⟨?_, hres, opc_of_modifier i⟩
    cases i <;> simp [rowCommands, Instr.opc]
  · rintro ⟨hopc, hres, hmod⟩
    obtain ⟨i, him, hio⟩ := exists_command hopc hmod
    exact ⟨i, hres, him.symm, hio.symm⟩

theorem exists_decode_error_iff {w : Word} : (∃ e, decode w = .error e) ↔ ¬∃ i, decode w = .ok i := by
  cases decode w <;> simp

/-- Settles O3: a word is illegal where no command has its fields, and a step that writes one stores it and refuses. -/
theorem illegalWordOnlySetsCmderr : Obligations.IllegalWordOnlySetsCmderr := by
  intro w
  refine ⟨?_, ?_⟩
  · rw [exists_decode_error_iff, exists_decode_ok_iff, not_and_or, not_and_or, Classical.not_imp]
    rfl
  · rintro s es ⟨e, he⟩ hp
    refine ⟨_, step_illegal_word hp he, ?_, ?_, ?_, rfl, ?_, rfl⟩
    · rw [get_answer, get_refuse _ _ (by decide), get_set_self]
    · rw [get_answer, get_status_refuse, get_set_ne _ _ _ _ (by decide), get_withPending]
    · intro r hcmd hstatus
      rw [get_answer, get_refuse _ _ hstatus, get_set_ne _ _ _ _ hcmd, get_withPending]
    · simp

/-- Settles O4: six of the words are the encoder's, and of the other two the decoder names what is wrong. -/
theorem sampleWordsDecode : Obligations.SampleWordsDecode :=
  ⟨decode_encode .resolveClassic, decode_encode (.allocBegin true), decode_encode (.allocBegin false),
    decode_encode .ordCmp, decode_encode .fltEnc, decode_encode .clr, by decide, by decide⟩

end Sys2Proof.Proofs

/-! ## The pseudo-instructions (O11) -/

namespace Sys2Proof.Proofs

open Sys2Proof Sys2Proof.Machine Sys2Proof.Laws

/-! ### Fields of a word put together with `placed` (spec/30_encoding.md R58) -/

@[simp] theorem field_or (v w : Word) (lo len : Nat) : field (v ||| w) lo len = field v lo len ||| field w lo len :=
  BitVec.extractLsb'_or

/-- A field placed in a word reads back. -/
@[simp] theorem field_placed_same {n : Nat} (v : BitVec n) (lo : Nat) (h : lo + n ≤ 32) :
    field (placed v lo) lo n = v := by
  apply BitVec.eq_of_getLsbD_eq
  intro i hi
  have hlt : lo + i < 32 := by omega
  have hlt' : i < 32 := by omega
  have hback : ¬lo + i < lo := by omega
  rw [getLsbD_field, placed, BitVec.getLsbD_shiftLeft, BitVec.getLsbD_setWidth, Nat.add_sub_cancel_left]
  simp [hi, hlt, hlt', hback]

/-- A field placed elsewhere in a word reads 0. -/
@[simp] theorem field_placed_disjoint {n : Nat} (v : BitVec n) (lo lo' len : Nat) (h : lo + len ≤ lo' ∨ lo' + n ≤ lo) :
    field (placed v lo') lo len = 0#len := by
  apply BitVec.eq_of_getLsbD_eq
  intro i hi
  rw [getLsbD_field, placed, BitVec.getLsbD_shiftLeft, BitVec.getLsbD_setWidth, BitVec.getLsbD_zero]
  rcases h with h | h
  · have hlt : lo + i < lo' := by omega
    simp [hlt]
  · rw [BitVec.getLsbD_of_ge v _ (by omega)]
    simp

/-- A bit of a word as the field of length 1 there. -/
theorem getLsbD_eq_field (w : Word) (lo : Nat) : w.getLsbD lo = (field w lo 1).getLsbD 0 := by
  rw [getLsbD_field, Nat.add_zero]
  rfl

/-- A host write replaces a field that is wholly one of the register's (R43). -/
theorem field_mergeFields {r : Reg} {lo len : Nat} (h : field r.fields lo len = BitVec.allOnes len) (old v : Word) :
    field (mergeFields r old v) lo len = field v lo len := by
  apply BitVec.eq_of_getLsbD_eq
  intro i hi
  have hbit : (field r.fields lo len).getLsbD i = true := by rw [h]; simpa using hi
  have hlt : lo + i < 32 := by
    by_contra hge
    simp [getLsbD_field, BitVec.getLsbD_of_ge _ _ (not_lt.1 hge)] at hbit
  have hin : r.fields.getLsbD (lo + i) = true := by rwa [getLsbD_field, decide_eq_true hi, Bool.true_and] at hbit
  rw [getLsbD_field, getLsbD_field, getLsbD_mergeFields _ _ _ _ hlt, if_pos hin]

/-! ### A step on an operand write -/

/-- Where an operand register stands, a host write is legal and starts no command (R11, R43). -/
theorem operand_offset {r : Reg} (hr : r ≠ .cmd) : accessLegal r.offset 4 = true ∧ r.offset ≠ 0x00 := by
  cases r
  case cmd => exact absurd rfl hr
  all_goals exact ⟨rfl, by decide⟩

/-- What the step on `WR r, v` leaves (R57): the fields of `r` as in `v`, and every other register as before. -/
structure Loaded (r : Reg) (v : Word) (es : List HostEvent) (s t : State) : Prop where
  pending : t.pending = es
  field_eq : ∀ {lo len : Nat}, field r.fields lo len = BitVec.allOnes len → field (t.get r) lo len = field v lo len
  others : ∀ q, q ≠ r → t.get q = s.get q

theorem step_wrEvent {s : State} {r : Reg} {v : Word} {es : List HostEvent} (hr : r ≠ .cmd) (hw : r.writable = true)
    (hp : s.pending = wrEvent r v :: es) : ∃ t, step s = .next t ∧ Loaded r v es s t := by
  obtain ⟨hlegal, hoff⟩ := operand_offset hr
  refine ⟨_, step_write hp hlegal hoff, by simp, fun h => ?_, fun q hq => ?_⟩
  · rw [get_answer, get_windowWrite, if_pos ⟨rfl, hw⟩, field_mergeFields h]
  · have hne : q.offset ≠ r.offset := fun e => hq (Option.some.inj (by rw [← ofOffset_offset q, e, ofOffset_offset]))
    rw [get_answer, get_windowWrite, if_neg (fun h => hne h.1), get_withPending]

/-- One step on a line that is one operand write: it ends in a state of which `P` holds, where `P` follows from the word
being loaded. -/
theorem step_load {s : State} {r : Reg} {v : Word} {P : State → Prop} (hr : r ≠ .cmd) (hw : r.writable = true)
    (h : ∀ t, Loaded r v [] (s.withPending [wrEvent r v]) t → P t) :
    ∃ t, step (s.withPending [wrEvent r v]) = .next t ∧ P t := by
  obtain ⟨t, ht, hload⟩ := step_wrEvent (s := s.withPending [wrEvent r v]) hr hw rfl
  exact ⟨t, ht, h t hload⟩

/-- A register that is one field of 32 bits holds the word written. -/
theorem Loaded.get_eq {r : Reg} {v : Word} {es : List HostEvent} {s t : State} (h : Loaded r v es s t)
    (hf : r.fields = BitVec.allOnes 32) : t.get r = v := by
  have whole : ∀ w : Word, field w 0 32 = w := fun w => BitVec.extractLsb'_eq_self
  rw [← whole (t.get r), h.field_eq (by rw [hf]; rfl), whole]

/-- Two steps on a line that loads a key: its fields in KEYx_TC, then its identifier in KEYx_ID (R37). -/
theorem steps_load_key (s : State) {tc id : Reg} (hne : tc ≠ id) (htc : tc ≠ .cmd) (hid : id ≠ .cmd)
    (hwtc : tc.writable = true) (hwid : id.writable = true) (hftc : tc.fields = 0x0000FF01#32)
    (hfid : id.fields = 0xFFFFFFFF#32) (type : BitVec 1) (ctrl : BitVec 8) (msgid : Word) :
    ∃ t u, step (s.withPending [wrEvent tc (placed ctrl 8 ||| placed type 0), wrEvent id msgid]) = .next t ∧
      step t = .next u ∧ u.pending = [] ∧
      Key.ofWords (u.get tc) (u.get id) = { transmit := type.getLsbD 0, ctrl := ctrl, msgId := msgid } ∧
      ∀ r, r ≠ tc → r ≠ id → u.get r = s.get r := by
  obtain ⟨t, ht, hload⟩ := step_wrEvent (s := s.withPending [wrEvent tc (placed ctrl 8 ||| placed type 0),
    wrEvent id msgid]) htc hwtc rfl
  obtain ⟨u, hu, hload'⟩ := step_wrEvent hid hwid hload.pending
  refine ⟨t, u, ht, hu, hload'.pending, ?_, fun r hrtc hrid => ?_⟩
  · have htype : field (t.get tc) 0 1 = type := by
      rw [hload.field_eq (by rw [hftc]; rfl), field_or, field_placed_disjoint _ _ _ _ (by omega),
        field_placed_same _ _ (by omega), BitVec.zero_or]
    have hctrl : field (t.get tc) 8 8 = ctrl := by
      rw [hload.field_eq (by rw [hftc]; rfl), field_or, field_placed_disjoint type _ _ _ (by omega),
        field_placed_same _ _ (by omega), BitVec.or_zero]
    rw [hload'.others tc hne, hload'.get_eq hfid, Key.ofWords, getLsbD_eq_field, htype, hctrl]
  · rw [hload'.others r hrid, hload.others r hrtc, get_withPending]

/-! ### A line repeated (R58, ALLOC_OBJ) -/

/-- Of `n` copies of a list, the `k`-th has its elements at the places from `k` times its length. -/
theorem getElem?_flatten_replicate {α : Type} (l : List α) {n k j : Nat} (hk : k < n) (hj : j < l.length) :
    (List.replicate n l).flatten[l.length * k + j]? = l[j]? := by
  induction n generalizing k with
  | zero => omega
  | succ n ih =>
    rw [List.replicate_succ, List.flatten_cons]
    cases k with
    | zero => rw [Nat.mul_zero, Nat.zero_add, List.getElem?_append_left hj]
    | succ k =>
      have hsplit : l.length * (k + 1) + j = l.length + (l.length * k + j) := by rw [Nat.mul_succ]; omega
      rw [hsplit, List.getElem?_append_right (Nat.le_add_right _ _), Nat.add_sub_cancel_left]
      exact ih (by omega)

/-- The transactions of one slot of ALLOC_OBJ (R58). -/
def slotEvents : List HostEvent := [commandEvent .allocNext, rdEvent .aaddr, rdEvent .aidx]

theorem expand_allocObj (n : Nat) : (AsmLine.allocObj n).expand = (List.replicate n slotEvents).flatten := rfl

/-- Settles O11: a line of one or two operand writes loads its fields, and ALLOC_OBJ is copies of one list. -/
theorem pseudoInstructionsLoadOperands : Obligations.PseudoInstructionsLoadOperands := by
  refine ⟨fun s baud presc => ?ldrate, fun s prop seg1 seg2 sjw => ?ldsegs, fun s lenM delayNs => ?ldphys,
    fun s classic cbt => ?ldxpresc, fun s mbcnt clksrc => ?ldtctl,
    fun s gpl rpl0 rpl1 rpl2 ctrl filters => ?ldacfg, fun s memSize hwMax => ?ldalim,
    fun s type ctrl msgid => ?ldkeya, fun s type ctrl msgid => ?ldkeyb, fun n => ?allocObj⟩
  case ldrate =>
    refine step_load (r := .rate) (by decide) rfl fun t hload => ?_
    simp (disch := decide) [State.baud, State.presc, hload.field_eq]
  case ldsegs =>
    refine step_load (r := .segs) (by decide) rfl fun t hload => ?_
    simp (disch := decide) [State.propSeg, State.seg1, State.seg2, State.sjw, hload.field_eq]
  case ldphys =>
    refine step_load (r := .phys) (by decide) rfl fun t hload => ?_
    simp (disch := decide) [State.busLen, State.xcvrNs, hload.field_eq]
  case ldxpresc =>
    refine step_load (r := .xpresc) (by decide) rfl fun t hload => ?_
    simp (disch := decide) [State.xprescClassic, State.xprescCbt, hload.field_eq]
  case ldtctl =>
    refine step_load (r := .tctl) (by decide) rfl fun t hload => ?_
    rw [State.clkSrc, getLsbD_eq_field, hload.field_eq (by decide)]
    simp (disch := decide) [State.mbCnt, hload.field_eq]
  case ldacfg =>
    refine step_load (r := .acfg) (by decide) rfl fun t hload => ?_
    simp (disch := decide) [State.gpl, State.rpl0, State.rpl1, State.rpl2, State.ctrlId, State.filterCount,
      hload.field_eq]
  case ldalim =>
    refine step_load (r := .alim) (by decide) rfl fun t hload => ?_
    simp (disch := decide) [State.memSize, State.hwMaxMb, hload.field_eq]
  case ldkeya =>
    exact steps_load_key s (by decide) (by decide) (by decide) rfl rfl rfl rfl type ctrl msgid
  case ldkeyb =>
    exact steps_load_key s (by decide) (by decide) (by decide) rfl rfl rfl rfl type ctrl msgid
  case allocObj =>
    rw [expand_allocObj]
    refine ⟨by simp [slotEvents, Nat.mul_comm], fun k hk => ?_⟩
    have event {j : Nat} (hj : j < 3) : (List.replicate n slotEvents).flatten[3 * k + j]? = slotEvents[j]? :=
      getElem?_flatten_replicate slotEvents hk hj
    exact ⟨event (j := 0) (by decide), event (by decide), event (by decide)⟩

end Sys2Proof.Proofs

/-! ## What a command writes and what it reads (O21, O22) -/

namespace Sys2Proof.Proofs

open Sys2Proof Sys2Proof.Machine Sys2Proof.Laws

/-! ### The bits of STATUS (spec/30_encoding.md R56, column "Writes") -/

section
variable {i : Instr}

/-- Every command but NOP can be refused (R147). -/
theorem cmderr_mem_commandStatusBits (hi : i ≠ .nop) : StatusFlag.cmderr.bit ∈ commandStatusBits i := by
  cases i
  case nop => exact absurd rfl hi
  all_goals simp [commandStatusBits, StatusFlag.bit]

/-- The bits a command can clear are among those R56 lists for it. -/
theorem clearedStatusBits_sub {k : Nat} (hk : k ∈ clearedStatusBits i) : k ∈ commandStatusBits i := by
  cases i <;> simp_all [clearedStatusBits, commandStatusBits]

/-- What a command does to STATUS, refused or not. -/
theorem exec_statusChange {s t : State} (he : exec i s = .next t) :
    StatusChange (commandStatusBits i) (clearedStatusBits i) s t := by
  by_cases hi : i = .nop
  · subst hi
    obtain rfl := Host.Outcome.next.inj he
    exact StatusChange.refl _ _ s
  · rcases exec_cases he with ⟨_, rfl⟩ | rfl
    · exact (StatusChange.refl _ _ s).setFlag (cmderr_mem_commandStatusBits hi)
    · exact commandEffect_statusChange i s

end

/-- Settles O21. -/
theorem commandsWriteOnlyTheirRegisters : Obligations.CommandsWriteOnlyTheirRegisters := by
  intro i s t he
  refine ⟨exec_unchanged he, fun k hk => ?_⟩
  obtain ⟨hup, hdown⟩ := exec_statusChange he k
  exact Bool.eq_iff_iff.2 ⟨hup hk, hdown fun hc => hk (clearedStatusBits_sub hc)⟩

/-! ### The operands of the bit-timing rules (R56, column "Reads") -/

section
variable {s₁ s₂ : State}

theorem rate_operands_congr (hrate : s₁.get .rate = s₂.get .rate) :
    s₁.baud = s₂.baud ∧ s₁.presc = s₂.presc ∧ divisor s₁ = divisor s₂ := by
  simp only [divisor, State.baud, State.presc, hrate, and_self]

theorem segs_operands_congr (hsegs : s₁.get .segs = s₂.get .segs) :
    s₁.propSeg = s₂.propSeg ∧ s₁.seg1 = s₂.seg1 ∧ s₁.seg2 = s₂.seg2 ∧ s₁.sjw = s₂.sjw := by
  simp only [State.propSeg, State.seg1, State.seg2, State.sjw, hsegs, and_self]

theorem tctl_operands_congr (htctl : s₁.get .tctl = s₂.get .tctl) :
    s₁.mbCnt = s₂.mbCnt ∧ s₁.clkSrc = s₂.clkSrc := by
  simp only [State.mbCnt, State.clkSrc, htctl, and_self]

theorem tqClockOf_congr (hclk : s₁.get .clkHz = s₂.get .clkHz) (hrate : s₁.get .rate = s₂.get .rate) :
    tqClockOf s₁ = tqClockOf s₂ := by
  obtain ⟨_, _, hdiv⟩ := rate_operands_congr hrate
  simp only [tqClockOf, State.clock, hclk, hdiv]

/-- The checks on RATE and on the ratio, which three of the four rules share (R62, R72). -/
theorem rate_checks_congr (hclk : s₁.get .clkHz = s₂.get .clkHz) (hrate : s₁.get .rate = s₂.get .rate)
    (htctl : s₁.get .tctl = s₂.get .tctl) :
    checkPresc s₁ = checkPresc s₂ ∧ checkBaud s₁ = checkBaud s₂ ∧ checkTqClock s₁ = checkTqClock s₂ ∧
      checkMbcnt s₁ = checkMbcnt s₂ ∧ checkRatio s₁ = checkRatio s₂ := by
  obtain ⟨hbaud, hpresc, _⟩ := rate_operands_congr hrate
  obtain ⟨hmbcnt, _⟩ := tctl_operands_congr htctl
  have htq := tqClockOf_congr hclk hrate
  refine ⟨?_, ?_, funext fun lo => funext fun hi => ?_, ?_, ?_⟩
  · rw [checkPresc, checkPresc, hpresc]
  · rw [checkBaud, checkBaud, hbaud]
  · rw [checkTqClock, checkTqClock, htq]
  · rw [checkMbcnt, checkMbcnt, hmbcnt]
  · rw [checkRatio, checkRatio, ratioOf, ratioOf, htq, hpresc, hmbcnt]

/-- The checks on the user's segments, which the rules but R66 share (R61). -/
theorem segs_checks_congr (hsegs : s₁.get .segs = s₂.get .segs) :
    checkTqUser s₁ = checkTqUser s₂ ∧ checkProp s₁ = checkProp s₂ ∧ checkSeg1 s₁ = checkSeg1 s₂ ∧
      checkSeg2 s₁ = checkSeg2 s₂ ∧ checkSjw s₁ = checkSjw s₂ ∧ tqUserOf s₁ = tqUserOf s₂ ∧
      tseg1Of s₁ = tseg1Of s₂ := by
  obtain ⟨hprop, hseg1, hseg2, hsjw⟩ := segs_operands_congr hsegs
  have htu : tqUserOf s₁ = tqUserOf s₂ := by rw [tqUserOf, tqUserOf, hprop, hseg1, hseg2]
  refine ⟨funext fun lo => funext fun hi => ?_, ?_, ?_, ?_, ?_, htu, ?_⟩
  · rw [checkTqUser, checkTqUser, htu]
  · rw [checkProp, checkProp, hprop]
  · rw [checkSeg1, checkSeg1, hseg1]
  · rw [checkSeg2, checkSeg2, hseg2]
  · rw [checkSjw, checkSjw, hsjw]
  · rw [tseg1Of, tseg1Of, hprop, hseg1]

/-- The mismatch of the two counts, and the result that takes the user's values (R65, R69). -/
theorem user_timing_congr (hclk : s₁.get .clkHz = s₂.get .clkHz) (hrate : s₁.get .rate = s₂.get .rate)
    (hsegs : s₁.get .segs = s₂.get .segs) :
    tqMismatch s₁ = tqMismatch s₂ ∧ userResult s₁ = userResult s₂ := by
  obtain ⟨_, hpresc, hdiv⟩ := rate_operands_congr hrate
  obtain ⟨hprop, hseg1, hseg2, hsjw⟩ := segs_operands_congr hsegs
  obtain ⟨_, _, _, _, _, htu, _⟩ := segs_checks_congr hsegs
  refine ⟨?_, funext fun kind => ?_⟩
  · rw [tqMismatch, tqMismatch, hdiv, tqClockOf_congr hclk hrate, htu]
  · rw [userResult, userResult, hpresc, hprop, hseg1, hseg2, hsjw]

theorem classicResolution_congr (hclk : s₁.get .clkHz = s₂.get .clkHz) (hrate : s₁.get .rate = s₂.get .rate)
    (hsegs : s₁.get .segs = s₂.get .segs) (htctl : s₁.get .tctl = s₂.get .tctl) :
    classicResolution s₁ = classicResolution s₂ := by
  have htq := tqClockOf_congr hclk hrate
  have hrates := rate_checks_congr hclk hrate htctl
  have hsegments := segs_checks_congr hsegs
  have huser := user_timing_congr hclk hrate hsegs
  simp only [classicResolution, htq, hrates, hsegments, huser]

theorem autoResolution_congr (hclk : s₁.get .clkHz = s₂.get .clkHz) (hrate : s₁.get .rate = s₂.get .rate)
    (hphys : s₁.get .phys = s₂.get .phys) (htctl : s₁.get .tctl = s₂.get .tctl) :
    autoResolution s₁ = autoResolution s₂ := by
  obtain ⟨_, hpresc, _⟩ := rate_operands_congr hrate
  have htq := tqClockOf_congr hclk hrate
  have hrates := rate_checks_congr hclk hrate htctl
  have hquanta : propQuanta s₁ = propQuanta s₂ := by
    simp only [propQuanta, propTime, State.busLen, State.xcvrNs, State.clock, hphys, hclk, hpresc]
  have htiming : autoTiming s₁ = autoTiming s₂ := by simp only [autoTiming, hquanta, htq]
  simp only [autoResolution, htiming, htq, hpresc, hrates]

theorem fdResolution_congr (hclk : s₁.get .clkHz = s₂.get .clkHz) (hrate : s₁.get .rate = s₂.get .rate)
    (hsegs : s₁.get .segs = s₂.get .segs) (htctl : s₁.get .tctl = s₂.get .tctl)
    (hxpresc : s₁.get .xpresc = s₂.get .xpresc) (hfeat : s₁.get .feat = s₂.get .feat) :
    fdResolution s₁ = fdResolution s₂ := by
  obtain ⟨_, hpresc, _⟩ := rate_operands_congr hrate
  have htq := tqClockOf_congr hclk hrate
  have hrates := rate_checks_congr hclk hrate htctl
  have hsegments := segs_checks_congr hsegs
  have huser := user_timing_congr hclk hrate hsegs
  obtain ⟨hfd, hcbt, hbrs⟩ : s₁.fdEn = s₂.fdEn ∧ s₁.cbtEn = s₂.cbtEn ∧ s₁.brsEn = s₂.brsEn := by
    simp only [State.fdEn, State.cbtEn, State.brsEn, hfeat, and_self]
  obtain ⟨hxclassic, hxcbt⟩ : s₁.xprescClassic = s₂.xprescClassic ∧ s₁.xprescCbt = s₂.xprescCbt := by
    simp only [State.xprescClassic, State.xprescCbt, hxpresc, and_self]
  have hwcbt : fdCbtMismatch s₁ = fdCbtMismatch s₂ := by
    rw [fdCbtMismatch, fdCbtMismatch, hfd, hcbt, hpresc, hxcbt]
  have hwclassic : fdClassicMismatch s₁ = fdClassicMismatch s₂ := by
    rw [fdClassicMismatch, fdClassicMismatch, hbrs, hcbt, hpresc, hxclassic]
  simp only [fdResolution, htq, hrates, hsegments, huser, hwcbt, hwclassic]

theorem cbtResolution_congr (hclk : s₁.get .clkHz = s₂.get .clkHz) (hrate : s₁.get .rate = s₂.get .rate)
    (hsegs : s₁.get .segs = s₂.get .segs) (htctl : s₁.get .tctl = s₂.get .tctl) :
    cbtResolution s₁ = cbtResolution s₂ := by
  obtain ⟨_, _, hseg2, _⟩ := segs_operands_congr hsegs
  have htq := tqClockOf_congr hclk hrate
  have hrates := rate_checks_congr hclk hrate htctl
  have hsegments := segs_checks_congr hsegs
  have huser := user_timing_congr hclk hrate hsegs
  simp only [cbtResolution, htq, hrates, hsegments, huser, hseg2]

/-- The frame of R59 reads its rule's quantities, TCTL and STATUS, and a register it does not write it keeps. -/
theorem resolveFrame_congr {f : State → Resolution} (hf : f s₁ = f s₂) (htctl : s₁.get .tctl = s₂.get .tctl)
    (hstatus : s₁.get .status = s₂.get .status) {r : Reg} (hr : s₁.get r = s₂.get r) :
    (resolveFrame f s₁).get r = (resolveFrame f s₂).get r := by
  obtain ⟨_, hclkSrc⟩ := tctl_operands_congr htctl
  unfold resolveFrame
  rw [hf]
  split
  · simp only [get_resolveFailure, hstatus, hr]
  · simp only [get_resolveDeliver, hstatus, hclkSrc, hr]

/-! ### The operands of the allocator commands -/

/-- Two states with the same payload configuration have the same environment but for the limits of ALIM (R78). -/
theorem allocEnv_eq_of_payload (hcfg : s₁.cfg = s₂.cfg) (hfeat : s₁.get .feat = s₂.get .feat)
    (hacfg : s₁.get .acfg = s₂.get .acfg) :
    s₁.allocEnv = { s₂.allocEnv with memSize := s₁.memSize, hwMaxMb := s₁.hwMaxMb } := by
  simp only [State.allocEnv, State.fdEn, State.perRegion, State.gpl, State.rpl0, State.rpl1, State.rpl2, hcfg, hfeat,
    hacfg]

theorem allocEnv_congr (hcfg : s₁.cfg = s₂.cfg) (hfeat : s₁.get .feat = s₂.get .feat)
    (hacfg : s₁.get .acfg = s₂.get .acfg) (halim : s₁.get .alim = s₂.get .alim) : s₁.allocEnv = s₂.allocEnv := by
  rw [allocEnv_eq_of_payload hcfg hfeat hacfg]
  simp only [State.allocEnv, State.memSize, State.hwMaxMb, halim]

/-- MAP_INDEX does not read ALIM (R84). -/
theorem mapoutWord_limits (e : AllocEnv) (m x a : Nat) :
    mapoutWord { e with memSize := m, hwMaxMb := x } a = mapoutWord e a := by
  simp only [mapoutWord, before_limits]
  rfl

theorem mapIndex_congr (hcfg : s₁.cfg = s₂.cfg) (hfeat : s₁.get .feat = s₂.get .feat)
    (hacfg : s₁.get .acfg = s₂.get .acfg) (hmapin : s₁.get .mapin = s₂.get .mapin) {r : Reg}
    (hr : s₁.get r = s₂.get r) : (mapIndex s₁).get r = (mapIndex s₂).get r := by
  have haddr : s₁.mapAddr = s₂.mapAddr := by simp only [State.mapAddr, hmapin]
  simp only [mapIndex, get_set, allocEnv_eq_of_payload hcfg hfeat hacfg, mapoutWord_limits, haddr, hr]

theorem allocBegin_congr (hcfg : s₁.cfg = s₂.cfg) (keepmax : Bool) (hamax : s₁.get .amax = s₂.get .amax)
    (hstatus : s₁.get .status = s₂.get .status) {r : Reg} (hr : s₁.get r = s₂.get r) :
    (allocBegin keepmax s₁).get r = (allocBegin keepmax s₂).get r := by
  simp only [get_allocBegin, hcfg, hamax, hstatus, hr]

theorem refuse_congr (hstatus : s₁.get .status = s₂.get .status) {r : Reg} (hr : s₁.get r = s₂.get r) :
    (refuse s₁).get r = (refuse s₂).get r := by
  simp only [refuse, State.setFlag, get_set, hstatus, hr]

theorem allocFail_congr (hacfg : s₁.get .acfg = s₂.get .acfg) (hastat : s₁.get .astat = s₂.get .astat)
    (hstatus : s₁.get .status = s₂.get .status) (f : CapacityFailure) {r : Reg} (hr : s₁.get r = s₂.get r) :
    (allocFail s₁ f).get r = (allocFail s₂ f).get r := by
  simp only [get_allocFail, State.ctrlId, hacfg, hastat, hstatus, hr]

theorem allocAssign_congr (henv : s₁.allocEnv = s₂.allocEnv) (hastat : s₁.get .astat = s₂.get .astat)
    (hamax : s₁.get .amax = s₂.get .amax) (hstatus : s₁.get .status = s₂.get .status) (p : Slot) {r : Reg}
    (hr : s₁.get r = s₂.get r) : (allocAssign s₁ p).get r = (allocAssign s₂ p).get r := by
  have hfirst : s₁.first = s₂.first := by rw [State.first, State.first, hastat]
  have hmax : s₁.maxMb = s₂.maxMb := by rw [State.maxMb, State.maxMb, hamax]
  have hword : astatAssigned s₁ p = astatAssigned s₂ p := by rw [astatAssigned, astatAssigned, henv, hfirst, hastat]
  simp only [get_allocAssign, hword, hmax, hamax, hstatus, hr]

theorem allocNext_congr (hcfg : s₁.cfg = s₂.cfg) (hfeat : s₁.get .feat = s₂.get .feat)
    (hacfg : s₁.get .acfg = s₂.get .acfg) (halim : s₁.get .alim = s₂.get .alim)
    (hastat : s₁.get .astat = s₂.get .astat) (hacur : s₁.get .acur = s₂.get .acur)
    (hamax : s₁.get .amax = s₂.get .amax) (hstatus : s₁.get .status = s₂.get .status) {r : Reg}
    (hr : s₁.get r = s₂.get r) : (allocNext s₁).get r = (allocNext s₂).get r := by
  have henv := allocEnv_congr hcfg hfeat hacfg halim
  have hstate : s₁.aState = s₂.aState := by simp only [State.aState, hastat]
  have hcursor : s₁.cursor = s₂.cursor := by simp only [State.cursor, hacur]
  have hreserved : reservedSlots s₁ = reservedSlots s₂ := by
    have hfirst : s₁.first = s₂.first := by rw [State.first, State.first, hastat]
    have hfifo : s₁.fifoEn = s₂.fifoEn := by rw [State.fifoEn, State.fifoEn, hfeat]
    have hfilters : s₁.filterCount = s₂.filterCount := by rw [State.filterCount, State.filterCount, hacfg]
    rw [reservedSlots, reservedSlots, hfirst, hfifo, hfilters]
  unfold allocNext
  rw [hstate, henv, hcursor, hreserved]
  split
  · split
    · exact allocAssign_congr henv hastat hamax hstatus _ hr
    · exact allocFail_congr hacfg hastat hstatus _ hr
  · exact refuse_congr hstatus hr

theorem allocEnd_congr (hastat : s₁.get .astat = s₂.get .astat) (hstatus : s₁.get .status = s₂.get .status) {r : Reg}
    (hr : s₁.get r = s₂.get r) : (allocEnd s₁).get r = (allocEnd s₂).get r := by
  have hstate : s₁.aState = s₂.aState := by simp only [State.aState, hastat]
  unfold allocEnd
  rw [hstate]
  split
  · simp only [State.setAState, get_set, hastat, hr]
  · exact refuse_congr hstatus hr

/-! ### The operands of the other commands -/

theorem ordCmp_congr (hatc : s₁.get .keyaTc = s₂.get .keyaTc) (haid : s₁.get .keyaId = s₂.get .keyaId)
    (hbtc : s₁.get .keybTc = s₂.get .keybTc) (hbid : s₁.get .keybId = s₂.get .keybId) {r : Reg}
    (hr : s₁.get r = s₂.get r) : (ordCmp s₁).get r = (ordCmp s₂).get r := by
  simp only [ordCmp, get_set, State.keyA, State.keyB, hatc, haid, hbtc, hbid, hr]

theorem fltEnc_congr (hfltcfg : s₁.get .fltcfg = s₂.get .fltcfg) (hid : s₁.get .fltId = s₂.get .fltId)
    (hmask : s₁.get .fltMask = s₂.get .fltMask) (hcnt : s₁.get .fltCnt = s₂.get .fltCnt) {r : Reg}
    (hr : s₁.get r = s₂.get r) : (fltEnc s₁).get r = (fltEnc s₂).get r := by
  simp only [get_fltEnc, State.fltCount, State.fltMode, State.fltExt, hfltcfg, hid, hmask, hcnt, hr]

theorem fltEnd_congr (hcnt : s₁.get .fltCnt = s₂.get .fltCnt) (hacfg : s₁.get .acfg = s₂.get .acfg)
    (hstatus : s₁.get .status = s₂.get .status) {r : Reg} (hr : s₁.get r = s₂.get r) :
    (fltEnd s₁).get r = (fltEnd s₂).get r := by
  have hcount : s₁.fltCount = s₂.fltCount := by simp only [State.fltCount, hcnt]
  have hfilters : s₁.filterCount = s₂.filterCount := by simp only [State.filterCount, hacfg]
  unfold fltEnd
  rw [hcount, hfilters]
  split
  · exact hr
  · simp only [raiseCountMismatch, get_fatalEntry, State.ctrlId, hacfg, hstatus, hr]

/-! ### A command depends on its operands only (R52) -/

/-- The states have the same parameters and agree on the operands of `i`: the registers it reads, STATUS, and the
registers it writes (which it may keep). -/
structure SameOperands (i : Instr) (s₁ s₂ : State) : Prop where
  cfg : s₁.cfg = s₂.cfg
  get : ∀ r ∈ .status :: (commandReads i ++ commandWrites i), s₁.get r = s₂.get r

theorem SameOperands.status {i : Instr} (h : SameOperands i s₁ s₂) : s₁.get .status = s₂.get .status :=
  h.get .status List.mem_cons_self

/-- The effect of a command is the same in any register the two states agree on. -/
theorem commandEffect_congr {i : Instr} (h : SameOperands i s₁ s₂) {r : Reg} (hr : s₁.get r = s₂.get r) :
    (commandEffect i s₁).get r = (commandEffect i s₂).get r := by
  have hstatus := h.status
  cases i with
  | nop => exact hr
  | resolveClassic =>
    have htctl := h.get .tctl (by decide)
    exact resolveFrame_congr (classicResolution_congr (h.get .clkHz (by decide)) (h.get .rate (by decide))
      (h.get .segs (by decide)) htctl) htctl hstatus hr
  | resolveAuto =>
    have htctl := h.get .tctl (by decide)
    exact resolveFrame_congr (autoResolution_congr (h.get .clkHz (by decide)) (h.get .rate (by decide))
      (h.get .phys (by decide)) htctl) htctl hstatus hr
  | resolveFd =>
    have htctl := h.get .tctl (by decide)
    exact resolveFrame_congr (fdResolution_congr (h.get .clkHz (by decide)) (h.get .rate (by decide))
      (h.get .segs (by decide)) htctl (h.get .xpresc (by decide)) (h.get .feat (by decide))) htctl hstatus hr
  | resolveCbt =>
    have htctl := h.get .tctl (by decide)
    exact resolveFrame_congr (cbtResolution_congr (h.get .clkHz (by decide)) (h.get .rate (by decide))
      (h.get .segs (by decide)) htctl) htctl hstatus hr
  | allocBegin keepmax =>
    exact allocBegin_congr h.cfg keepmax (h.get .amax (by simp [commandReads, commandWrites])) hstatus hr
  | allocNext =>
    exact allocNext_congr h.cfg (h.get .feat (by decide)) (h.get .acfg (by decide)) (h.get .alim (by decide))
      (h.get .astat (by decide)) (h.get .acur (by decide)) (h.get .amax (by decide)) hstatus hr
  | allocEnd => exact allocEnd_congr (h.get .astat (by decide)) hstatus hr
  | mapIndex =>
    exact mapIndex_congr h.cfg (h.get .feat (by decide)) (h.get .acfg (by decide)) (h.get .mapin (by decide)) hr
  | ordCmp =>
    exact ordCmp_congr (h.get .keyaTc (by decide)) (h.get .keyaId (by decide)) (h.get .keybTc (by decide))
      (h.get .keybId (by decide)) hr
  | fltBegin => simp only [commandEffect, fltBegin, get_set, hr]
  | fltEnc =>
    exact fltEnc_congr (h.get .fltcfg (by decide)) (h.get .fltId (by decide)) (h.get .fltMask (by decide))
      (h.get .fltCnt (by decide)) hr
  | fltEnd => exact fltEnd_congr (h.get .fltCnt (by decide)) (h.get .acfg (by decide)) hstatus hr
  | clr => simp only [commandEffect, get_clearErrors, hr]

/-- NOP and CLR have their effect under a fatal error too (R147). -/
theorem exec_of_run {i : Instr} {s : State} (h : s.flag .fatal = false ∨ i = .nop ∨ i = .clr) :
    exec i s = .next (commandEffect i s) := by
  rcases h with hclear | rfl | rfl
  · exact exec_of_clear i hclear
  · rfl
  · rfl

/-- The same holds of the command with its refusal: both states refuse it or neither does, as STATUS says (R147). -/
theorem exec_congr {i : Instr} {t₁ t₂ : State} (h : SameOperands i s₁ s₂) (he₁ : exec i s₁ = .next t₁)
    (he₂ : exec i s₂ = .next t₂) {r : Reg} (hr : s₁.get r = s₂.get r) : t₁.get r = t₂.get r := by
  have hflag : s₁.flag .fatal = s₂.flag .fatal := by rw [State.flag, State.flag, h.status]
  by_cases hrun : s₁.flag .fatal = false ∨ i = .nop ∨ i = .clr
  · rw [exec_of_run hrun] at he₁
    rw [exec_of_run (hflag ▸ hrun)] at he₂
    obtain rfl := Host.Outcome.next.inj he₁
    obtain rfl := Host.Outcome.next.inj he₂
    exact commandEffect_congr h hr
  · simp only [not_or, Bool.not_eq_false] at hrun
    obtain ⟨hfatal, hnop, hclr⟩ := hrun
    rw [exec_of_fatal hfatal hnop hclr] at he₁
    rw [exec_of_fatal (hflag ▸ hfatal) hnop hclr] at he₂
    obtain rfl := Host.Outcome.next.inj he₁
    obtain rfl := Host.Outcome.next.inj he₂
    exact refuse_congr h.status hr

end

/-- Settles O22. -/
theorem commandsReadOnlyTheirOperands : Obligations.CommandsReadOnlyTheirOperands := by
  intro i s₁ s₂ t₁ t₂ hcfg h he₁ he₂ r hr
  refine exec_congr ⟨hcfg, h⟩ he₁ he₂ (h r ?_)
  rcases List.mem_cons.1 hr with rfl | hw
  · exact List.mem_cons_self
  · exact List.mem_cons_of_mem _ (List.mem_append_right _ hw)

end Sys2Proof.Proofs

/-! ## The bit-timing resolver (O23 to O33) -/

namespace Sys2Proof.Proofs

open Sys2Proof Sys2Proof.Machine Sys2Proof.Laws

/-! ### Checks as rows of numbers -/

/-- What a check says, in the numbers of a `CheckRow`. -/
def checkRow (c : Check) : CheckRow := (c.holds, c.param.code.toNat, c.value, c.lo, c.hi)

@[simp] theorem checkRow_within (param : ErrParam) (value : Int) (lo hi : Nat) :
    checkRow (.within param value lo hi) =
      (decide ((lo : Int) ≤ value ∧ value ≤ (hi : Int)), param.code.toNat, value, lo, hi) := rfl

@[simp] theorem checkRow_atLeast (param : ErrParam) (value : Int) (lo hi : Nat) :
    checkRow (.atLeast param value lo hi) = (decide ((lo : Int) ≤ value), param.code.toNat, value, lo, hi) := rfl

/-- A list of checks passes where its rows do. -/
theorem forall_holds_iff {cs : List Check} :
    (∀ c ∈ cs, c.holds = true) ↔ ∀ row ∈ cs.map checkRow, row.1 = true := by
  simp [checkRow]

/-- The table of R62 has two rows that ask for the same ratio. -/
theorem minRatio_eq (m : Nat) : minRatio m = if m ≤ 32 then 8 else 16 := by
  unfold minRatio
  split_ifs <;> omega

/-! The rows of the checks the four rules share (R60 to R62, R72, R142). -/

section
variable (s : State)

@[simp] theorem checkRow_presc : checkRow (checkPresc s) = (decide (1 ≤ s.presc), 1, (s.presc : Int), 1, 65535) := by
  simp [checkPresc, ErrParam.code]

@[simp] theorem checkRow_baud : checkRow (checkBaud s) = (decide (1 ≤ s.baud), 2, (s.baud : Int), 1, 65535) := by
  simp [checkBaud, ErrParam.code]

@[simp] theorem checkRow_tqClock (lo hi : Nat) :
    checkRow (checkTqClock s lo hi) =
      (decide (lo ≤ tqClockOf s ∧ tqClockOf s ≤ hi), 3, (tqClockOf s : Int), lo, hi) := by
  simp [checkTqClock, ErrParam.code]

@[simp] theorem checkRow_tqUser (lo hi : Nat) :
    checkRow (checkTqUser s lo hi) =
      (decide (lo ≤ tqUserOf s ∧ tqUserOf s ≤ hi), 5, (tqUserOf s : Int), lo, hi) := by
  simp [checkTqUser, ErrParam.code]

@[simp] theorem checkRow_mbcnt : checkRow (checkMbcnt s) = (decide (s.mbCnt ≤ 64), 6, (s.mbCnt : Int), 0, 64) := by
  simp [checkMbcnt, ErrParam.code]

@[simp] theorem checkRow_ratio :
    checkRow (checkRatio s) =
      (decide ((if s.mbCnt ≤ 32 then 8 else 16) ≤ tqClockOf s * s.presc), 7, ((tqClockOf s * s.presc : Nat) : Int),
        (if s.mbCnt ≤ 32 then 8 else 16), 0xFFFFFFFF) := by
  simp only [checkRatio, checkRow_atLeast, Nat.cast_le, minRatio_eq, ratioOf, noUpperBound]
  rfl

@[simp] theorem checkRow_prop : checkRow (checkProp s) = (decide (1 ≤ s.propSeg), 8, (s.propSeg : Int), 1, 255) := by
  simp [checkProp, ErrParam.code]

@[simp] theorem checkRow_seg1 : checkRow (checkSeg1 s) = (decide (1 ≤ s.seg1), 9, (s.seg1 : Int), 1, 255) := by
  simp [checkSeg1, ErrParam.code]

@[simp] theorem checkRow_seg2 : checkRow (checkSeg2 s) = (decide (1 ≤ s.seg2), 10, (s.seg2 : Int), 1, 255) := by
  simp [checkSeg2, ErrParam.code]

@[simp] theorem checkRow_sjw : checkRow (checkSjw s) = (decide (1 ≤ s.sjw), 11, (s.sjw : Int), 1, 255) := by
  simp [checkSjw, ErrParam.code]

end

/-! ### What a resolver command leaves, by its rule -/

section
variable {s : State} {i : Instr} {f : State → Resolution}

/-- R59 step 6 with the result in numbers (R26, R27, R65). -/
theorem resolvesTo_of_pass (hi : commandEffect i s = resolveFrame f s) (hf : s.flag .fatal = false)
    (hpass : ∀ c ∈ (f s).checks, c.holds = true) {kind : BitVec 3} {presc prop seg1 seg2 sjw tqClock tqUser : Nat}
    (hclock : (f s).tqClock = tqClock) (huser : (f s).tqUser = tqUser)
    (hresult : (f s).result = { kind := kind, presc := presc, prop := prop, s1 := seg1, s2 := seg2, sjw := sjw })
    (hpresc : 1 ≤ presc ∧ presc < 65536) (hprop : 1 ≤ prop ∧ prop < 257) (hseg1 : 1 ≤ seg1 ∧ seg1 < 257)
    (hseg2 : 1 ≤ seg2 ∧ seg2 < 257) (hsjw : 1 ≤ sjw ∧ sjw < 257) :
    ResolvesTo i s kind.toNat presc prop seg1 seg2 sjw tqClock tqUser (warnMask (f s).warnings) := by
  obtain ⟨hcfg, hpending, hreply⟩ := resolveDeliver_own s (f s) (f s).result
  refine ⟨_, (exec_of_clear i hf).trans (congrArg _ (hi.trans (resolveFrame_of_pass s hpass))), ?_, ?_, ?_, ?_, ?_,
    ?_, hcfg, hpending, hreply⟩
  · rw [get_resolveDeliver, hresult]
    exact res0Word_eq _ _ _ _ _ _ _ hpresc.1 hpresc.2
  · rw [get_resolveDeliver, hresult]
    exact res1Word_eq _ _ _ _ _ _ hprop hseg1 hseg2 hsjw
  · simp [get_resolveDeliver, hclock]
  · simp [get_resolveDeliver, huser]
  · simp [get_resolveDeliver]
  · intro r hr
    simp only [timingResultRegs, List.mem_cons, List.not_mem_nil, or_false, not_or] at hr
    simp [get_resolveDeliver, hr]

/-- R59 step 5: the rows are the rule's checks, and the first failing one is recorded (R143, R144). -/
theorem reportsFirstFailure_of_rows (hi : commandEffect i s = resolveFrame f s) (hf : s.flag .fatal = false)
    {rows : List CheckRow} {tqClock tqUser : Nat} (hrows : rows = (f s).checks.map checkRow)
    (hclock : (f s).tqClock = tqClock) (huser : (f s).tqUser = tqUser) :
    ReportsFirstFailure i s rows tqClock tqUser (warnMask (f s).warnings) := by
  subst hrows
  intro k param value lo hi' hk hprev
  obtain ⟨c, hc, hrow⟩ : ∃ c, (f s).checks[k]? = some c ∧ checkRow c = (false, param, value, lo, hi') := by
    simpa using hk
  simp only [checkRow, Prod.mk.injEq] at hrow
  obtain ⟨hfail, rfl, rfl, rfl, rfl⟩ := hrow
  have hbefore : ∀ d ∈ (f s).checks.take k, d.holds = true := by
    intro d hd
    rw [← List.map_take, List.all_eq_true] at hprev
    exact hprev (checkRow d) (List.mem_map_of_mem hd)
  have hframe := resolveFrame_of_fail s hc hfail hbefore
  have hcode : errCodeWord .outOfRange c.param 0#8 = BitVec.ofNat 32 (1 * 2 ^ 8 + c.param.code.toNat) := by
    simp [errCodeWord_eq, ErrClass.code]
  refine ⟨_, (exec_of_clear i hf).trans (congrArg _ (hi.trans hframe)), ?_, ?_, ?_, ?_, ?_, ?_, ?_, ?_, ?_,
    hframe ▸ Unchanged.resolveFrame s f⟩
  all_goals simp [get_resolveFailure, hcode, hclock, huser]

/-- R59 step 3: both counts are written, whether or not a check fails. -/
theorem get_counts_resolveFrame :
    (resolveFrame f s).get .tqClock = BitVec.ofInt 32 (f s).tqClock ∧
      (resolveFrame f s).get .tqUser = BitVec.ofInt 32 (f s).tqUser := by
  rcases resolveFrame_cases s f with ⟨_, h⟩ | ⟨c, _, _, h⟩ <;> rw [h]
  · simp [get_resolveDeliver]
  · simp [get_resolveFailure]

end

/-! ### The quantities of R60 to R62 -/

theorem rdiv_le {n d : Nat} (hd : 0 < d) : rdiv n d ≤ n := by
  have hmul : n ≤ n * d := Nat.le_mul_of_pos_right n hd
  refine Nat.le_of_lt_succ ((Nat.div_lt_iff_lt_mul (by omega)).2 ?_)
  linarith

section
variable (s : State)

theorem divisor_eq_zero_iff : divisor s = 0 ↔ s.presc = 0 ∨ s.baud = 0 := by
  simp [divisor, or_comm]

theorem tqClockOf_of_pos (hpresc : 1 ≤ s.presc) (hbaud : 1 ≤ s.baud) : tqClockOf s = rdiv s.clock (divisor s) := by
  refine if_neg fun h => ?_
  rw [divisor_eq_zero_iff] at h
  omega

theorem tqClockOf_lt : tqClockOf s < 2 ^ 32 := by
  unfold tqClockOf
  split
  · decide
  · next hD => exact (rdiv_le (Nat.pos_of_ne_zero hD)).trans_lt (s.get .clkHz).isLt

theorem presc_lt : s.presc < 65536 := (field (s.get .rate) 16 16).isLt

theorem segs_lt : s.propSeg < 256 ∧ s.seg1 < 256 ∧ s.seg2 < 256 ∧ s.sjw < 256 :=
  ⟨(field (s.get .segs) 0 8).isLt, (field (s.get .segs) 8 8).isLt, (field (s.get .segs) 16 8).isLt,
    (field (s.get .segs) 24 8).isLt⟩

end

/-- The bits of a list with one warning. -/
theorem warnMask_single (c : Bool) (f : StatusFlag) : warnMask [(c, f)] = if c then 1#32 <<< f.bit else 0#32 := by
  simp [warnMask]

theorem tqMismatch_iff {s : State} :
    tqMismatch s = true ↔ 0 < s.baud * 1000 * s.presc ∧ tqClockOf s ≠ tqUserOf s := by
  simp [tqMismatch, divisor]

/-! ### The three commands that take the user's values -/

/-- A rule that counts R60's and R61's quanta and delivers the user's segments (R65, R69). -/
structure UserRule (f : State → Resolution) (kind : BitVec 3) : Prop where
  tqClock : ∀ s, (f s).tqClock = tqClockOf s
  tqUser : ∀ s, (f s).tqUser = tqUserOf s
  result : ∀ s, (f s).result = userResult s kind

theorem classicResolution_user : UserRule classicResolution 1#3 := ⟨fun _ => rfl, fun _ => rfl, fun _ => rfl⟩
theorem fdResolution_user : UserRule fdResolution 3#3 := ⟨fun _ => rfl, fun _ => rfl, fun _ => rfl⟩
theorem cbtResolution_user : UserRule cbtResolution 4#3 := ⟨fun _ => rfl, fun _ => rfl, fun _ => rfl⟩

theorem UserRule.resolvesTo {f : State → Resolution} {kind : BitVec 3} (hu : UserRule f kind) {s : State} {i : Instr}
    (hi : commandEffect i s = resolveFrame f s) (hf : s.flag .fatal = false)
    (hpass : ∀ c ∈ (f s).checks, c.holds = true) (hpresc : 1 ≤ s.presc) (hprop : 1 ≤ s.propSeg) (hseg1 : 1 ≤ s.seg1)
    (hseg2 : 1 ≤ s.seg2) (hsjw : 1 ≤ s.sjw) :
    ResolvesTo i s kind.toNat s.presc s.propSeg s.seg1 s.seg2 s.sjw (tqClockOf s) (tqUserOf s)
      (warnMask (f s).warnings) := by
  obtain ⟨hprop', hseg1', hseg2', hsjw'⟩ := segs_lt s
  exact resolvesTo_of_pass hi hf hpass (hu.tqClock s) (hu.tqUser s) (hu.result s) ⟨hpresc, presc_lt s⟩
    ⟨hprop, by omega⟩ ⟨hseg1, by omega⟩ ⟨hseg2, by omega⟩ ⟨hsjw, by omega⟩

/-! The STATUS bit of the TQ-mismatch warning (R64, R67, R68): with any divisor, and with one that is not 0 (R72). -/

theorem tqMismatch_mask {s : State} (f : StatusFlag) :
    (if tqMismatch s = true then 1#32 <<< f.bit else 0#32) =
      if 0 < s.baud * 1000 * s.presc ∧ tqClockOf s ≠ tqUserOf s then 1#32 <<< f.bit else 0#32 := by
  simp only [tqMismatch_iff]

theorem tqMismatch_mask_of_pos {s : State} (hpresc : 1 ≤ s.presc) (hbaud : 1 ≤ s.baud) (f : StatusFlag) :
    (if tqMismatch s = true then 1#32 <<< f.bit else 0#32) =
      if tqClockOf s = tqUserOf s then 0#32 else 1#32 <<< f.bit := by
  have hD : 0 < s.baud * 1000 * s.presc := by positivity
  simp only [tqMismatch_iff, hD, true_and, ne_eq, ite_not]

/-! ### RESOLVE_CLASSIC (R64) -/

/-- The eleven checks of R64 in numbers. -/
theorem classic_rows (s : State) :
    (classicResolution s).checks.map checkRow =
      [ (decide (1 ≤ s.presc), 1, (s.presc : Int), 1, 65535),
        (decide (1 ≤ s.baud), 2, (s.baud : Int), 1, 65535),
        (decide (8 ≤ tqClockOf s ∧ tqClockOf s ≤ 25), 3, (tqClockOf s : Int), 8, 25),
        (decide (4 ≤ s.propSeg + s.seg1 ∧ s.propSeg + s.seg1 ≤ 16), 4, ((s.propSeg + s.seg1 : Nat) : Int), 4, 16),
        (decide (8 ≤ tqUserOf s ∧ tqUserOf s ≤ 25), 5, (tqUserOf s : Int), 8, 25),
        (decide (s.mbCnt ≤ 64), 6, (s.mbCnt : Int), 0, 64),
        (decide ((if s.mbCnt ≤ 32 then 8 else 16) ≤ tqClockOf s * s.presc), 7, ((tqClockOf s * s.presc : Nat) : Int),
          if s.mbCnt ≤ 32 then 8 else 16, 0xFFFFFFFF),
        (decide (1 ≤ s.propSeg), 8, (s.propSeg : Int), 1, 255),
        (decide (1 ≤ s.seg1), 9, (s.seg1 : Int), 1, 255),
        (decide (1 ≤ s.seg2), 10, (s.seg2 : Int), 1, 255),
        (decide (1 ≤ s.sjw), 11, (s.sjw : Int), 1, 255) ] := by
  have hts1 : s.propSeg + s.seg1 = tseg1Of s := rfl
  simp [classicResolution, hts1, ErrParam.code]

theorem classic_passes_iff {s : State} :
    (∀ c ∈ (classicResolution s).checks, c.holds = true) ↔
      1 ≤ s.presc ∧ 1 ≤ s.baud ∧ (8 ≤ tqClockOf s ∧ tqClockOf s ≤ 25) ∧
      (4 ≤ s.propSeg + s.seg1 ∧ s.propSeg + s.seg1 ≤ 16) ∧ (8 ≤ tqUserOf s ∧ tqUserOf s ≤ 25) ∧ s.mbCnt ≤ 64 ∧
      (if s.mbCnt ≤ 32 then 8 else 16) ≤ tqClockOf s * s.presc ∧ 1 ≤ s.propSeg ∧ 1 ≤ s.seg1 ∧ 1 ≤ s.seg2 ∧
      1 ≤ s.sjw := by
  rw [forall_holds_iff, classic_rows]
  simp only [List.forall_mem_cons, List.not_mem_nil, decide_eq_true_eq, false_imp_iff, implies_true, and_true]

/-- Settles O24: the premises are the eleven checks. -/
theorem classicSucceeds : Obligations.ClassicSucceeds := by
  intro s D tq tu hf hpresc hbaud htq htq' hts hts' htu htu' hmb hratio hprop hseg1 hseg2 hsjw
  have hclock : tqClockOf s = tq := tqClockOf_of_pos s hpresc hbaud
  have hpass : ∀ c ∈ (classicResolution s).checks, c.holds = true := by
    rw [classic_passes_iff, hclock]
    exact ⟨hpresc, hbaud, ⟨htq, htq'⟩, ⟨hts, hts'⟩, ⟨htu, htu'⟩, hmb, hratio, hprop, hseg1, hseg2, hsjw⟩
  have hresolves := classicResolution_user.resolvesTo (i := .resolveClassic) rfl hf hpass hpresc hprop hseg1 hseg2 hsjw
  rwa [classicResolution, warnMask_single, tqMismatch_mask_of_pos hpresc hbaud, hclock] at hresolves

/-- Settles O25: `classic_rows` is the list of the statement. -/
theorem classicReportsFirstFailure : Obligations.ClassicReportsFirstFailure := by
  intro s hf
  have hreports := reportsFirstFailure_of_rows (i := .resolveClassic) rfl hf (classic_rows s).symm rfl rfl
  rwa [classicResolution, warnMask_single, tqMismatch_mask] at hreports

/-! ### RESOLVE_FD (R67) -/

/-- The eight checks of R67 in numbers. -/
theorem fd_rows (s : State) :
    (fdResolution s).checks.map checkRow =
      [ (decide (1 ≤ s.presc), 1, (s.presc : Int), 1, 65535),
        (decide (1 ≤ s.baud), 2, (s.baud : Int), 1, 65535),
        (decide (5 ≤ tqClockOf s ∧ tqClockOf s ≤ 48), 3, (tqClockOf s : Int), 5, 48),
        (decide (5 ≤ tqUserOf s ∧ tqUserOf s ≤ 48), 5, (tqUserOf s : Int), 5, 48),
        (decide (1 ≤ s.propSeg), 8, (s.propSeg : Int), 1, 255),
        (decide (1 ≤ s.seg1), 9, (s.seg1 : Int), 1, 255),
        (decide (1 ≤ s.seg2), 10, (s.seg2 : Int), 1, 255),
        (decide (1 ≤ s.sjw), 11, (s.sjw : Int), 1, 255) ] := by
  simp [fdResolution]

/-- The three warnings of R67. -/
theorem fd_warnMask (s : State) :
    warnMask (fdResolution s).warnings =
      (if tqMismatch s = true then 1#32 <<< StatusFlag.wTqFd.bit else 0#32) |||
        (if s.fdEn = true ∧ s.cbtEn = true ∧ s.presc ≠ s.xprescCbt then 0x800#32 else 0#32) |||
        (if s.brsEn = true ∧ s.cbtEn = false ∧ s.presc ≠ s.xprescClassic then 0x1000#32 else 0#32) := by
  simp [fdResolution, warnMask, fdCbtMismatch, fdClassicMismatch, StatusFlag.bit, BitVec.or_assoc, and_assoc]

/-- Settles O28: the premises are the eight checks. -/
theorem fdSucceeds : Obligations.FdSucceeds := by
  intro s D tq tu hf hpresc hbaud htq htq' htu htu' hprop hseg1 hseg2 hsjw
  have hclock : tqClockOf s = tq := tqClockOf_of_pos s hpresc hbaud
  have hpass : ∀ c ∈ (fdResolution s).checks, c.holds = true := by
    rw [forall_holds_iff, fd_rows, hclock]
    simp only [List.forall_mem_cons, List.not_mem_nil, decide_eq_true_eq, false_imp_iff, implies_true, and_true]
    exact ⟨hpresc, hbaud, ⟨htq, htq'⟩, ⟨htu, htu'⟩, hprop, hseg1, hseg2, hsjw⟩
  have hresolves := fdResolution_user.resolvesTo (i := .resolveFd) rfl hf hpass hpresc hprop hseg1 hseg2 hsjw
  rwa [fd_warnMask, tqMismatch_mask_of_pos hpresc hbaud, hclock] at hresolves

/-- Settles O29: `fd_rows` and `fd_warnMask` are those of the statement. -/
theorem fdReportsFirstFailure : Obligations.FdReportsFirstFailure := by
  intro s hf
  have hreports := reportsFirstFailure_of_rows (i := .resolveFd) rfl hf (fd_rows s).symm rfl rfl
  rwa [fd_warnMask, tqMismatch_mask] at hreports

/-! ### RESOLVE_CBT (R68) -/

/-- The nine checks of R68 in numbers. -/
theorem cbt_rows (s : State) :
    (cbtResolution s).checks.map checkRow =
      [ (decide (1 ≤ s.presc), 1, (s.presc : Int), 1, 65535),
        (decide (1 ≤ s.baud), 2, (s.baud : Int), 1, 65535),
        (decide (8 ≤ tqClockOf s ∧ tqClockOf s ≤ 129), 3, (tqClockOf s : Int), 8, 129),
        (decide (4 ≤ s.propSeg + s.seg1 ∧ s.propSeg + s.seg1 ≤ 96), 4, ((s.propSeg + s.seg1 : Nat) : Int), 4, 96),
        (decide (2 ≤ s.seg2 ∧ s.seg2 ≤ 32), 15, (s.seg2 : Int), 2, 32),
        (decide (8 ≤ tqUserOf s ∧ tqUserOf s ≤ 129), 5, (tqUserOf s : Int), 8, 129),
        (decide (1 ≤ s.propSeg), 8, (s.propSeg : Int), 1, 255),
        (decide (1 ≤ s.seg1), 9, (s.seg1 : Int), 1, 255),
        (decide (1 ≤ s.sjw), 11, (s.sjw : Int), 1, 255) ] := by
  have hts1 : s.propSeg + s.seg1 = tseg1Of s := rfl
  simp [cbtResolution, hts1, ErrParam.code]

/-- Settles O30: the premises are the nine checks. -/
theorem cbtSucceeds : Obligations.CbtSucceeds := by
  intro s D tq tu hf hpresc hbaud htq htq' hts hts' hs2 hs2' htu htu' hprop hseg1 hsjw
  have hclock : tqClockOf s = tq := tqClockOf_of_pos s hpresc hbaud
  have hpass : ∀ c ∈ (cbtResolution s).checks, c.holds = true := by
    rw [forall_holds_iff, cbt_rows, hclock]
    simp only [List.forall_mem_cons, List.not_mem_nil, decide_eq_true_eq, false_imp_iff, implies_true, and_true]
    exact ⟨hpresc, hbaud, ⟨htq, htq'⟩, ⟨hts, hts'⟩, ⟨hs2, hs2'⟩, ⟨htu, htu'⟩, hprop, hseg1, hsjw⟩
  have hresolves :=
    cbtResolution_user.resolvesTo (i := .resolveCbt) rfl hf hpass hpresc hprop hseg1 (by omega) hsjw
  rwa [cbtResolution, warnMask_single, tqMismatch_mask_of_pos hpresc hbaud, hclock] at hresolves

/-- Settles O31: `cbt_rows` is the list of the statement. -/
theorem cbtReportsFirstFailure : Obligations.CbtReportsFirstFailure := by
  intro s hf
  have hreports := reportsFirstFailure_of_rows (i := .resolveCbt) rfl hf (cbt_rows s).symm rfl rfl
  rwa [cbtResolution, warnMask_single, tqMismatch_mask] at hreports

/-! ### RESOLVE_AUTO (R66) -/

/-- The nine checks of R66 in numbers, over its signed derivation. -/
theorem auto_rows (s : State) :
    (autoResolution s).checks.map checkRow =
      [ (decide (1 ≤ s.presc), 1, (s.presc : Int), 1, 65535),
        (decide (1 ≤ s.baud), 2, (s.baud : Int), 1, 65535),
        (decide (1 + propQuanta s ≤ 8), 12, ((1 + propQuanta s : Nat) : Int), 1, 8),
        (decide (2 ≤ (autoTiming s).phase), 13, (autoTiming s).phase, 2, 0xFFFFFFFF),
        (decide (2 ≤ (autoTiming s).seg2 ∧ (autoTiming s).seg2 ≤ 8), 14, (autoTiming s).seg2, 2, 8),
        (decide (8 ≤ tqClockOf s ∧ tqClockOf s ≤ 25), 3, (tqClockOf s : Int), 8, 25),
        (decide (4 ≤ 1 + propQuanta s + (autoTiming s).seg1 ∧ 1 + propQuanta s + (autoTiming s).seg1 ≤ 16), 4,
          1 + propQuanta s + (autoTiming s).seg1, 4, 16),
        (decide (s.mbCnt ≤ 64), 6, (s.mbCnt : Int), 0, 64),
        (decide ((if s.mbCnt ≤ 32 then 8 else 16) ≤ tqClockOf s * s.presc), 7, ((tqClockOf s * s.presc : Nat) : Int),
          if s.mbCnt ≤ 32 then 8 else 16, 0xFFFFFFFF) ] := by
  have hprop : (autoTiming s).propSegment = 1 + (propQuanta s : Int) := rfl
  have hbound : 1 + (propQuanta s : Int) ≤ 8 ↔ 1 + propQuanta s ≤ 8 := by omega
  simp [autoResolution, hprop, hbound, ErrParam.code, noUpperBound]

/-- R66 with R61: the derived segments add up to the count of the clock, whatever their signs (R70). -/
theorem auto_tqUser (s : State) : (autoResolution s).tqUser = tqClockOf s := by
  simp only [autoResolution, autoTiming]
  ring

/-- Settles O27: `auto_rows` is the list of the statement, and both counts are equal. -/
theorem autoReportsFirstFailure : Obligations.AutoReportsFirstFailure := by
  intro s hf
  exact reportsFirstFailure_of_rows (i := .resolveAuto) rfl hf (auto_rows s).symm rfl (auto_tqUser s)

/-- The whole part of R66's derivation where `4 <= phase <= 16` (corner case c). -/
theorem autoTiming_of_phase {s : State} (hlow : propQuanta s + 6 ≤ tqClockOf s)
    (hhigh : tqClockOf s ≤ propQuanta s + 18) {phase : Nat} (hphase : phase = tqClockOf s - (propQuanta s + 2)) :
    autoTiming s =
      { propSegment := (propQuanta s + 1 : Nat), phase := phase, seg1 := ((phase + 1) / 2 : Nat),
        seg2 := (phase - (phase + 1) / 2 : Nat), sjw := (min ((phase + 1) / 2) 4 : Nat) } := by
  simp only [autoTiming, ceil2, AutoTiming.mk.injEq]
  omega

/-- The nine checks of R66 hold exactly in the ranges of corner case c. -/
theorem auto_passes_iff {s : State} :
    (∀ c ∈ (autoResolution s).checks, c.holds = true) ↔
      1 ≤ s.presc ∧ 1 ≤ s.baud ∧ propQuanta s + 1 ≤ 8 ∧ propQuanta s + 6 ≤ tqClockOf s ∧
      tqClockOf s ≤ propQuanta s + 18 ∧ (8 ≤ tqClockOf s ∧ tqClockOf s ≤ 25) ∧
      (4 ≤ propQuanta s + 1 + (tqClockOf s - (propQuanta s + 2) + 1) / 2 ∧
        propQuanta s + 1 + (tqClockOf s - (propQuanta s + 2) + 1) / 2 ≤ 16) ∧ s.mbCnt ≤ 64 ∧
      (if s.mbCnt ≤ 32 then 8 else 16) ≤ tqClockOf s * s.presc := by
  rw [forall_holds_iff, auto_rows]
  simp only [List.forall_mem_cons, List.not_mem_nil, decide_eq_true_eq, false_imp_iff, implies_true, and_true]
  simp only [autoTiming, ceil2]
  omega

/-- A successful result of R66 in numbers. -/
theorem auto_result {s : State} (hlow : propQuanta s + 6 ≤ tqClockOf s) (hhigh : tqClockOf s ≤ propQuanta s + 18)
    {phase : Nat} (hphase : phase = tqClockOf s - (propQuanta s + 2)) :
    (autoResolution s).result =
      { kind := 2#3, presc := s.presc, prop := (propQuanta s + 1 : Nat), s1 := ((phase + 1) / 2 : Nat),
        s2 := (phase - (phase + 1) / 2 : Nat), sjw := (min ((phase + 1) / 2) 4 : Nat) } := by
  simp only [autoResolution, autoTiming_of_phase hlow hhigh hphase]

/-- Settles O26: in the ranges of corner case c the signed derivation is one of natural numbers. -/
theorem autoSucceeds : Obligations.AutoSucceeds := by
  intro s D tq time q phase seg1 hf hpresc hbaud hprop hlow hhigh htq htq' hts hts' hmb hratio
  have hclock : tqClockOf s = tq := tqClockOf_of_pos s hpresc hbaud
  have hquanta : propQuanta s = q := if_neg (by omega)
  have hphase : phase = tq - (q + 2) := rfl
  have hseg1 : seg1 = (phase + 1) / 2 := rfl
  clear_value seg1 phase q tq
  subst hseg1 hquanta hclock
  have hpass : ∀ c ∈ (autoResolution s).checks, c.holds = true := by
    rw [auto_passes_iff, ← hphase]
    exact ⟨hpresc, hbaud, hprop, hlow, hhigh, ⟨htq, htq'⟩, ⟨hts, hts'⟩, hmb, hratio⟩
  have hresolves := resolvesTo_of_pass (i := .resolveAuto) (tqClock := tqClockOf s) rfl hf hpass rfl (auto_tqUser s)
    (auto_result hlow hhigh hphase) ⟨hpresc, presc_lt s⟩ (by omega) (by omega) (by omega) (by omega)
  exact hresolves

/-! ### What the four commands have in common (R60, R72) -/

/-- A resolver command and its rule: it counts the clock by R60, checks PRESC and then BAUD_KHZ first, and where one of
them is 0 it can raise no warning but those of the other prescalers (R72). -/
structure TimingCommand (i : Instr) (f : State → Resolution) : Prop where
  rule : ResolverRule f
  effect : ∀ s, commandEffect i s = resolveFrame f s
  tqClock : ∀ s, (f s).tqClock = tqClockOf s
  checks : ∀ s, ∃ rest, (f s).checks = checkPresc s :: checkBaud s :: rest
  warnings : ∀ s, divisor s = 0 → ∀ w ∈ (f s).warnings, w.1 = true → w.2 = .wPrescFdCbt ∨ w.2 = .wPrescFdCls

theorem tqMismatch_of_zero {s : State} (hD : divisor s = 0) : tqMismatch s = false := by simp [tqMismatch, hD]

theorem resolveClassic_timing : TimingCommand .resolveClassic classicResolution where
  rule := classicResolution_rule
  effect _ := rfl
  tqClock _ := rfl
  checks _ := ⟨_, rfl⟩
  warnings s hD := by simp [classicResolution, tqMismatch_of_zero hD]

theorem resolveAuto_timing : TimingCommand .resolveAuto autoResolution where
  rule := autoResolution_rule
  effect _ := rfl
  tqClock _ := rfl
  checks _ := ⟨_, rfl⟩
  warnings s _ := by simp [autoResolution]

theorem resolveFd_timing : TimingCommand .resolveFd fdResolution where
  rule := fdResolution_rule
  effect _ := rfl
  tqClock _ := rfl
  checks _ := ⟨_, rfl⟩
  warnings s hD := by simp [fdResolution, tqMismatch_of_zero hD]

theorem resolveCbt_timing : TimingCommand .resolveCbt cbtResolution where
  rule := cbtResolution_rule
  effect _ := rfl
  tqClock _ := rfl
  checks _ := ⟨_, rfl⟩
  warnings s hD := by simp [cbtResolution, tqMismatch_of_zero hD]

theorem exists_timingCommand {i : Instr}
    (hi : i = .resolveClassic ∨ i = .resolveAuto ∨ i = .resolveFd ∨ i = .resolveCbt) : ∃ f, TimingCommand i f := by
  rcases hi with rfl | rfl | rfl | rfl
  · exact ⟨_, resolveClassic_timing⟩
  · exact ⟨_, resolveAuto_timing⟩
  · exact ⟨_, resolveFd_timing⟩
  · exact ⟨_, resolveCbt_timing⟩

/-- Settles O23: TQ_CLOCK holds `tqClockOf s`, which is at most CLK_HZ and so fits the register. -/
theorem tqClockIsRoundedQuotient : Obligations.TqClockIsRoundedQuotient := by
  intro s i hf hi
  obtain ⟨f, hcmd⟩ := exists_timingCommand hi
  obtain ⟨hclock, _⟩ := get_counts_resolveFrame (s := s) (f := f)
  refine ⟨_, exec_of_clear i hf, ?_⟩
  rw [hcmd.effect, hclock, hcmd.tqClock, BitVec.ofInt_natCast, BitVec.toNat_ofNat, Nat.mod_eq_of_lt (tqClockOf_lt s)]
  rfl

/-! ### The flags after a resolver command -/

/-- R59 step 4: a warning's flag is set where its condition holds, the others stay. -/
theorem flag_recordWarnings (s : State) (ws : List (Bool × StatusFlag)) (g : StatusFlag) :
    (recordWarnings s ws).flag g = (ws.any (fun w => w.1 && decide (g = w.2)) || s.flag g) := by
  induction ws generalizing s with
  | nil => rfl
  | cons w ws ih => rw [recordWarnings_cons, ih, flag_warnIf, List.any_cons, Bool.or_assoc, Bool.or_left_comm]

theorem flag_resolveStart (s : State) (q : Resolution) (g : StatusFlag) :
    (resolveStart s q).flag g =
      (q.warnings.any (fun w => w.1 && decide (g = w.2)) || (s.flag g && !decide (g = .valid))) := by
  simp [resolveStart, flag_recordWarnings, flag_set]

@[simp] theorem flag_resolveDeliver (s : State) (t : TimingResult) (g : StatusFlag) :
    (resolveDeliver s t).flag g = (decide (g = .valid) || s.flag g) := by
  simp [resolveDeliver, flag_set]

@[simp] theorem flag_raiseOutOfRange (s : State) (param : ErrParam) (value : Int) (lo hi : Nat) (g : StatusFlag) :
    (raiseOutOfRange s param value lo hi).flag g = (decide (g = .fatal) || s.flag g) :=
  flag_fatalEntry s _ _ _ _ _ _ _

section
variable {s : State} {f : State → Resolution} {g : StatusFlag}

/-- A command that leaves VALID set passed all its checks. -/
theorem passes_of_valid (hf : ResolverRule f) (h : (resolveFrame f s).flag .valid = true) :
    ∀ c ∈ (f s).checks, c.holds = true := by
  rcases resolveFrame_cases s f with ⟨hpass, _⟩ | ⟨c, _, _, he⟩
  · exact hpass
  · simp [he, flag_valid_resolveStart hf] at h

theorem valid_of_passes (hpass : ∀ c ∈ (f s).checks, c.holds = true) : (resolveFrame f s).flag .valid = true := by
  simp [resolveFrame_of_pass s hpass]

/-- A warning whose condition holds is recorded, whether or not a check fails (R144). -/
theorem flag_resolveFrame_of_raised (h : (true, g) ∈ (f s).warnings) : (resolveFrame f s).flag g = true := by
  have hstart : (resolveStart s (f s)).flag g = true := by
    rw [flag_resolveStart, List.any_eq_true.2 ⟨_, h, by simp⟩, Bool.true_or]
  rcases resolveFrame_cases s f with ⟨_, he⟩ | ⟨c, _, _, he⟩ <;> simp [he, hstart]

/-- A flag that is none of the warnings raised keeps its value through R59 steps 1 to 4. -/
theorem flag_resolveStart_of_not_raised (hg : g ≠ .valid) (h : ∀ w ∈ (f s).warnings, w.1 = true → g ≠ w.2) :
    (resolveStart s (f s)).flag g = s.flag g := by
  have hany : (f s).warnings.any (fun w => w.1 && decide (g = w.2)) = false := by
    rw [List.any_eq_false]
    intro w hw
    simpa using h w hw
  simp [flag_resolveStart, hany, hg]

/-- The same through the whole command, for a flag other than VALID and FATAL. -/
theorem flag_resolveFrame_of_not_raised (hv : g ≠ .valid) (hg : g ≠ .fatal)
    (h : ∀ w ∈ (f s).warnings, w.1 = true → g ≠ w.2) : (resolveFrame f s).flag g = s.flag g := by
  have hstart := flag_resolveStart_of_not_raised hv h
  rcases resolveFrame_cases s f with ⟨_, he⟩ | ⟨c, _, _, he⟩ <;> simp [he, hstart, hv, hg]

theorem fatal_of_passes (hf : ResolverRule f) (hpass : ∀ c ∈ (f s).checks, c.holds = true) :
    (resolveFrame f s).flag .fatal = s.flag .fatal := by
  have hstart : (resolveStart s (f s)).flag .fatal = s.flag .fatal := by
    refine flag_resolveStart_of_not_raised (by decide) fun w hw _ hfatal => ?_
    exact absurd (hf.warnings s w hw) (by rw [← hfatal]; decide)
  simp [resolveFrame_of_pass s hpass, hstart]

end

/-! ### The zero divisor rule (R72) -/

/-- With PRESC or BAUD_KHZ 0 the first of the two is the failing check reported. -/
theorem TimingCommand.reports_zero {i : Instr} {f : State → Resolution} (hcmd : TimingCommand i f) {s : State}
    (h0 : s.presc = 0 ∨ s.baud = 0) :
    resolveFrame f s = raiseOutOfRange (resolveStart s (f s)) (if s.presc = 0 then .pPresc else .pBaud) 0 1 65535 := by
  obtain ⟨rest, hchecks⟩ := hcmd.checks s
  by_cases hpresc : s.presc = 0
  · have hfail : (checkPresc s).holds = false := by simp [checkPresc, Check.atLeast, hpresc]
    rw [resolveFrame_of_fail s (k := 0) (by rw [hchecks]; rfl) hfail (by simp)]
    simp [checkPresc, Check.atLeast, hpresc]
  · have hbaud : s.baud = 0 := h0.resolve_left hpresc
    have hpass : (checkPresc s).holds = true := by simp [checkPresc, Check.atLeast]; omega
    have hfail : (checkBaud s).holds = false := by simp [checkBaud, Check.atLeast, hbaud]
    rw [resolveFrame_of_fail s (k := 1) (by rw [hchecks]; rfl) hfail (by simp [hchecks, hpass])]
    simp [checkBaud, Check.atLeast, hbaud, hpresc]

/-- The record of the zero divisor (R142, R143). -/
theorem errCodeWord_zero_divisor (p : Prop) [Decidable p] :
    errCodeWord .outOfRange (if p then .pPresc else .pBaud) 0#8 = if p then 0x00000101#32 else 0x00000102#32 := by
  split <;> rfl

/-- Settles O32: the failing check is PRESC's or BAUD_KHZ's, and no warning raised is a TQ mismatch. -/
theorem zeroDivisorRule : Obligations.ZeroDivisorRule := by
  intro s i hf hi h0
  obtain ⟨f, hcmd⟩ := exists_timingCommand hi
  have hD : divisor s = 0 := (divisor_eq_zero_iff s).2 h0
  have hclock : (f s).tqClock = 0 := by simp [hcmd.tqClock, tqClockOf, hD]
  have hvalid := flag_valid_resolveStart hcmd.rule s
  have hkept : ∀ g : StatusFlag, g ≠ .valid → g ≠ .fatal → g ≠ .wPrescFdCbt → g ≠ .wPrescFdCls →
      (commandEffect i s).flag g = s.flag g := by
    intro g hv hfat hcbt hcls
    rw [hcmd.effect]
    refine flag_resolveFrame_of_not_raised hv hfat fun w hw hcond hg => ?_
    rcases hcmd.warnings s hD w hw hcond with h | h
    · exact hcbt (hg.trans h)
    · exact hcls (hg.trans h)
  have heffect := (hcmd.effect s).trans (hcmd.reports_zero h0)
  refine ⟨_, exec_of_clear i hf, by simp [heffect], by simp [heffect, hvalid], ?_, ?_, ?_, ?_, ?_, ?_, ?_,
    hkept _ (by decide) (by decide) (by decide) (by decide), hkept _ (by decide) (by decide) (by decide) (by decide),
    hkept _ (by decide) (by decide) (by decide) (by decide), ?fd⟩
  case fd =>
    rintro rfl
    refine ⟨fun hfd hcbt hx => ?_, fun hbrs hcbt hx => ?_⟩
    · exact flag_resolveFrame_of_raised (f := fdResolution) (by simp [fdResolution, fdCbtMismatch, hfd, hcbt, hx])
    · exact flag_resolveFrame_of_raised (f := fdResolution)
        (by simp [fdResolution, fdClassicMismatch, hbrs, hcbt, hx])
  all_goals simp [heffect, get_resolveFailure, hclock, errCodeWord_zero_divisor]

/-! ### A result of RESOLVE_AUTO as the user's segments (R70) -/

/-- SEGS with the segments of a result, without the minus-one mapping of RES1 (R21). -/
def segsWord (t : TimingResult) : Word :=
  BitVec.ofInt 8 t.sjw ++ BitVec.ofInt 8 t.s2 ++ BitVec.ofInt 8 t.s1 ++ BitVec.ofInt 8 t.prop

theorem ofInt_pred_add_one (x : Int) : BitVec.ofInt 8 (x - 1) + 1#8 = BitVec.ofInt 8 x := by
  have h : (1#8) = BitVec.ofInt 8 1 := rfl
  rw [h, ← BitVec.ofInt_add, sub_add_cancel]

/-- Reading RES1's fields and adding 1 to each undoes the mapping of R65. -/
theorem segsWord_of_res1Word (t : TimingResult) :
    (field (res1Word t) 24 8 + 1#8) ++ (field (res1Word t) 16 8 + 1#8) ++ (field (res1Word t) 8 8 + 1#8) ++
      (field (res1Word t) 0 8 + 1#8) = segsWord t := by
  have hfields : field (res1Word t) 24 8 = BitVec.ofInt 8 (t.sjw - 1) ∧
      field (res1Word t) 16 8 = BitVec.ofInt 8 (t.s2 - 1) ∧ field (res1Word t) 8 8 = BitVec.ofInt 8 (t.s1 - 1) ∧
      field (res1Word t) 0 8 = BitVec.ofInt 8 (t.prop - 1) := by
    have h1 := (BitVec.ofInt 8 (t.sjw - 1)).isLt
    have h2 := (BitVec.ofInt 8 (t.s2 - 1)).isLt
    have h3 := (BitVec.ofInt 8 (t.s1 - 1)).isLt
    have h4 := (BitVec.ofInt 8 (t.prop - 1)).isLt
    refine ⟨?_, ?_, ?_, ?_⟩ <;>
    · apply BitVec.eq_of_toNat_eq
      simp only [toNat_field, res1Word, toNat_concat]
      omega
  obtain ⟨hsjw, hs2, hs1, hprop⟩ := hfields
  simp only [hsjw, hs2, hs1, hprop, ofInt_pred_add_one, segsWord]

/-- The operands in SEGS after segments that fit their fields were written to it. -/
theorem segs_operands_of_segsWord {s : State} {kind : BitVec 3} {presc : Int} {prop s1 s2 sjw : Nat}
    (h : s.get .segs = segsWord { kind := kind, presc := presc, prop := prop, s1 := s1, s2 := s2, sjw := sjw })
    (hprop : prop < 256) (hs1 : s1 < 256) (hs2 : s2 < 256) (hsjw : sjw < 256) :
    s.propSeg = prop ∧ s.seg1 = s1 ∧ s.seg2 = s2 ∧ s.sjw = sjw := by
  simp only [State.propSeg, State.seg1, State.seg2, State.sjw, h, segsWord, toNat_field, toNat_concat,
    BitVec.ofInt_natCast, BitVec.toNat_ofNat]
  omega

/-- Where RESOLVE_AUTO passes at `s`, RESOLVE_CLASSIC passes at a state with the same clock, rate and TCTL and the derived
segments, counts the same quanta twice and delivers the same segments. -/
theorem classic_of_auto {s u : State} (hpass : ∀ c ∈ (autoResolution s).checks, c.holds = true)
    (hclk : u.get .clkHz = s.get .clkHz) (hrate : u.get .rate = s.get .rate) (htctl : u.get .tctl = s.get .tctl)
    (hsegs : u.get .segs = segsWord (autoResolution s).result) :
    (∀ c ∈ (classicResolution u).checks, c.holds = true) ∧ tqUserOf u = tqClockOf s ∧ tqClockOf u = tqClockOf s ∧
      res1Word (userResult u 1#3) = res1Word (autoResolution s).result := by
  obtain ⟨hpresc, hbaud, hq, hlow, hhigh, htq, hts, hmb, hratio⟩ := auto_passes_iff.1 hpass
  have hclock := tqClockOf_congr hclk hrate
  obtain ⟨hbaud', hpresc', _⟩ := rate_operands_congr hrate
  obtain ⟨hmb', _⟩ := tctl_operands_congr htctl
  have hresult := auto_result hlow hhigh rfl
  rw [hresult] at hsegs
  obtain ⟨hprop, hseg1, hseg2, hsjw⟩ :=
    segs_operands_of_segsWord hsegs (by omega) (by omega) (by omega) (by omega)
  have huser : tqUserOf u = tqClockOf s := by
    rw [tqUserOf, hprop, hseg1, hseg2]
    omega
  refine ⟨?_, huser, hclock, ?_⟩
  · rw [classic_passes_iff, huser, hclock, hbaud', hpresc', hmb', hprop, hseg1, hseg2, hsjw]
    exact ⟨hpresc, hbaud, htq, hts, htq, hmb, hratio, by omega, by omega, by omega, by omega⟩
  · rw [hresult]
    simp only [res1Word, userResult, hprop, hseg1, hseg2, hsjw]

/-- Settles O33: the state RESOLVE_AUTO leaves, with its segments in SEGS, is one of `classic_of_auto`; both counts are
equal there, so RESOLVE_CLASSIC raises no warning. -/
theorem autoResultFeedsClassic : Obligations.AutoResultFeedsClassic := by
  intro s hf
  refine ⟨resolveFrame autoResolution s, exec_of_clear .resolveAuto hf, ?_, fun hvalid => ?_⟩
  · obtain ⟨hclock, huser⟩ := get_counts_resolveFrame (s := s) (f := autoResolution)
    rw [hclock, huser, auto_tqUser]
    rfl
  have hpass := passes_of_valid autoResolution_rule hvalid
  have hframe := resolveFrame_of_pass s hpass
  have hres1 : (resolveFrame autoResolution s).get .res1 = res1Word (autoResolution s).result := by
    simp [hframe, get_resolveDeliver]
  rw [hres1, segsWord_of_res1Word]
  generalize hfed : (resolveFrame autoResolution s).set .segs (segsWord (autoResolution s).result) = fed
  have hkept : ∀ r, r ≠ .segs → r ∉ timingErrorRegs → fed.get r = s.get r := by
    intro r hr hwritten
    obtain ⟨hunchanged, _⟩ := Unchanged.resolveFrame s autoResolution
    rw [← hfed, get_set_ne _ _ _ _ hr, hunchanged r hwritten]
  have hflag : ∀ g, fed.flag g = (resolveFrame autoResolution s).flag g := by
    intro g
    rw [← hfed, flag_set _ _ _ _ (by decide)]
  obtain ⟨hclassic, htu, htq, hres⟩ := classic_of_auto hpass (hkept .clkHz (by decide) (by decide))
    (hkept .rate (by decide) (by decide)) (hkept .tctl (by decide) (by decide)) (by rw [← hfed, get_set_self])
  have hfatal : fed.flag .fatal = false := by rw [hflag, fatal_of_passes autoResolution_rule hpass, hf]
  have hmatch : tqMismatch fed = false := by simp [tqMismatch, htq, htu]
  refine ⟨resolveFrame classicResolution fed, exec_of_clear .resolveClassic hfatal, valid_of_passes hclassic, ?_, ?_,
    ?_, ?_⟩
  · rw [fatal_of_passes classicResolution_rule hclassic, hfatal]
  · rw [flag_resolveFrame_of_not_raised (by decide) (by decide) (by simp [classicResolution, hmatch]), hflag,
      flag_resolveFrame_of_not_raised (by decide) (by decide) (by simp [autoResolution])]
  · rw [resolveFrame_of_pass fed hclassic, get_resolveDeliver]
    exact hres
  · rw [(get_counts_resolveFrame (f := classicResolution)).2, (get_counts_resolveFrame (f := autoResolution)).2,
      auto_tqUser, classicResolution_user.tqUser, htu]

end Sys2Proof.Proofs

/-! ## Placements, ALLOC_NEXT and the slot grid (O55) -/

namespace Sys2Proof.Proofs

open Sys2Proof Sys2Proof.Machine Sys2Proof.Laws

/-! ### Placements (R77, R78, R80) -/

section
variable {e : AllocEnv} {c k : Nat} {p : Slot}

/-- A placement is the attempt at one address in one region (R78). -/
theorem place_eq_placeAt (h : place e c = .ok p) : ∃ r a, placeAt e r a = .ok p := by
  rcases place_cases e c with ⟨_, he⟩ | ⟨_, _, _, he⟩ | ⟨_, _, _, he⟩ | ⟨_, _, he⟩ <;> rw [h] at he
  · cases he
  · cases he
  · exact ⟨_, _, he.symm⟩
  · exact ⟨_, _, he.symm⟩

/-- The slot several placements give is the one the last of them gives. -/
theorem placeMany_last (h : placeMany e k c = .ok p) : ∃ d, place e d = .ok p := by
  induction k generalizing c with
  | zero => exact ⟨c, h⟩
  | succ k ih =>
    obtain ⟨q, _, hq⟩ := placeMany_succ_ok.1 h
    exact ih hq

/-- Whatever the parameters, the index and the payload length of a placed slot fit their fields of AIDX (R32, R81 a). -/
theorem placeMany_fits {s : State} (h : placeMany s.allocEnv k c = .ok p) : p.index + 1 < 256 ∧ p.plen < 256 := by
  obtain ⟨d, hd⟩ := placeMany_last h
  obtain ⟨r, a, ha⟩ := place_eq_placeAt hd
  obtain ⟨_, hcount, rfl⟩ := placeAt_ok.1 ha
  obtain ⟨_, hmax⟩ := allocEnv_limits s
  have hlen := payload_cases s.allocEnv r
  show index s.allocEnv a + 1 < 256 ∧ payload s.allocEnv r < 256
  omega

/-- From a cursor on the grid, the last of several placements takes the index as many further, and leaves the cursor on
the grid just behind its slot (R88). -/
theorem placeMany_slot (hw : e.cfg.wf = true) (hc : OnGrid e c) (h : placeMany e k c = .ok p) :
    p.index = index e c + k ∧ OnGrid e p.address ∧ OnGrid e p.next ∧ index e p.next = p.index + 1 ∧
      ∃ d, c ≤ d ∧ Placed e d p := by
  obtain ⟨d, hcd, hd, hplace, hindex⟩ := placeMany_grid hw hc h
  obtain ⟨hi, haddress, hnext, hbehind⟩ := place_grid hw hd hplace
  exact ⟨hi.trans hindex, haddress, hnext, hbehind, d, hcd, place_ok hw hd.1 hplace⟩

theorem regionOk_eq_false_iff {r : Nat} :
    regionOk e r = false ↔ e.fdEn = true ∧ e.perRegion = true ∧ e.cfg.numRegions.val ≤ r := by
  simp [regionOk, and_assoc]

end

/-! ### What ALLOC_NEXT leaves (R81) -/

section
variable {s t : State}

/-- The reservation of R80 as the rule writes it. -/
theorem reservedSlots_eq (s : State) :
    reservedSlots s = if s.first = true ∧ s.fifoEn = true then s.filterCount / 4 + 6 else 0 := by
  simp [reservedSlots]

theorem flag_allocFail (s : State) (f : CapacityFailure) (g : StatusFlag) :
    (allocFail s f).flag g = ((decide (g = .fatal) || s.flag g) && !decide (g = .avalid)) := by
  simp [allocFail, clearSlot, State.setAState, raiseCapacityExceeded, flag_set]

theorem flag_allocAssign (s : State) (p : Slot) (g : StatusFlag) :
    (allocAssign s p).flag g = (decide (g = .avalid) || s.flag g) := by
  simp [allocAssign, flag_set]

/-- In an open pass where every placement succeeds, ALLOC_NEXT assigns the slot of the last one. -/
theorem exec_allocNext_of_ok (hf : s.flag .fatal = false) (hopen : s.aState.isOpen = true) {p : Slot}
    (hp : placeMany s.allocEnv (reservedSlots s) s.cursor = .ok p) :
    exec .allocNext s = .next (allocAssign s p) := by
  rw [exec_of_clear .allocNext hf]
  simp [commandEffect, allocNext, hopen, hp]

/-- In an open pass where a placement fails, ALLOC_NEXT is that failure. -/
theorem exec_allocNext_of_error (hf : s.flag .fatal = false) (hopen : s.aState.isOpen = true) {f : CapacityFailure}
    (hp : placeMany s.allocEnv (reservedSlots s) s.cursor = .error f) :
    exec .allocNext s = .next (allocFail s f) := by
  rw [exec_of_clear .allocNext hf]
  simp [commandEffect, allocNext, hopen, hp]

/-- An ALLOC_NEXT in an open pass raises a fatal error or assigns a slot; the two are told apart by FATAL. -/
theorem exec_allocNext_cases (hf : s.flag .fatal = false) (hopen : s.aState.isOpen = true)
    (he : exec .allocNext s = .next t) :
    (t.flag .fatal = true ∧ ∃ f, placeMany s.allocEnv (reservedSlots s) s.cursor = .error f ∧ t = allocFail s f) ∨
    (t.flag .fatal = false ∧ ∃ p, placeMany s.allocEnv (reservedSlots s) s.cursor = .ok p ∧ t = allocAssign s p) := by
  cases hp : placeMany s.allocEnv (reservedSlots s) s.cursor with
  | error f =>
    rw [exec_allocNext_of_error hf hopen hp] at he
    obtain rfl := Host.Outcome.next.inj he
    exact .inl ⟨by simp [flag_allocFail], f, rfl, rfl⟩
  | ok p =>
    rw [exec_allocNext_of_ok hf hopen hp] at he
    obtain rfl := Host.Outcome.next.inj he
    exact .inr ⟨by simp [flag_allocAssign, hf], p, rfl, rfl⟩

/-- An ALLOC_NEXT in an open pass that ends without a fatal error has assigned the slot of its last placement. -/
theorem exec_allocNext_assigned (hf : s.flag .fatal = false) (hopen : s.aState.isOpen = true)
    (he : exec .allocNext s = .next t) (hft : t.flag .fatal = false) :
    ∃ p, placeMany s.allocEnv (reservedSlots s) s.cursor = .ok p ∧ t = allocAssign s p := by
  rcases exec_allocNext_cases hf hopen he with ⟨hfatal, _⟩ | ⟨_, hassigned⟩
  · simp [hft] at hfatal
  · exact hassigned

/-- The registers that report an assigned slot, as numbers, where they can hold it. -/
theorem aaddr_allocAssign (s : State) {p : Slot} (h : p.address < 2 ^ 32) :
    ((allocAssign s p).get .aaddr).toNat = p.address := by
  have hget : (allocAssign s p).get .aaddr = BitVec.ofNat 32 p.address := get_allocAssign s p .aaddr
  rw [hget, BitVec.toNat_ofNat, Nat.mod_eq_of_lt h]

theorem cursor_allocAssign (s : State) {p : Slot} (h : p.next < 2 ^ 32) : (allocAssign s p).cursor = p.next := by
  have hget : (allocAssign s p).get .acur = BitVec.ofNat 32 p.next := get_allocAssign s p .acur
  rw [State.cursor, hget, BitVec.toNat_ofNat, Nat.mod_eq_of_lt h]

theorem aidx_allocAssign (s : State) {p : Slot} (hi : p.index < 65536) (hp : p.plen < 256) :
    (field ((allocAssign s p).get .aidx) 0 16).toNat = p.index ∧
      (field ((allocAssign s p).get .aidx) 16 8).toNat = p.plen := by
  have hget : (allocAssign s p).get .aidx = aidxWord p := get_allocAssign s p .aidx
  obtain ⟨hindex, hplen⟩ := field_aidxWord p
  rw [hget, hindex, hplen, BitVec.toNat_ofNat, BitVec.toNat_ofNat]
  exact ⟨Nat.mod_eq_of_lt hi, Nat.mod_eq_of_lt hp⟩

/-- An assigned slot, in the numbers its registers show, and where it was placed (R81). -/
theorem allocAssign_numbers (hw : s.cfg.wf = true) (hbase : s.cfg.mbBase ≤ s.cursor) {k : Nat} {p : Slot}
    (hp : placeMany s.allocEnv k s.cursor = .ok p) :
    ((allocAssign s p).get .aaddr).toNat = p.address ∧
      (field ((allocAssign s p).get .aidx) 0 16).toNat = p.index ∧
      (field ((allocAssign s p).get .aidx) 16 8).toNat = p.plen ∧ (allocAssign s p).cursor = p.next ∧
      ∃ d, s.cursor ≤ d ∧ Placed s.allocEnv d p := by
  obtain ⟨d, hd, hplaced⟩ := placeMany_ok (e := s.allocEnv) hw hbase hp
  obtain ⟨hidx, hplen, _, _, haddr, hnext⟩ := placed_fits hw (hbase.trans hd) hplaced
  obtain ⟨hindex, hlen⟩ := aidx_allocAssign s (by omega : p.index < 65536) hplen
  exact ⟨aaddr_allocAssign s haddr, hindex, hlen, cursor_allocAssign s hnext, d, hd, hplaced⟩

theorem aState_allocAssign (s : State) (p : Slot) :
    (allocAssign s p).aState = stateAfter s.allocEnv p.next := by
  have hget : (allocAssign s p).get .astat = astatAssigned s p := get_allocAssign s p .astat
  rw [State.aState, hget, (astatAssigned_fields s p).1]

theorem first_allocAssign (s : State) (p : Slot) : (allocAssign s p).first = false := by
  have hget : (allocAssign s p).get .astat = astatAssigned s p := get_allocAssign s p .astat
  rw [State.first, hget, (astatAssigned_fields s p).2.1]

theorem firstUser_allocAssign (s : State) {p : Slot} (h : p.index < 256) :
    (field ((allocAssign s p).get .astat) 8 8).toNat =
      if s.first then p.index else (field (s.get .astat) 8 8).toNat := by
  have hget : (allocAssign s p).get .astat = astatAssigned s p := get_allocAssign s p .astat
  obtain ⟨_, _, huser⟩ := astatAssigned_fields s p
  rw [hget, huser]
  split
  · rw [BitVec.toNat_ofNat, Nat.mod_eq_of_lt h]
  · rfl

/-- A command that leaves FEAT, ACFG and ALIM leaves what placements read (R78). -/
theorem allocEnv_of_unchanged {rs : List Reg} (h : Unchanged rs s t) (hrs : ∀ r ∈ [Reg.feat, .acfg, .alim], r ∉ rs) :
    t.allocEnv = s.allocEnv := by
  obtain ⟨hget, hcfg, _⟩ := h
  exact allocEnv_congr hcfg (hget _ (hrs _ (by decide))) (hget _ (hrs _ (by decide))) (hget _ (hrs _ (by decide)))

theorem allocEnv_allocAssign (s : State) (p : Slot) : (allocAssign s p).allocEnv = s.allocEnv :=
  allocEnv_of_unchanged (Unchanged.allocAssign s p) (by decide)

end

/-! ### The slot grid of an open pass (R88) -/

section
variable {s t : State}

/-- The payload configuration of `t` is that of `s`: the fields R164 names, and the parameters. -/
structure SamePayload (s t : State) : Prop where
  cfg : t.cfg = s.cfg
  fdEn : t.fdEn = s.fdEn
  perRegion : t.perRegion = s.perRegion
  gpl : t.gpl = s.gpl
  rpl0 : t.rpl0 = s.rpl0
  rpl1 : t.rpl1 = s.rpl1
  rpl2 : t.rpl2 = s.rpl2

theorem samePayload_of_regs (hc : t.cfg = s.cfg) (hfeat : t.get .feat = s.get .feat)
    (hacfg : t.get .acfg = s.get .acfg) : SamePayload s t := by
  constructor <;>
    simp only [State.fdEn, State.perRegion, State.gpl, State.rpl0, State.rpl1, State.rpl2, hc, hfeat, hacfg]

/-- The grid is read off the payload configuration, four registers and AVALID. -/
theorem slotGridOk_congr (hpayload : SamePayload s t) (hr : ∀ r ∈ [Reg.astat, .acur, .amax, .aidx], t.get r = s.get r)
    (hv : t.flag .avalid = true → s.flag .avalid = true) (h : SlotGridOk s) : SlotGridOk t := by
  obtain ⟨hc, hfd, hper, hgpl, h0, h1, h2⟩ := hpayload
  have hstate : t.aState = s.aState := by rw [State.aState, State.aState, hr .astat (by decide)]
  have hcursor : t.cursor = s.cursor := by rw [State.cursor, State.cursor, hr .acur (by decide)]
  have hmax : t.maxMb = s.maxMb := by rw [State.maxMb, State.maxMb, hr .amax (by decide)]
  obtain ⟨hneed, hoff, hindex⟩ := grid_of_payload_fields hc hfd hper hgpl h0 h1 h2 s.cursor
  unfold SlotGridOk
  rw [hstate, hcursor, hmax, hc, hr .aidx (by decide), hneed, hoff, hindex]
  intro hopen
  obtain ⟨hgrid, hcount, hslot⟩ := h hopen
  exact ⟨hgrid, hcount, fun ha => hslot (hv ha)⟩

theorem slotGridOk_of_closed (h : s.aState.isOpen = false) : SlotGridOk s := by simp [SlotGridOk, h]

/-- The invariants of an open pass put its cursor on the grid. -/
theorem onGrid_cursor (hpass : PassOk s) (hgrid : SlotGridOk s) (hopen : s.aState.isOpen = true) :
    OnGrid s.allocEnv s.cursor := by
  obtain ⟨hbase, _⟩ := hpass hopen
  obtain ⟨hneed, _⟩ := hgrid hopen
  exact ⟨hbase, hneed⟩

theorem cursor_allocBegin (hw : s.cfg.wf = true) (keepmax : Bool) : (allocBegin keepmax s).cursor = s.cfg.mbBase := by
  obtain ⟨_, hfit⟩ := Config.wf_iff.1 hw
  have hget : (allocBegin keepmax s).get .acur = BitVec.ofNat 32 s.cfg.mbBase := get_allocBegin s keepmax .acur
  rw [State.cursor, hget, BitVec.toNat_ofNat]
  exact Nat.mod_eq_of_lt (by omega)

theorem allocEnv_allocBegin (keepmax : Bool) (s : State) : (allocBegin keepmax s).allocEnv = s.allocEnv :=
  allocEnv_of_unchanged (Unchanged.allocBegin s keepmax) (by decide)

/-- A pass starts on the grid, with index 0 (R82). -/
theorem slotGridOk_allocBegin (hw : s.cfg.wf = true) (keepmax : Bool) : SlotGridOk (allocBegin keepmax s) := by
  intro _
  obtain ⟨_, hneed⟩ := onGrid_base s.allocEnv
  have hcfg : (allocBegin keepmax s).cfg = s.allocEnv.cfg := (allocBegin_own s keepmax).1
  have hbase : s.cfg.mbBase = s.allocEnv.cfg.mbBase := rfl
  rw [allocEnv_allocBegin, cursor_allocBegin hw, flag_avalid_allocBegin, hcfg, hbase, index_base]
  exact ⟨hneed, Nat.zero_le _, by simp⟩

/-- An assigned slot leaves the cursor on the grid, one index behind the slot and counted by AMAX (R79, R85). -/
theorem slotGridOk_allocAssign (hw : s.cfg.wf = true) (hc : OnGrid s.allocEnv s.cursor) {k : Nat} {p : Slot}
    (hp : placeMany s.allocEnv k s.cursor = .ok p) : SlotGridOk (allocAssign s p) := by
  intro _
  obtain ⟨_, _, hnext, hbehind, _⟩ := placeMany_slot hw hc hp
  obtain ⟨_, hindex, _, hcursor, _⟩ := allocAssign_numbers hw hc.1 hp
  obtain ⟨hidx, _⟩ := placeMany_fits hp
  have hcfg : (allocAssign s p).cfg = s.allocEnv.cfg := (allocAssign_own s p).1
  rw [allocEnv_allocAssign, hcursor, maxMb_allocAssign p (by omega), hindex, hcfg, hbehind]
  exact ⟨hnext.2, by omega, fun _ => rfl⟩

theorem slotGridOk_refuse (h : SlotGridOk s) : SlotGridOk (refuse s) :=
  slotGridOk_congr (samePayload_of_regs (refuse_cfg s) (get_refuse s _ (by decide)) (get_refuse s _ (by decide)))
    (fun r hr => get_refuse s r (by rintro rfl; exact absurd hr (by decide)))
    (flag_setFlag s .cmderr .avalid).symm.trans h

/-- The effect of a command keeps the grid: ALLOC_BEGIN and an assigning ALLOC_NEXT put the cursor on it anew, a failing
ALLOC_NEXT and ALLOC_END close the pass, CLR takes AVALID away, and no other command touches it. -/
theorem slotGridOk_commandEffect (hinv : WindowInv s) (h : SlotGridOk s) (i : Instr) :
    SlotGridOk (commandEffect i s) := by
  cases i
  case allocBegin keepmax => exact slotGridOk_allocBegin hinv.parameters keepmax
  case allocNext =>
    show SlotGridOk (allocNext s)
    rcases allocNext_cases s with ⟨_, he⟩ | ⟨_, f, _, he⟩ | ⟨hopen, p, hp, he⟩ <;> rw [he]
    · exact slotGridOk_refuse h
    · exact slotGridOk_of_closed (by rw [aState_allocFail]; rfl)
    · exact slotGridOk_allocAssign hinv.parameters (onGrid_cursor hinv.pass h hopen) hp
  case allocEnd =>
    show SlotGridOk (allocEnd s)
    rcases allocEnd_cases s with ⟨_, he⟩ | ⟨_, he⟩ <;> rw [he]
    · exact slotGridOk_refuse h
    · exact slotGridOk_of_closed (by rw [aState_setAState]; rfl)
  case clr =>
    exact slotGridOk_congr (samePayload_of_regs (clearErrors_cfg s) (get_clearErrors s _) (get_clearErrors s _))
      (fun r hr => get_commandEffect .clr s (by decide +revert))
      (fun ha => absurd ha (by simp [commandEffect, flag_clearErrors])) h
  all_goals
    exact slotGridOk_congr (samePayload_of_regs (commandEffect_unchanged _ s).2.1 (get_commandEffect _ s (by decide))
      (get_commandEffect _ s (by decide))) (fun r hr => get_commandEffect _ s (by decide +revert))
      (flag_commandEffect _ s (by decide) (by decide)).symm.trans h

theorem slotGridOk_exec (hinv : WindowInv s) (h : SlotGridOk s) {i : Instr} (he : exec i s = .next t) :
    SlotGridOk t := by
  rcases exec_cases he with ⟨_, rfl⟩ | rfl
  · exact slotGridOk_refuse h
  · exact slotGridOk_commandEffect hinv h i

/-- Beside the payload configuration the grid reads registers the host cannot write. -/
theorem slotGridOk_of_readOnly (hpayload : SamePayload s t) (hro : ∀ r : Reg, r.writable = false → t.get r = s.get r)
    (h : SlotGridOk s) : SlotGridOk t := by
  refine slotGridOk_congr hpayload (fun r hr => hro r (by decide +revert)) ?_ h
  rw [State.flag, State.flag, hro .status rfl]
  exact id

theorem slotGridOk_answer (h : SlotGridOk s) (a : Reply) : SlotGridOk (s.answer a) :=
  slotGridOk_of_readOnly (samePayload_of_regs rfl (get_answer s _ a) (get_answer s _ a)) (fun r _ => get_answer s r a) h

theorem slotGridOk_withPending (h : SlotGridOk s) (es : List HostEvent) : SlotGridOk (s.withPending es) :=
  slotGridOk_of_readOnly (samePayload_of_regs rfl (get_withPending s _ es) (get_withPending s _ es))
    (fun r _ => get_withPending s r es) h

theorem slotGridOk_storeCmd (h : SlotGridOk s) (w : Word) : SlotGridOk (s.set .cmd w) :=
  slotGridOk_of_readOnly (samePayload_of_regs (set_cfg s .cmd w) (get_set_ne s _ _ w (by decide))
    (get_set_ne s _ _ w (by decide))) (fun r hr => get_set_ne s .cmd r w (by rintro rfl; cases hr)) h

end

/-- Settles O55: a step's command keeps the grid, its other effects touch only what the host can write; and ALLOC_NEXT
places from a cursor on the grid. -/
theorem stepKeepsSlotGrid : Obligations.StepKeepsSlotGrid := by
  refine ⟨?_, ?_⟩
  · intro s t hinv hgrid hstep hfd hper hgpl h0 h1 h2
    have hpayload : SamePayload s t := ⟨(step_keeps_parameters hstep).1, hfd, hper, hgpl, h0, h1, h2⟩
    rcases step_cases hstep with ⟨a, rfl, _⟩ | ⟨es, _, rfl⟩ | ⟨es, addr, v, _, _, rfl⟩ | ⟨es, w, e, _, _, rfl⟩ |
      ⟨es, w, i, u, _, _, hexec, rfl⟩
    · exact slotGridOk_answer (slotGridOk_withPending hgrid _) a
    · exact slotGridOk_of_closed rfl
    · refine slotGridOk_of_readOnly hpayload (fun r hr => ?_) hgrid
      rw [get_answer, get_windowWrite_readOnly _ addr v hr, get_withPending]
    · exact slotGridOk_answer (slotGridOk_refuse (slotGridOk_storeCmd (slotGridOk_withPending hgrid es) w)) .ack
    · exact slotGridOk_answer (slotGridOk_exec (windowInv_storeCmd (windowInv_withPending hinv es) w)
        (slotGridOk_storeCmd (slotGridOk_withPending hgrid es) w) hexec) .ack
  · intro s t hinv hgrid hf hopen he hft
    obtain ⟨p, hp, rfl⟩ := exec_allocNext_assigned hf hopen he hft
    have hcursor := onGrid_cursor hinv.pass hgrid hopen
    obtain ⟨hplace, _⟩ := placeMany_slot (e := s.allocEnv) hinv.parameters hcursor hp
    obtain ⟨_, hindex, _⟩ := allocAssign_numbers hinv.parameters hcursor.1 hp
    rw [hindex, hplace, reservedSlots_eq]

end Sys2Proof.Proofs

/-! ## Each allocator command (O34 to O43) -/

namespace Sys2Proof.Proofs

open Sys2Proof Sys2Proof.Machine Sys2Proof.Laws

/-! ### The allocator commands (O34, O35, O37, O39 to O41) -/

/-- Settles O34. -/
theorem allocBeginOpensPass : Obligations.AllocBeginOpensPass := by
  refine ⟨by decide, by decide, fun s keepmax hf => ?_⟩
  exact ⟨allocBegin keepmax s, exec_of_clear _ hf, get_allocBegin s keepmax .acur, get_allocBegin s keepmax .astat,
    get_allocBegin s keepmax .aaddr, get_allocBegin s keepmax .aidx, get_allocBegin s keepmax .status,
    get_allocBegin s keepmax .amax, Unchanged.allocBegin s keepmax⟩

/-- Settles O35: register by register, what `allocAssign` writes; the slot's fields fit by `placeMany_fits`. -/
theorem allocNextAssignsSlot : Obligations.AllocNextAssignsSlot := by
  intro s p hf hopen hp
  rw [← reservedSlots_eq] at hp
  obtain ⟨hindex, hplen⟩ := placeMany_fits hp
  refine ⟨allocAssign s p, exec_allocNext_of_ok hf (AState.isOpen_iff.2 hopen) hp, get_allocAssign s p .aaddr, ?_,
    get_allocAssign s p .status, get_allocAssign s p .acur, aState_allocAssign s p, first_allocAssign s p,
    firstUser_allocAssign s (by omega), maxMb_allocAssign p (by omega), Unchanged.allocAssign s p⟩
  rw [← aidxWord_eq (by omega) hplen]
  exact get_allocAssign s p .aidx

/-- Settles O37. -/
theorem allocNextReportsCapacity : Obligations.AllocNextReportsCapacity := by
  intro s f hf hopen hp
  rw [← reservedSlots_eq] at hp
  have hastat : (allocFail s f).get .astat = setField (s.get .astat) 0 AState.regionExhausted.code :=
    get_allocFail s f .astat
  obtain ⟨_, hfirst, huser⟩ := astat_setState (s.get .astat) .regionExhausted
  refine ⟨allocFail s f, exec_allocNext_of_error hf (AState.isOpen_iff.2 hopen) hp, ?_, get_allocFail s f .errValue,
    get_allocFail s f .errLo, get_allocFail s f .errHi, aState_allocFail s f, ?_, ?_, get_allocFail s f .aaddr,
    get_allocFail s f .aidx, get_allocFail s f .status, Unchanged.allocFail s f⟩
  · have hcode := get_allocFail s f .errCode
    rw [errCodeWord_eq] at hcode
    exact hcode
  · rw [State.first, hastat, hfirst, State.first]
  · rw [hastat, huser]

/-- With no pass open ALLOC_NEXT and ALLOC_END are refused, whether FATAL is set or not (R76, R147). -/
theorem exec_of_closed {s : State} {i : Instr} (hclosed : s.aState.isOpen = false)
    (hi : i = .allocNext ∨ i = .allocEnd) : exec i s = .next (refuse s) := by
  cases hf : s.flag .fatal with
  | true => exact exec_of_fatal hf (by rintro rfl; simp at hi) (by rintro rfl; simp at hi)
  | false =>
    rw [exec_of_clear i hf]
    rcases hi with rfl | rfl
    · simp [commandEffect, allocNext, hclosed]
    · simp [commandEffect, allocEnd, hclosed]

/-- Settles O39. -/
theorem closedPassRefusesAllocator : Obligations.ClosedPassRefusesAllocator := by
  intro s i hclosed hi
  exact ⟨refuse s, exec_of_closed (AState.isOpen_eq_false.2 hclosed) hi, get_status_refuse s, Unchanged.refuse s⟩

/-- In an open pass ALLOC_END sets A_STATE to DONE (R83). -/
theorem exec_allocEnd_of_open {s : State} (hf : s.flag .fatal = false) (hopen : s.aState.isOpen = true) :
    exec .allocEnd s = .next (s.setAState .done) := by
  rw [exec_of_clear .allocEnd hf]
  simp [commandEffect, allocEnd, hopen]

/-- Settles O40: A_STATE is the two lowest bits of ASTAT, and a bit from 32 on is 0 before and after. -/
theorem allocEndClosesPass : Obligations.AllocEndClosesPass := by
  refine ⟨by decide, fun s hf => ⟨fun hopen => ?_, fun hclosed => ?_⟩⟩
  · refine ⟨s.setAState .done, exec_allocEnd_of_open hf (AState.isOpen_iff.2 hopen), aState_setAState s .done,
      fun k hk => ?_, Unchanged.set s .astat _⟩
    rw [State.setAState, get_set_self]
    by_cases hk32 : k < 32
    · exact getLsbD_setField_outside _ _ _ _ hk32 (.inr hk)
    · rw [BitVec.getLsbD_of_ge _ _ (by omega), BitVec.getLsbD_of_ge _ _ (by omega)]
  · exact closedPassRefusesAllocator s .allocEnd hclosed (.inr rfl)

/-- The record of a failing ALLOC_NEXT bears the class CapacityExceeded (R141). -/
theorem errClass_allocFail (s : State) (f : CapacityFailure) : errClass (allocFail s f) = 3#3 := by
  have hcode : (allocFail s f).get .errCode = errCodeWord .capacityExceeded f.cause s.ctrlId :=
    get_allocFail s f .errCode
  have h1 := s.ctrlId.isLt
  have h2 := f.cause.code.isLt
  apply BitVec.eq_of_toNat_eq
  rw [errClass, hcode, errCodeWord_eq, toNat_field, BitVec.toNat_ofNat]
  simp only [ErrClass.code, BitVec.toNat_ofNat]
  omega

/-- ALLOC_NEXT from an open pass (R76): it fails and closes the pass, or it assigns a slot and A_STATE follows the
cursor. -/
theorem transition_allocNext {s t : State} (hinv : WindowInv s) (hf : s.flag .fatal = false)
    (hopen : s.aState.isOpen = true) (he : exec .allocNext s = .next t) :
    (t.flag .fatal = true ∧ errClass t = 3#3 ∧ t.aState = .regionExhausted) ∨
      (t.flag .fatal = false ∧ t.flag .avalid = true ∧
        t.aState = if (t.cursor - s.cfg.mbBase) % s.cfg.regionSize = 0 then .atRegionStart else .withinRegion) := by
  rcases exec_allocNext_cases hf hopen he with ⟨hft, f, _, rfl⟩ | ⟨hft, p, hp, rfl⟩
  · exact .inl ⟨hft, errClass_allocFail s f, aState_allocFail s f⟩
  · obtain ⟨hbase, _⟩ := hinv.pass hopen
    obtain ⟨_, _, _, hcursor, _⟩ := allocAssign_numbers hinv.parameters hbase hp
    refine .inr ⟨hft, by simp [flag_allocAssign], ?_⟩
    rw [hcursor]
    exact aState_allocAssign s p

theorem aState_refuse (s : State) : (refuse s).aState = s.aState := by
  rw [State.aState, State.aState, get_refuse s _ (by decide)]

/-- Only the three commands of a pass write ASTAT (R56). -/
theorem aState_commandEffect {i : Instr} {s : State} (hi : Reg.astat ∉ commandWrites i) :
    (commandEffect i s).aState = s.aState := by
  rw [State.aState, State.aState, get_commandEffect i s (by simp [hi])]

/-- Settles O41, one command of the state machine after another. -/
theorem allocatorTransitions : Obligations.AllocatorTransitions := by
  intro i s hinv hf
  obtain ⟨t, ht⟩ := exec_next i s
  have hrefused (hi : i = .allocNext ∨ i = .allocEnd) (hclosed : s.aState.isOpen = false) :
      t.aState = s.aState ∧ t.flag .cmderr = true := by
    rw [exec_of_closed hclosed hi] at ht
    obtain rfl := Host.Outcome.next.inj ht
    exact ⟨aState_refuse s, by simp [refuse]⟩
  refine ⟨t, ht, ?_, ?_, ?_, ?_⟩
  · rintro keepmax rfl
    rw [exec_of_clear _ hf] at ht
    obtain rfl := Host.Outcome.next.inj ht
    have hastat : (allocBegin keepmax s).get .astat = astatOpened := get_allocBegin s keepmax .astat
    show (allocBegin keepmax s).aState = .atRegionStart
    rw [State.aState, hastat]
    rfl
  · rintro rfl
    exact ⟨hrefused (.inl rfl), fun hopen => transition_allocNext hinv hf hopen ht⟩
  · rintro rfl
    refine ⟨hrefused (.inr rfl), fun hopen => ?_⟩
    rw [exec_allocEnd_of_open hf hopen] at ht
    obtain rfl := Host.Outcome.next.inj ht
    exact aState_setAState s .done
  · intro hbegin hnext hend
    rw [exec_of_clear i hf] at ht
    obtain rfl := Host.Outcome.next.inj ht
    apply aState_commandEffect
    cases i
    case allocBegin keepmax => exact absurd rfl (hbegin keepmax)
    case allocNext => exact absurd rfl hnext
    case allocEnd => exact absurd rfl hend
    all_goals decide

/-! ### Why a placement fails (O38) -/

/-- Settles O38, along the four cases of `place_cases`. -/
theorem capacityCausesAreJustified : Obligations.CapacityCausesAreJustified := by
  intro e c f hplace beyond rem
  have hbeyond {q : Nat} (h : regionOk e q = false) : beyond q := regionOk_eq_false_iff.1 h
  have hwithin {q : Nat} (h : regionOk e q = true) : ¬beyond q := by
    intro hb
    rw [regionOk_eq_false_iff.2 hb] at h
    cases h
  rcases place_cases e c with ⟨hr, he⟩ | ⟨hr, hrem, hr', he⟩ | ⟨hr, hrem, hr', he⟩ | ⟨hr, hrem, he⟩ <;>
    rw [hplace] at he
  · cases he
    exact ⟨region e c, c, .inl ⟨rfl, rfl, .inl (hbeyond hr)⟩, .inl ⟨rfl, hbeyond hr, rfl, rfl⟩⟩
  · cases he
    exact ⟨region e c + 1, _, .inr ⟨rfl, rfl, hwithin hr, hrem⟩, .inl ⟨rfl, hbeyond hr', rfl, rfl⟩⟩
  · refine ⟨region e c + 1, _, .inr ⟨rfl, rfl, hwithin hr, hrem⟩, ?_⟩
    rcases placeAt_error.1 he.symm with ⟨hmem, rfl⟩ | ⟨hmem, hcount, rfl⟩
    · exact .inr (.inl ⟨rfl, hwithin hr', hmem, rfl, rfl⟩)
    · exact .inr (.inr ⟨rfl, hwithin hr', hmem, hcount, rfl, rfl⟩)
  · refine ⟨region e c, c, .inl ⟨rfl, rfl, .inr hrem⟩, ?_⟩
    rcases placeAt_error.1 he.symm with ⟨hmem, rfl⟩ | ⟨hmem, hcount, rfl⟩
    · exact .inr (.inl ⟨rfl, hwithin hr, hmem, rfl, rfl⟩)
    · exact .inr (.inr ⟨rfl, hwithin hr, hmem, hcount, rfl, rfl⟩)

/-! ### A classic controller in numbers (O36) -/

/-- The offset of the slot a 16-byte placement takes from the offset `o`: `o`, or the start of the next region where
fewer than 16 bytes of the region remain (R78). -/
def classicOffset (size o : Nat) : Nat := if size - o % size < 16 then (o / size + 1) * size else o

/-- The index of a 16-byte slot at the offset `a` (R79). -/
def classicIndex (size a : Nat) : Nat := a / size * (size / 16) + a % size / 16

section
variable {e : AllocEnv}

/-- Without CAN-FD every payload is 8 bytes (R77). -/
theorem payload_classic (h : e.fdEn = false) (r : Nat) : payload e r = 8 := by simp [payload, h]

theorem need_classic (h : e.fdEn = false) (r : Nat) : need e r = 16 := by rw [need_payload, payload_classic h]

theorem regionOk_classic (h : e.fdEn = false) (r : Nat) : regionOk e r = true := by simp [regionOk, h]

theorem before_classic (h : e.fdEn = false) (r : Nat) : before e r = r * (e.cfg.regionSize / 16) := by
  simp [before_eq_sum, slots, need_classic h]

theorem index_classic (h : e.fdEn = false) (a : Nat) :
    index e (e.cfg.mbBase + a) = classicIndex e.cfg.regionSize a := by
  have hoff : off e (e.cfg.mbBase + a) = a := Nat.add_sub_cancel_left _ _
  rw [index_eq (Nat.le_add_right _ _), need_classic h, before_classic h, region, hoff, classicIndex]

/-- A placement of a classic controller within MEM_SIZE and HW_MAX_MB (R78). -/
theorem place_classic (h : e.fdEn = false) {c a : Nat} (hc : e.cfg.mbBase ≤ c)
    (ha : classicOffset e.cfg.regionSize (c - e.cfg.mbBase) = a) (hmem : a + 16 ≤ e.memSize)
    (hcount : classicIndex e.cfg.regionSize a + 1 ≤ e.hwMaxMb) :
    place e c =
      .ok ⟨e.cfg.mbBase + a, classicIndex e.cfg.regionSize a, 8, e.cfg.mbBase + a + 16⟩ := by
  have hoff : off e (e.cfg.mbBase + a) = a := Nat.add_sub_cancel_left _ _
  -- wherever the slot is tried, it is tried at `a`
  have hplace : ∃ r, place e c = placeAt e r (e.cfg.mbBase + a) := by
    unfold classicOffset at ha
    rcases place_cases e c with ⟨hr, _⟩ | ⟨_, _, hr, _⟩ | ⟨_, hrem, _, he⟩ | ⟨_, hrem, he⟩
    · simp [regionOk_classic h] at hr
    · simp [regionOk_classic h] at hr
    · rw [need_classic h, off] at hrem
      rw [if_pos hrem] at ha
      exact ⟨_, by rw [he, ← ha]; rfl⟩
    · rw [need_classic h, off] at hrem
      rw [if_neg (by omega)] at ha
      exact ⟨_, by rw [he, ← ha, Nat.add_sub_cancel' hc]⟩
  obtain ⟨r, hr⟩ := hplace
  rw [hr, placeAt_ok, hoff, need_classic h, payload_classic h, index_classic h]
  exact ⟨hmem, hcount, rfl⟩

end

/-- Settles O36: `place_classic` at the cursor, as the one placement of the command. -/
theorem allocNextClassicController : Obligations.AllocNextClassicController := by
  intro s base size o a index hw hf hopen hbase hfd hfirst hmem hcount
  have hp : placeMany s.allocEnv (reservedSlots s) s.cursor = .ok ⟨base + a, index, 8, base + a + 16⟩ := by
    have hnone : reservedSlots s = 0 := by rcases hfirst with h | h <;> simp [reservedSlots, h]
    rw [hnone, placeMany_zero]
    exact place_classic (e := s.allocEnv) hfd hbase rfl hmem hcount
  obtain ⟨haddress, hindex, hplen, hcursor, _⟩ := allocAssign_numbers hw hbase hp
  exact ⟨_, exec_allocNext_of_ok hf (AState.isOpen_iff.2 hopen) hp, haddress, hindex, hplen, hcursor,
    by simp [flag_allocAssign]⟩

/-! ### Where slots lie (O42, O43) -/

/-- Where an assigned slot lies, in the numbers its registers show: above the old cursor, up to the new one, and within
one region (R86, R87). -/
theorem assigned_slot {s : State} (hinv : WindowInv s) (hopen : s.aState.isOpen = true) {p : Slot}
    (hp : placeMany s.allocEnv (reservedSlots s) s.cursor = .ok p) :
    s.cfg.mbBase ≤ s.cursor ∧ s.cursor ≤ ((allocAssign s p).get .aaddr).toNat ∧
      (allocAssign s p).cursor =
        ((allocAssign s p).get .aaddr).toNat + (8 + (field ((allocAssign s p).get .aidx) 16 8).toNat) ∧
      (((allocAssign s p).get .aaddr).toNat - s.cfg.mbBase) % s.cfg.regionSize +
        (8 + (field ((allocAssign s p).get .aidx) 16 8).toNat) ≤ s.cfg.regionSize := by
  obtain ⟨hbase, _⟩ := hinv.pass hopen
  obtain ⟨haddress, _, hplen, hcursor, d, hd, hplaced⟩ := allocAssign_numbers hinv.parameters hbase hp
  rw [haddress, hcursor, hplen, hplaced.plen, ← need_payload]
  exact ⟨hbase, hd.trans hplaced.above, hplaced.next, hplaced.fits⟩

/-- Settles O42. -/
theorem slotsNeverStraddleRegions : Obligations.SlotsNeverStraddleRegions := by
  refine ⟨?_, ?_, ?_⟩
  · intro e c p hw hc hp
    have hplaced := place_ok hw hc hp
    rw [hplaced.plen, ← need_payload]
    exact hplaced.fits
  · intro e hbase hsize hfd hmem hcount
    have hp := place_classic (c := 0x27C) (a := 512) hfd (by omega) (by rw [hbase, hsize]; decide) hmem
      (by rw [hsize]; exact hcount)
    rw [hp, hbase, hsize]
    rfl
  · intro s t hinv hf hopen he hft
    have hopen' := AState.isOpen_iff.2 hopen
    obtain ⟨p, hp, rfl⟩ := exec_allocNext_assigned hf hopen' he hft
    obtain ⟨hbase, hcursor, _, hfits⟩ := assigned_slot hinv hopen' hp
    exact ⟨hbase.trans hcursor, hfits⟩

/-- Settles O43: a failing ALLOC_NEXT leaves the cursor, an assigning one puts it behind its slot. -/
theorem addressesIncreaseWithinPass : Obligations.AddressesIncreaseWithinPass := by
  intro s t hinv hf hopen he
  have hopen' := AState.isOpen_iff.2 hopen
  rcases exec_allocNext_cases hf hopen' he with ⟨hft, f, _, rfl⟩ | ⟨_, p, hp, rfl⟩
  · have hacur : (allocFail s f).get .acur = s.get .acur := get_allocFail s f .acur
    refine ⟨?_, fun hft' => by simp [hft] at hft'⟩
    rw [State.cursor, State.cursor, hacur]
  · obtain ⟨_, hcursor, hbehind, _⟩ := assigned_slot hinv hopen' hp
    exact ⟨by omega, fun _ => ⟨hcursor, hbehind⟩⟩

end Sys2Proof.Proofs

/-! ## MAP_INDEX, and a pass from its start (O44, O46, O47) -/

namespace Sys2Proof.Proofs

open Sys2Proof Sys2Proof.Machine Sys2Proof.Laws

/-! ### MAP_INDEX (O46) -/

section
variable {e : AllocEnv}

/-- No slot is shorter than 16 bytes, so the regions before `r` hold at most one per 16 bytes (R79). -/
theorem before_le (e : AllocEnv) (r : Nat) : 16 * before e r ≤ r * e.cfg.regionSize := by
  induction r with
  | zero => simp [before]
  | succ r ih =>
    have hslots : 16 * slots e r ≤ e.cfg.regionSize :=
      (Nat.mul_le_mul_right _ (need_bounds e r).1).trans (Nat.mul_div_le _ _)
    rw [before, Nat.add_mul, Nat.mul_add]
    omega

/-- The index of an address is at most a sixteenth of its offset. -/
theorem mapped_index_le (e : AllocEnv) (a : Nat) :
    16 * (before e (region e a) + off e a % e.cfg.regionSize / need e (region e a)) ≤ off e a := by
  have hbefore := before_le e (region e a)
  have hin : 16 * (off e a % e.cfg.regionSize / need e (region e a)) ≤ off e a % e.cfg.regionSize :=
    (Nat.mul_le_mul_right _ (need_bounds e _).1).trans (Nat.mul_div_le _ _)
  have hsplit : region e a * e.cfg.regionSize + off e a % e.cfg.regionSize = off e a := Nat.div_add_mod' _ _
  omega

/-- The fields of MAPOUT as numbers, for an address MAPIN can hold (R84, R36). -/
theorem mapoutWord_numbers {a : Nat} (hfit : a < 2 ^ 17) (ha : e.cfg.mbBase ≤ a) (hr : regionOk e (region e a) = true) :
    (field (mapoutWord e a) 0 16).toNat = before e (region e a) + off e a % e.cfg.regionSize / need e (region e a) ∧
      (field (mapoutWord e a) 16 8).toNat = payload e (region e a) ∧ field (mapoutWord e a) 24 7 = 0#7 ∧
      ((mapoutWord e a).getLsbD 31 = true ↔ off e a % e.cfg.regionSize % need e (region e a) = 0 ∧
        off e a % e.cfg.regionSize + need e (region e a) ≤ e.cfg.regionSize) := by
  obtain ⟨hindex, hplen, hzero, hvalid⟩ := mapoutWord_fields ha hr
  have hle := mapped_index_le e a
  have hoff : off e a ≤ a := Nat.sub_le _ _
  have hlen := payload_cases e (region e a)
  refine ⟨?_, ?_, hzero, by rw [hvalid, Bool.and_eq_true, decide_eq_true_eq, decide_eq_true_eq]⟩
  · rw [hindex, BitVec.toNat_ofNat, Nat.mod_eq_of_lt (by omega)]
  · rw [hplen, BitVec.toNat_ofNat, Nat.mod_eq_of_lt (by omega)]

end

/-- The payload of a region, as R77 writes it over the fields of FEAT and ACFG. -/
theorem payload_allocEnv (s : State) (q : Nat) :
    payload s.allocEnv q =
      if s.fdEn = true then
        8 * 2 ^ (if s.fdEn = true ∧ s.perRegion = true then
          (if q = 0 then s.rpl0 else if q = 1 then s.rpl1 else s.rpl2) else s.gpl).toNat
      else 8 := by
  cases hfd : s.fdEn <;> cases hper : s.perRegion <;> simp [payload, plen, rplCode, State.allocEnv, hfd, hper]

/-- Settles O46. -/
theorem mapIndexComputes : Obligations.MapIndexComputes := by
  intro s hf base size a r o perRegion code payloadOf n
  have hmapout : (mapIndex s).get .mapout = mapoutWord s.allocEnv a := get_set_self s .mapout _
  have hpayload (q : Nat) : payload s.allocEnv q = payloadOf q := payload_allocEnv s q
  have hneed (q : Nat) : need s.allocEnv q = 8 + payloadOf q := by rw [need_payload, hpayload]
  have hok : regionOk s.allocEnv r = false ↔ perRegion ∧ s.cfg.numRegions.val ≤ r := by
    rw [regionOk_eq_false_iff, ← and_assoc]
    rfl
  refine ⟨mapIndex s, exec_of_clear .mapIndex hf, Unchanged.set s .mapout _, ?_, ?_⟩
  · intro hunmapped
    rw [hmapout]
    exact mapoutWord_of_unmapped (hunmapped.imp id hok.2)
  · intro hmapped
    obtain ⟨hbase, hregion⟩ := not_or.1 hmapped
    have hr : regionOk s.allocEnv (region s.allocEnv a) = true := by
      rw [← Bool.not_eq_false]
      exact fun h => hregion (hok.1 h)
    obtain ⟨hindex, hplen, hzero, hvalid⟩ :=
      mapoutWord_numbers (e := s.allocEnv) (a := a) (field (s.get .mapin) 0 17).isLt (Nat.not_lt.1 hbase) hr
    rw [hmapout, hindex, hplen, hvalid, before_eq_sum, hneed]
    simp only [slots, hneed, hpayload]
    exact ⟨rfl, rfl, hzero, Iff.rfl⟩

/-! ### A pass from its start (O44, O47) -/

section
variable {s t u : State}

/-- Under a fatal error a run of ALLOC_NEXT changes nothing but CMDERR; FATAL stays set (R147). -/
theorem fatal_execAll_allocNext {n : Nat} (hf : s.flag .fatal = true)
    (he : execAll (List.replicate n .allocNext) s = .next t) : t.flag .fatal = true := by
  induction n generalizing s with
  | zero =>
    obtain rfl := Host.Outcome.next.inj he
    exact hf
  | succ n ih =>
    rw [List.replicate_succ, execAll, exec_of_fatal hf (by decide) (by decide)] at he
    exact ih (by simp [refuse, hf]) he

/-- The state after the slot `p` was assigned in a pass that began with the environment `e` and `nRes` reserved slots:
`p` is its object number `k`, counted from 0. -/
structure AfterSlot (e : AllocEnv) (nRes k : Nat) (p : Slot) (u : State) : Prop where
  env : u.allocEnv = e
  fatal : u.flag .fatal = false
  isOpen : u.aState.isOpen = true
  first : u.first = false
  avalid : u.flag .avalid = true
  onGrid : OnGrid e p.address
  placed : ∃ d, Placed e d p
  index : p.index = nRes + k
  aaddr : (u.get .aaddr).toNat = p.address
  aidx : u.get .aidx = aidxWord p
  idx : (field (u.get .aidx) 0 16).toNat = p.index
  cursor : u.cursor = p.next
  cursorOnGrid : OnGrid e p.next
  cursorIndex : Machine.index e p.next = p.index + 1
  maxMb : u.maxMb = p.index + 1
  firstUser : (field (u.get .astat) 8 8).toNat = nRes

theorem isOpen_stateAfter (e : AllocEnv) (next : Nat) : (stateAfter e next).isOpen = true := by
  unfold stateAfter
  split <;> rfl

/-- One ALLOC_NEXT of the pass, the first one or a later one: the cursor's index is the number `m` of the slots before,
and AMAX is at most that. -/
theorem afterSlot_assigned {e : AllocEnv} {nRes k m : Nat} {p : Slot} (hw : e.cfg.wf = true) (henv : u.allocEnv = e)
    (hf : u.flag .fatal = false) (hc : OnGrid e u.cursor) (hm : Machine.index e u.cursor = m) (hmax : u.maxMb ≤ m)
    (hp : placeMany u.allocEnv (reservedSlots u) u.cursor = .ok p) (hk : m + reservedSlots u = nRes + k)
    (huser : (if u.first then nRes + k else (field (u.get .astat) 8 8).toNat) = nRes) :
    AfterSlot e nRes k p (allocAssign u p) := by
  subst henv
  obtain ⟨hindex, hgrid, hnext, hbehind, _⟩ := placeMany_slot hw hc hp
  obtain ⟨haddress, hidx, _, hcursor, d, _, hplaced⟩ := allocAssign_numbers hw hc.1 hp
  obtain ⟨hfit, _⟩ := placeMany_fits hp
  have hcount : p.index = nRes + k := by omega
  exact
    { env := allocEnv_allocAssign u p
      fatal := by simp [flag_allocAssign, hf]
      isOpen := by rw [aState_allocAssign, isOpen_stateAfter]
      first := first_allocAssign u p
      avalid := by simp [flag_allocAssign]
      onGrid := hgrid
      placed := ⟨d, hplaced⟩
      index := hcount
      aaddr := haddress
      aidx := get_allocAssign u p .aidx
      idx := hidx
      cursor := hcursor
      cursorOnGrid := hnext
      cursorIndex := hbehind
      maxMb := by rw [maxMb_allocAssign p (by omega)]; omega
      firstUser := by rw [firstUser_allocAssign u (by omega), hcount, huser] }

/-- The first ALLOC_NEXT of a pass takes the slot behind the reserved ones (R80). -/
theorem afterSlot_first (hw : s.cfg.wf = true) (hf : s.flag .fatal = false)
    (he : exec .allocNext (allocBegin false s) = .next t) (hft : t.flag .fatal = false) :
    ∃ p, AfterSlot s.allocEnv (if s.fifoEn then s.filterCount / 4 + 6 else 0) 0 p t := by
  have henv := allocEnv_allocBegin false s
  have hcursor := cursor_allocBegin hw false
  have hf' : (allocBegin false s).flag .fatal = false :=
    (flag_commandEffect (f := .fatal) (.allocBegin false) s (by decide) (by decide)).trans hf
  have hastat : (allocBegin false s).get .astat = astatOpened := get_allocBegin s false .astat
  have hstate : (allocBegin false s).aState = .atRegionStart := by rw [State.aState, hastat]; rfl
  have hfirst : (allocBegin false s).first = true := by rw [State.first, hastat]; rfl
  have hmax : (allocBegin false s).maxMb = 0 := by
    have hamax : (allocBegin false s).get .amax = 0#32 := get_allocBegin s false .amax
    rw [State.maxMb, hamax]
    rfl
  have hreserved : reservedSlots (allocBegin false s) = if s.fifoEn then s.filterCount / 4 + 6 else 0 := by
    have hfeat : (allocBegin false s).get .feat = s.get .feat := get_allocBegin s false .feat
    have hacfg : (allocBegin false s).get .acfg = s.get .acfg := get_allocBegin s false .acfg
    simp [reservedSlots, hfirst, State.fifoEn, State.filterCount, hfeat, hacfg]
  obtain ⟨p, hp, rfl⟩ := exec_allocNext_assigned hf' (by rw [hstate]; rfl) he hft
  refine ⟨p, afterSlot_assigned (m := 0) hw henv hf' ?_ ?_ (by omega) hp (by omega) (by rw [hfirst]; rfl)⟩
  · rw [hcursor]; exact onGrid_base s.allocEnv
  · rw [hcursor]; exact index_base s.allocEnv

/-- A later ALLOC_NEXT of a pass takes the next index and reserves nothing. -/
theorem AfterSlot.next {e : AllocEnv} {nRes k : Nat} {p : Slot} (hw : e.cfg.wf = true) (h : AfterSlot e nRes k p u)
    (he : exec .allocNext u = .next t) (hft : t.flag .fatal = false) : ∃ q, AfterSlot e nRes (k + 1) q t := by
  have hreserved : reservedSlots u = 0 := by simp [reservedSlots, h.first]
  have hindex := h.index
  obtain ⟨q, hq, rfl⟩ := exec_allocNext_assigned h.fatal h.isOpen he hft
  refine ⟨q, afterSlot_assigned (m := p.index + 1) hw h.env h.fatal ?_ ?_ h.maxMb.le hq (by omega) ?_⟩
  · rw [h.cursor]; exact h.cursorOnGrid
  · rw [h.cursor]; exact h.cursorIndex
  · rw [h.first]; exact h.firstUser

/-- The ALLOC_NEXT that follow, where none of them fails. -/
theorem AfterSlot.run {e : AllocEnv} {nRes k n : Nat} {p : Slot} (hw : e.cfg.wf = true) (h : AfterSlot e nRes k p u)
    (he : execAll (List.replicate n .allocNext) u = .next t) (hft : t.flag .fatal = false) :
    ∃ q, AfterSlot e nRes (k + n) q t := by
  induction n generalizing k p u with
  | zero =>
    obtain rfl := Host.Outcome.next.inj he
    exact ⟨p, h⟩
  | succ n ih =>
    obtain ⟨v, hv⟩ := exec_next .allocNext u
    rw [List.replicate_succ, execAll, hv] at he
    cases hfv : v.flag .fatal with
    | true => simp [fatal_execAll_allocNext hfv he] at hft
    | false =>
      obtain ⟨q, hq⟩ := h.next hw hv hfv
      rw [Nat.add_comm n 1, ← Nat.add_assoc]
      exact ih hq he

/-- A pass without KEEPMAX that assigns `n + 1` objects. -/
theorem afterSlot_passOf {n : Nat} (hw : s.cfg.wf = true) (hf : s.flag .fatal = false)
    (he : execAll (passOf false (n + 1)) s = .next t) (hft : t.flag .fatal = false) :
    ∃ p, AfterSlot s.allocEnv (if s.fifoEn then s.filterCount / 4 + 6 else 0) n p t := by
  obtain ⟨v, hv⟩ := exec_next .allocNext (allocBegin false s)
  rw [passOf, execAll, exec_of_clear _ hf, List.replicate_succ] at he
  change execAll (.allocNext :: List.replicate n .allocNext) (allocBegin false s) = .next t at he
  rw [execAll, hv] at he
  cases hfv : v.flag .fatal with
  | true => simp [fatal_execAll_allocNext hfv he] at hft
  | false =>
    obtain ⟨q, hq⟩ := afterSlot_first hw hf hv hfv
    obtain ⟨p, hp⟩ := hq.run (e := s.allocEnv) hw he hft
    rw [Nat.zero_add] at hp
    exact ⟨p, hp⟩

end

/-- Settles O44. -/
theorem indicesConsecutiveInPass : Obligations.IndicesConsecutiveInPass := by
  refine ⟨?_, ?_⟩
  · intro e k p hw hp
    obtain ⟨hindex, _⟩ := placeMany_slot hw (onGrid_base e) hp
    rw [hindex, index_base, Nat.zero_add]
  · intro s t n hw hf he hft
    obtain ⟨p, hp⟩ := afterSlot_passOf hw hf he hft
    rw [hp.idx, hp.maxMb, hp.index]
    exact ⟨rfl, rfl, hp.firstUser, hp.avalid⟩

/-- MAP_INDEX at the address of a slot on the grid gives its index and payload, and MVALID (R84 e). -/
theorem mapoutWord_of_slot {e : AllocEnv} {d : Nat} {p : Slot} (hp : Placed e d p) (hgrid : OnGrid e p.address) :
    mapoutWord e p.address = 0x80000000#32 ||| aidxWord p := by
  obtain ⟨hbase, hneed⟩ := hgrid
  have hstart : off e p.address % e.cfg.regionSize % need e (region e p.address) = 0 := Nat.mod_eq_zero_of_dvd hneed
  have hindex := hp.index
  rw [index_eq hbase] at hindex
  have hword : mapoutWord e p.address = 1#1 ++ 0#7 ++ BitVec.ofNat 8 p.plen ++ BitVec.ofNat 16 p.index := by
    have hn : ¬p.address < e.cfg.mbBase := by omega
    simp only [mapoutWord, hn, hp.regionOk, decide_false, Bool.not_true, Bool.or_self, Bool.false_eq_true, if_false,
      placed_plen, hstart, hp.fits, decide_true, Bool.and_self, ← hp.plen, ← hindex]
    rfl
  rw [hword]
  show _ = (1#1 ++ 0#7 ++ 0#8 ++ 0#16) ||| (0#1 ++ 0#7 ++ BitVec.ofNat 8 p.plen ++ BitVec.ofNat 16 p.index)
  simp only [BitVec.or_append, BitVec.zero_or, BitVec.or_zero]

/-- Settles O47: the slot of the pass's last ALLOC_NEXT stands on the grid. -/
theorem mapIndexAgreesWithAllocator : Obligations.MapIndexAgreesWithAllocator := by
  intro s t n hw hf he hft hfit
  obtain ⟨p, hp⟩ := afterSlot_passOf hw hf he hft
  obtain ⟨_, hplaced⟩ := hp.placed
  have hclear : (t.set .mapin (t.get .aaddr)).flag .fatal = false := by
    rw [flag_set _ _ _ _ (by decide)]
    exact hft
  have henv : (t.set .mapin (t.get .aaddr)).allocEnv = s.allocEnv :=
    (allocEnv_of_unchanged (Unchanged.set t .mapin _) (by decide)).trans hp.env
  have haddress : (t.set .mapin (t.get .aaddr)).mapAddr = p.address := by
    rw [State.mapAddr, get_set_self, toNat_field, ← hp.aaddr]
    omega
  refine ⟨_, exec_of_clear .mapIndex hclear, ?_⟩
  rw [hp.aidx, ← mapoutWord_of_slot hplaced hp.onGrid, ← henv, ← haddress]
  exact get_set_self _ .mapout _

end Sys2Proof.Proofs

/-! ## Two passes from the same inputs (O45) -/

namespace Sys2Proof.Proofs

open Sys2Proof Sys2Proof.Machine Sys2Proof.Laws

/-! ### AMAX as a running maximum (R85) -/

/-- AMAX after the count `k` was taken into its maximum. -/
def raiseMax (w : Word) (k : Nat) : Word := setField w 0 (BitVec.ofNat 16 (max (field w 0 16).toNat k))

theorem amax_allocAssign (s : State) (p : Slot) :
    (allocAssign s p).get .amax = raiseMax (s.get .amax) (p.index + 1) := get_allocAssign s p .amax

theorem setField_field (w : Word) (lo len : Nat) : setField w lo (field w lo len) = w := by
  apply BitVec.eq_of_getLsbD_eq
  intro i hi
  rw [getLsbD_setField _ _ _ _ hi]
  split
  · next h => rw [getLsbD_field, Nat.add_sub_cancel' h.1, decide_eq_true (by omega), Bool.true_and]
  · rfl

theorem setField_setField (w : Word) (lo : Nat) {len : Nat} (v v' : BitVec len) :
    setField (setField w lo v) lo v' = setField w lo v' := by
  apply BitVec.eq_of_getLsbD_eq
  intro i hi
  simp only [getLsbD_setField _ _ _ _ hi]
  split <;> rfl

theorem raiseMax_zero (w : Word) : raiseMax w 0 = w := by
  rw [raiseMax, Nat.max_zero, BitVec.ofNat_toNat, BitVec.setWidth_eq, setField_field]

theorem field_raiseMax (w : Word) {k : Nat} (hk : k < 65536) :
    (field (raiseMax w k) 0 16).toNat = max (field w 0 16).toNat k := by
  have hlt := (field w 0 16).isLt
  rw [raiseMax, field_setField_same _ _ _ (by decide), BitVec.toNat_ofNat]
  omega

theorem raiseMax_raiseMax (w : Word) {j : Nat} (hj : j < 65536) (k : Nat) :
    raiseMax (raiseMax w j) k = raiseMax w (max j k) := by
  conv_lhs => rw [raiseMax, field_raiseMax w hj]
  rw [raiseMax, raiseMax, setField_setField, Nat.max_assoc]

/-! ### Two passes, step by step -/

section
variable {m₁ m₂ : Word} {s₁ s₂ t₁ t₂ : State}

/-- Two states within two passes of the same inputs: they agree on what placements read, on the pass and on its errors,
and their AMAX has taken in the same counts since it held `m₁` and `m₂`. -/
structure SamePass (m₁ m₂ : Word) (s₁ s₂ : State) : Prop where
  cfg : s₁.cfg = s₂.cfg
  get : ∀ r ∈ [Reg.feat, .acfg, .alim, .aaddr, .aidx, .astat, .acur], s₁.get r = s₂.get r
  avalid : s₁.flag .avalid = s₂.flag .avalid
  fatal : s₁.flag .fatal = s₂.flag .fatal
  record : s₁.flag .fatal = true → ∀ r ∈ errorRegs, s₁.get r = s₂.get r
  amax : ∃ reached < 65536, s₁.get .amax = raiseMax m₁ reached ∧ s₂.get .amax = raiseMax m₂ reached

theorem SamePass.first (h : SamePass m₁ m₂ s₁ s₂) : s₁.first = s₂.first := by
  rw [State.first, State.first, h.get .astat (by decide)]

theorem SamePass.allocEnv (h : SamePass m₁ m₂ s₁ s₂) : s₁.allocEnv = s₂.allocEnv :=
  allocEnv_congr h.cfg (h.get .feat (by decide)) (h.get .acfg (by decide)) (h.get .alim (by decide))

/-- What ALLOC_NEXT places, and whether it is refused, is the same in both states. -/
theorem SamePass.placement (h : SamePass m₁ m₂ s₁ s₂) :
    s₁.aState = s₂.aState ∧ placeMany s₁.allocEnv (reservedSlots s₁) s₁.cursor =
      placeMany s₂.allocEnv (reservedSlots s₂) s₂.cursor := by
  have hfifo : s₁.fifoEn = s₂.fifoEn := by rw [State.fifoEn, State.fifoEn, h.get .feat (by decide)]
  have hfilters : s₁.filterCount = s₂.filterCount := by
    rw [State.filterCount, State.filterCount, h.get .acfg (by decide)]
  have hreserved : reservedSlots s₁ = reservedSlots s₂ := by
    rw [reservedSlots, reservedSlots, h.first, hfifo, hfilters]
  have hcursor : s₁.cursor = s₂.cursor := by rw [State.cursor, State.cursor, h.get .acur (by decide)]
  exact ⟨by rw [State.aState, State.aState, h.get .astat (by decide)], by rw [h.allocEnv, hreserved, hcursor]⟩

theorem SamePass.refuse (h : SamePass m₁ m₂ s₁ s₂) : SamePass m₁ m₂ (refuse s₁) (refuse s₂) where
  cfg := by simpa using h.cfg
  get r hr := by
    have hstatus : r ≠ .status := by rintro rfl; simp at hr
    rw [get_refuse s₁ r hstatus, get_refuse s₂ r hstatus, h.get r hr]
  avalid := by simpa [Machine.refuse] using h.avalid
  fatal := by simpa [Machine.refuse] using h.fatal
  record hf r hr := by
    have hstatus : r ≠ .status := by rintro rfl; simp [errorRegs] at hr
    rw [get_refuse s₁ r hstatus, get_refuse s₂ r hstatus]
    exact h.record (by simpa [Machine.refuse] using hf) r hr
  amax := by
    rw [get_refuse s₁ _ (by decide), get_refuse s₂ _ (by decide)]
    exact h.amax

theorem SamePass.allocFail (h : SamePass m₁ m₂ s₁ s₂) (f : CapacityFailure) :
    SamePass m₁ m₂ (allocFail s₁ f) (allocFail s₂ f) where
  cfg := by rw [(allocFail_own s₁ f).1, (allocFail_own s₂ f).1, h.cfg]
  get r hr := by
    have hacfg := h.get .acfg (by decide)
    have hastat := h.get .astat (by decide)
    have hstatus : r ≠ .status := by rintro rfl; simp at hr
    simp only [get_allocFail, State.ctrlId, hacfg, hastat, h.get r hr, hstatus, if_false]
  avalid := by simp [flag_allocFail]
  fatal := by simp [flag_allocFail]
  record _ r hr := by
    simp only [errorRegs, List.mem_cons, List.not_mem_nil, or_false] at hr
    rcases hr with rfl | rfl | rfl | rfl <;>
      simp [get_allocFail, State.ctrlId, h.get .acfg (by decide)]
  amax := by
    have hkept (s : State) : (Machine.allocFail s f).get .amax = s.get .amax := get_allocFail s f .amax
    rw [hkept, hkept]
    exact h.amax

theorem SamePass.allocAssign (h : SamePass m₁ m₂ s₁ s₂) (hf : s₁.flag .fatal = false) {p : Slot}
    (hp : p.index + 1 < 65536) : SamePass m₁ m₂ (allocAssign s₁ p) (allocAssign s₂ p) where
  cfg := by rw [(allocAssign_own s₁ p).1, (allocAssign_own s₂ p).1, h.cfg]
  get r hr := by
    have hword : astatAssigned s₁ p = astatAssigned s₂ p := by
      rw [astatAssigned, astatAssigned, h.first, h.allocEnv, h.get .astat (by decide)]
    have hstatus : r ≠ .status := by rintro rfl; simp at hr
    have hamax : r ≠ .amax := by rintro rfl; simp at hr
    simp only [get_allocAssign, hword, h.get r hr, hstatus, hamax, if_false]
  avalid := by simp [flag_allocAssign]
  fatal := by simpa [flag_allocAssign] using h.fatal
  record hf' := by simp [flag_allocAssign, hf] at hf'
  amax := by
    obtain ⟨reached, hlt, h₁, h₂⟩ := h.amax
    refine ⟨max reached (p.index + 1), by omega, ?_, ?_⟩
    · rw [amax_allocAssign, h₁, raiseMax_raiseMax _ hlt]
    · rw [amax_allocAssign, h₂, raiseMax_raiseMax _ hlt]

/-- One ALLOC_NEXT in each pass: both are refused, both fail alike, or both assign the same slot. -/
theorem SamePass.exec_allocNext (h : SamePass m₁ m₂ s₁ s₂) (he₁ : exec .allocNext s₁ = .next t₁)
    (he₂ : exec .allocNext s₂ = .next t₂) : SamePass m₁ m₂ t₁ t₂ := by
  obtain ⟨hstate, hplace⟩ := h.placement
  have both {u₁ u₂ : State} (hu₁ : exec .allocNext s₁ = .next u₁) (hu₂ : exec .allocNext s₂ = .next u₂)
      (hu : SamePass m₁ m₂ u₁ u₂) : SamePass m₁ m₂ t₁ t₂ := by
    obtain rfl := Host.Outcome.next.inj (he₁.symm.trans hu₁)
    obtain rfl := Host.Outcome.next.inj (he₂.symm.trans hu₂)
    exact hu
  cases hf : s₁.flag .fatal with
  | true =>
    exact both (exec_of_fatal hf (by decide) (by decide)) (exec_of_fatal (h.fatal ▸ hf) (by decide) (by decide))
      h.refuse
  | false =>
    have hf₂ : s₂.flag .fatal = false := h.fatal ▸ hf
    cases ho : s₁.aState.isOpen with
    | false => exact both (exec_of_closed ho (.inl rfl)) (exec_of_closed (hstate ▸ ho) (.inl rfl)) h.refuse
    | true =>
      have ho₂ : s₂.aState.isOpen = true := hstate ▸ ho
      cases hp : placeMany s₁.allocEnv (reservedSlots s₁) s₁.cursor with
      | error f =>
        exact both (exec_allocNext_of_error hf ho hp) (exec_allocNext_of_error hf₂ ho₂ (hplace ▸ hp)) (h.allocFail f)
      | ok p =>
        obtain ⟨hfit, _⟩ := placeMany_fits hp
        exact both (exec_allocNext_of_ok hf ho hp) (exec_allocNext_of_ok hf₂ ho₂ (hplace ▸ hp))
          (h.allocAssign hf (by omega))

/-- As many ALLOC_NEXT in each pass. -/
theorem SamePass.run (h : SamePass m₁ m₂ s₁ s₂) (n : Nat) :
    ∃ t₁ t₂, execAll (List.replicate n .allocNext) s₁ = .next t₁ ∧
      execAll (List.replicate n .allocNext) s₂ = .next t₂ ∧ SamePass m₁ m₂ t₁ t₂ := by
  induction n generalizing s₁ s₂ with
  | zero => exact ⟨s₁, s₂, rfl, rfl, h⟩
  | succ n ih =>
    obtain ⟨u₁, hu₁⟩ := exec_next .allocNext s₁
    obtain ⟨u₂, hu₂⟩ := exec_next .allocNext s₂
    obtain ⟨t₁, t₂, ht₁, ht₂, ht⟩ := ih (h.exec_allocNext hu₁ hu₂)
    refine ⟨t₁, t₂, ?_, ?_, ht⟩
    · rw [List.replicate_succ, execAll, hu₁]
      exact ht₁
    · rw [List.replicate_succ, execAll, hu₂]
      exact ht₂

/-- What AMAX holds at the start of a pass (R82). -/
def startMax (keepmax : Bool) (s : State) : Word := if keepmax then s.get .amax else 0#32

/-- Both passes begin alike, whatever the states before, but for the AMAX that KEEPMAX keeps. -/
theorem samePass_allocBegin (keepmax₁ keepmax₂ : Bool) (hf₁ : s₁.flag .fatal = false) (hf₂ : s₂.flag .fatal = false)
    (hcfg : s₁.cfg = s₂.cfg) (hget : ∀ r ∈ [Reg.feat, .acfg, .alim], s₁.get r = s₂.get r) :
    SamePass (startMax keepmax₁ s₁) (startMax keepmax₂ s₂) (allocBegin keepmax₁ s₁) (allocBegin keepmax₂ s₂) := by
  have hfatal (keepmax : Bool) {s : State} (hf : s.flag .fatal = false) :
      (allocBegin keepmax s).flag .fatal = false :=
    (flag_commandEffect (f := .fatal) (.allocBegin keepmax) s (by decide +revert) (by decide +revert)).trans hf
  have hamax (keepmax : Bool) (s : State) :
      (allocBegin keepmax s).get .amax = raiseMax (startMax keepmax s) 0 := by
    rw [raiseMax_zero]
    exact get_allocBegin s keepmax .amax
  exact
    { cfg := by rw [(allocBegin_own s₁ keepmax₁).1, (allocBegin_own s₂ keepmax₂).1, hcfg]
      get := by
        intro r hr
        simp only [List.mem_cons, List.not_mem_nil, or_false] at hr
        rcases hr with rfl | rfl | rfl | rfl | rfl | rfl | rfl <;> simp [get_allocBegin, hcfg, hget]
      avalid := by rw [flag_avalid_allocBegin, flag_avalid_allocBegin]
      fatal := by rw [hfatal _ hf₁, hfatal _ hf₂]
      record := fun hf => by simp [hfatal _ hf₁] at hf
      amax := ⟨0, by decide, hamax keepmax₁ s₁, hamax keepmax₂ s₂⟩ }

end

/-- Settles O45: the passes begin alike and go on alike; their AMAX has taken in the same counts, from 0 or from what it
held. -/
theorem samePassTwice : Obligations.SamePassTwice := by
  intro s₁ s₂ keepmax₁ keepmax₂ n hf₁ hf₂ hcfg hget
  obtain ⟨t₁, t₂, ht₁, ht₂, h⟩ := (samePass_allocBegin keepmax₁ keepmax₂ hf₁ hf₂ hcfg hget).run n
  obtain ⟨reached, hlt, hmax₁, hmax₂⟩ := h.amax
  have hpass (keepmax : Bool) {s t : State} (hf : s.flag .fatal = false)
      (ht : execAll (List.replicate n .allocNext) (allocBegin keepmax s) = .next t) :
      execAll (passOf keepmax n) s = .next t := by
    rw [passOf, execAll, exec_of_clear _ hf]
    exact ht
  refine ⟨t₁, t₂, hpass keepmax₁ hf₁ ht₁, hpass keepmax₂ hf₂ ht₂, fun r hr => h.get r (by decide +revert), h.avalid,
    h.fatal, h.record, ?_, ?_, ?_⟩
  · rintro rfl rfl
    rw [hmax₁, hmax₂]
    rfl
  · rintro rfl rfl
    rw [State.maxMb, State.maxMb, State.maxMb, hmax₁, hmax₂, field_raiseMax _ hlt, field_raiseMax _ hlt]
    show max s₂.maxMb reached = max s₂.maxMb (max 0 reached)
    rw [Nat.zero_max]
  · rintro rfl rfl hheld
    have hstart : startMax true s₂ = raiseMax (startMax false s₁) reached := hheld.trans hmax₁
    rw [hmax₁, hmax₂, hstart, raiseMax_raiseMax _ hlt, Nat.max_self]

end Sys2Proof.Proofs

/-! ## The ordering comparator and the filter encoder (O48 to O52) -/

namespace Sys2Proof.Proofs

open Sys2Proof Sys2Proof.Machine Sys2Proof.Laws

/-! ### The order of keys as an order of numbers (spec/43_order_filter.md R120 to R122) -/

/-- A key as one number, TYPE above CTRL above MSGID: the lexicographic order of R121 is the order of these numbers,
since each part fits the room below the next one. -/
def keyNumber (k : Key) : Nat := k.type * 2 ^ 40 + k.ctrl.toNat * 2 ^ 32 + k.msgId.toNat

section
variable (a b : Key)

theorem lt_iff_keyNumber_lt : a.lt b = true ↔ keyNumber a < keyNumber b := by
  simp only [Key.lt, keyNumber, Bool.or_eq_true, Bool.and_eq_true, decide_eq_true_eq, ← BitVec.toNat_inj]
  omega

theorem eq_iff_keyNumber_eq : a.eq b = true ↔ keyNumber a = keyNumber b := by
  simp only [Key.eq, keyNumber, Bool.and_eq_true, decide_eq_true_eq, ← BitVec.toNat_inj]
  omega

/-- R121 in numbers. -/
theorem ordWord_eq_compare :
    ordWord a b =
      if keyNumber a < keyNumber b then 3#32 else if keyNumber a = keyNumber b then 5#32 else 0#32 := by
  simp only [ordWord_eq, lt_iff_keyNumber_lt, eq_iff_keyNumber_eq]

theorem type_lt_iff : a.type < b.type ↔ a.transmit = false ∧ b.transmit = true := by
  cases ha : a.transmit <;> cases hb : b.transmit <;> simp [Key.type, ha, hb]

theorem type_eq_iff : a.type = b.type ↔ a.transmit = b.transmit := by
  cases ha : a.transmit <;> cases hb : b.transmit <;> simp [Key.type, ha, hb]

/-- The order of the numbers part by part, RECEIVE before TRANSMIT (R122). -/
theorem keyNumber_le_iff :
    keyNumber a ≤ keyNumber b ↔
      (a.transmit = false ∧ b.transmit = true) ∨
      (a.transmit = b.transmit ∧ a.ctrl.toNat < b.ctrl.toNat) ∨
      (a.transmit = b.transmit ∧ a.ctrl = b.ctrl ∧ a.msgId.toNat ≤ b.msgId.toNat) := by
  rw [← type_lt_iff, ← type_eq_iff, ← BitVec.toNat_inj, keyNumber, keyNumber]
  omega

/-- The bit LE of ORD (R122). -/
theorem ordLe_iff_keyNumber_le : (ordWord a b).getLsbD 0 = true ↔ keyNumber a ≤ keyNumber b := by
  rw [ordWord_eq_compare]
  split
  · exact iff_of_true (by decide) (by omega)
  · split
    · exact iff_of_true (by decide) (by omega)
    · exact iff_of_false (by decide) (by omega)

end

/-- The number of the key two registers hold (R37). -/
theorem keyNumber_ofWords (tc id : Word) :
    keyNumber (Key.ofWords tc id) = (tc.toNat % 2) * 2 ^ 40 + (tc.toNat / 2 ^ 8 % 2 ^ 8) * 2 ^ 32 + id.toNat := by
  have htype : (Key.ofWords tc id).type = tc.toNat % 2 := by
    rw [Key.type, Key.ofWords, BitVec.getLsbD, Nat.testBit_zero]
    rcases Nat.mod_two_eq_zero_or_one tc.toNat with h | h <;> simp [h]
  rw [keyNumber, htype]
  simp only [Key.ofWords, toNat_field]

/-- Settles O48: the numbers of the statement are those of the two keys. -/
theorem ordCmpComparesKeys : Obligations.OrdCmpComparesKeys := by
  refine ⟨by decide, fun s hf => ⟨ordCmp s, exec_of_clear .ordCmp hf, ?_, Unchanged.set s .ord _⟩⟩
  rw [ordCmp, get_set_self, ordWord_eq_compare, State.keyA, State.keyB, keyNumber_ofWords, keyNumber_ofWords]

/-- Settles O49: LE is the order of the keys' numbers, which is transitive. -/
theorem canonicalOrderIsPairwise : Obligations.CanonicalOrderIsPairwise := by
  intro keys
  simp only [ordLe_iff_keyNumber_le]
  refine ⟨?_, keyNumber_le_iff⟩
  rw [← List.isChain_map (R := (· ≤ ·)) keyNumber, List.isChain_iff_pairwise, List.pairwise_map]

/-! ### FLT_BEGIN, FLT_ENC and FLT_END (R123 to R130) -/

/-- Settles O50. -/
theorem fltBeginClearsCount : Obligations.FltBeginClearsCount := by
  refine ⟨by decide, fun s hf => ?_⟩
  exact ⟨fltBegin s, exec_of_clear .fltBegin hf, get_set_self s .fltCnt _, Unchanged.set s .fltCnt _⟩

/-- The acceptance mode by its code as a number (R39). -/
theorem fltMode_of_code {s : State} {k : Nat} (h : (s.get .fltcfg).toNat % 4 = k) :
    s.fltMode = AcceptMode.ofCode (BitVec.ofNat 2 k) := by
  have hfield : field (s.get .fltcfg) 0 2 = BitVec.ofNat 2 k := by
    apply BitVec.eq_of_toNat_eq
    rw [toNat_field, BitVec.toNat_ofNat]
    omega
  rw [State.fltMode, hfield]

/-- "bits shifted beyond bit 31 are lost" (R125): a shift of a word is a product truncated to 32 bits. -/
theorem shiftLeft_eq_ofNat (w : Word) (n : Nat) : w <<< n = BitVec.ofNat 32 (w.toNat * 2 ^ n) := by
  apply BitVec.eq_of_toNat_eq
  rw [BitVec.toNat_shiftLeft, Nat.shiftLeft_eq, BitVec.toNat_ofNat]

/-- Mode A in numbers (R125, R126). -/
theorem encA_eq (id mask : Word) (ext : Bool) :
    encA id mask ext =
      (BitVec.ofNat 32 (id.toNat * 2 ^ (if ext then 1 else 19)),
        BitVec.ofNat 32 (mask.toNat * 2 ^ (if ext then 1 else 19)) ||| 0xC0000000#32) := by
  rw [← shiftLeft_eq_ofNat, ← shiftLeft_eq_ofNat]
  cases ext <;> rfl

/-- The count after FLT_ENC (R124). -/
theorem fltCount_fltEnc (s : State) : (fltEnc s).fltCount = min (s.fltCount + 1) 65535 := by
  rw [fltEnc, fltCount_countEntry]
  simp [State.fltCount]

/-- The pair FLT_ENC writes is the one of its mode (R124). -/
theorem fltEnc_pair {s : State} {m : AcceptMode} {io mo : Word} (hm : s.fltMode = m)
    (hp : encodeFilter m (s.get .fltId) (s.get .fltMask) s.fltExt = (io, mo)) :
    (fltEnc s).get .fltIdOut = io ∧ (fltEnc s).get .fltMaskOut = mo := by
  simp [get_fltEnc, hm, hp]

/-- Settles O51, one acceptance mode after another. -/
theorem fltEncEncodesEntry : Obligations.FltEncEncodesEntry := by
  intro s hf mode ext id mask shift
  refine ⟨fltEnc s, exec_of_clear .fltEnc hf, fun h => ?_, fun h => ?_, fun h => ?_, fun h => ?_, fltCount_fltEnc s,
    fltEnc_unchanged s⟩
  · exact fltEnc_pair (fltMode_of_code h) (encA_eq id mask ext)
  · exact fltEnc_pair (fltMode_of_code h) rfl
  · exact fltEnc_pair (fltMode_of_code h) rfl
  · exact fltEnc_pair (fltMode_of_code h) rfl

/-- Settles O52, along the two cases of `fltEnd_cases`. -/
theorem fltEndChecksCount : Obligations.FltEndChecksCount := by
  refine ⟨by decide, fun s hf => ?_⟩
  have hexec : exec .fltEnd s = .next (fltEnd s) := exec_of_clear .fltEnd hf
  rcases fltEnd_cases s with ⟨hcount, hend⟩ | ⟨hcount, hend⟩ <;> rw [hend] at hexec
  · exact ⟨fun _ => hexec, fun hne => absurd hcount hne⟩
  · refine ⟨fun heq => absurd heq hcount, fun _ => ?_⟩
    have record := get_fatalEntry s .countMismatch .fltCnt s.ctrlId s.fltCount s.filterCount s.filterCount
    refine ⟨_, hexec, record .status, ?_, ?_, record .errLo, record .errHi, Unchanged.fatalEntry s _ _ _ _ _ _⟩
    · exact (record .errCode).trans (errCodeWord_eq .countMismatch .fltCnt s.ctrlId)
    · exact (record .errValue).trans (BitVec.ofInt_natCast 32 s.fltCount)

end Sys2Proof.Proofs

/-! ## NOP, CLR and the latched fatal error (O16, O17, O18) -/

namespace Sys2Proof.Proofs

open Sys2Proof Sys2Proof.Machine Sys2Proof.Laws

/-! ### The two commands that are never refused (spec/60_exceptions.md R147 to R149, R152) -/

/-- NOP has no effect of its own, whatever STATUS holds (R149). -/
theorem exec_nop (s : State) : exec .nop s = .next s := rfl

/-- CLR is the return from a fatal error, whatever STATUS holds (R148). -/
theorem exec_clr (s : State) : exec .clr s = .next (clearErrors s) := rfl

/-- What the step on the word of NOP leaves: the word in CMD, and the transaction acknowledged (R14, R149). -/
theorem step_nop {s : State} {es : List HostEvent} (h : s.pending = .write 0x00 4 (encode .nop) :: es) :
    step s = .next (((s.withPending es).set .cmd (encode .nop)).answer .ack) := by
  rw [step_command h (decode_encode .nop), exec_nop]
  rfl

/-- Settles O16: the step stores the word NOP is encoded as, and NOP itself adds nothing. -/
theorem nopOnlyStoresWord : Obligations.NopOnlyStoresWord := by
  have hword : encode .nop = 0x00000000#32 := by decide
  refine ⟨hword, fun s => ⟨exec_nop s, fun es hp => ?_⟩⟩
  rw [← hword] at hp
  refine ⟨_, step_nop hp, ?_, fun r hr => ?_, by simp, by simp, rfl⟩
  · rw [get_answer, get_set_self, hword]
  · rw [get_answer, get_set_ne _ _ _ _ hr, get_withPending]

/-- Settles O17: STATUS and the ERR registers are those `get_clearErrors` names, and `clearErrors_unchanged` is
the frame. -/
theorem clrAcknowledgesErrors : Obligations.ClrAcknowledgesErrors := by
  refine ⟨by decide, fun s => ?_⟩
  have cleared {r : Reg} (hr : r ∈ [Reg.status, .errCode, .errValue, .errLo, .errHi]) :
      (clearErrors s).get r = 0#32 := by
    rw [get_clearErrors, if_pos hr]
  exact ⟨clearErrors s, exec_clr s, cleared (by decide), cleared (by decide), cleared (by decide), cleared (by decide),
    cleared (by decide), clearErrors_unchanged s⟩

/-! ### Accesses at a register's own offset (spec/20_memory.md R42, R43) -/

/-- A 4-byte access at a register's offset is legal (R11, R46). -/
theorem accessLegal_offset (r : Reg) : accessLegal r.offset 4 = true := by
  by_cases hr : r = .cmd
  · rw [hr]
    rfl
  · exact (operand_offset hr).1

/-- Inside its fields a register holds what was written to it (R43). -/
theorem mergeFields_and_fields (r : Reg) (old v : Word) : mergeFields r old v &&& r.fields = v &&& r.fields := by
  apply BitVec.eq_of_getLsbD_eq
  intro k hk
  rw [BitVec.getLsbD_and, BitVec.getLsbD_and, getLsbD_mergeFields _ _ _ _ hk]
  cases r.fields.getLsbD k <;> simp

section
variable {s : State} {es : List HostEvent} {r : Reg}

/-- A read of a register is answered with its value, whatever STATUS holds (R42, R147). -/
theorem step_read_offset (hp : s.pending = .read r.offset 4 :: es) :
    step s = .next ((s.withPending es).answer (.data (s.get r))) := by
  rw [step_read hp (accessLegal_offset r), windowWord_offset, get_withPending]

/-- A write of a register other than CMD is a write through its fields, whatever STATUS holds (R43, R147). -/
theorem step_write_offset {v : Word} (hr : r ≠ .cmd) (hp : s.pending = .write r.offset 4 v :: es) :
    step s = .next ((windowWrite (s.withPending es) r.offset v).answer .ack) :=
  step_write hp (accessLegal_offset r) (operand_offset hr).2

end

/-- Settles O18: the premise decides only what `exec_of_fatal` says of the other commands; NOP, CLR and the accesses do
not look at STATUS. -/
theorem fatalBlocksCommands : Obligations.FatalBlocksCommands := by
  intro s hf
  refine ⟨fun i hn hc => ?_, exec_nop s, ?_, fun es r hp => ?_, fun es r v hw hr hp => ?_⟩
  · exact ⟨refuse s, exec_of_fatal hf hn hc, get_status_refuse s, Unchanged.refuse s⟩
  · exact ⟨clearErrors s, exec_clr s, flag_clearErrors s .fatal⟩
  · exact ⟨_, step_read_offset hp, rfl⟩
  · refine ⟨_, step_write_offset hr hp, rfl, ?_⟩
    rw [get_answer, get_windowWrite, if_pos ⟨rfl, hw⟩, mergeFields_and_fields]

end Sys2Proof.Proofs

/-! ## Reset (O14, O15, O53) -/

namespace Sys2Proof.Proofs

open Sys2Proof Sys2Proof.Machine Sys2Proof.Laws

/-- A RESET of the reset state changes nothing, so what `hardReset` does holds of the reset state as well (R161). -/
theorem hardReset_reset : hardReset State.reset = State.reset := rfl

/-- The registers after reset: those after a RESET (R161). -/
theorem get_reset (r : Reg) : State.reset.get r = if r = .astat then 3#32 else 0#32 := by
  rw [← hardReset_reset, get_hardReset]

/-- Settles O15: the step of RESET is `hardReset` at the state with the input taken. -/
theorem resetPinRestoresResetValues : Obligations.ResetPinRestoresResetValues := by
  intro s es hp
  exact ⟨_, step_reset hp, get_hardReset _, by simp, by simp⟩

/-- Settles O14: a register's offset shows the register, any other offset 0. -/
theorem resetValues : Obligations.ResetValues := by
  refine ⟨fun r => ?_, fun addr hreserved => windowWord_of_reserved _ hreserved⟩
  rw [windowWord_offset, get_reset]

/-- The parameters an instance has at reset are legal (R6). -/
theorem reset_cfg_wf : State.reset.cfg.wf = true := by decide

/-- No pass is open after reset: ASTAT's 3 is DONE (R76, R161). -/
theorem aState_isOpen_reset : State.reset.aState.isOpen = false := rfl

/-- Settles O53: the window's invariant is the one every RESET gives, and the grid's speaks of open passes only. -/
theorem invariantHoldsAtReset : Obligations.InvariantHoldsAtReset := by
  have hwindow : WindowInv State.reset := by
    rw [← hardReset_reset]
    exact windowInv_hardReset reset_cfg_wf
  exact ⟨hwindow, slotGridOk_of_closed aState_isOpen_reset⟩

end Sys2Proof.Proofs
